-- ==== Sys2Proof/Word.lean ====
section
/-! DEFINITION. The fixed widths of the block (00_scope.md R7). -/

namespace Sys2Proof

/-- A host-visible register or bus word: 32 bits (R7, D2). -/
abbrev Word := BitVec 32

/-- A byte of a buffer or a byte immediate. -/
abbrev Byte := BitVec 8

/-- A symbol is a byte value from 0 to 255 (R5). -/
abbrev Symbol := BitVec 8

/-- A node weight, and TOTAL: 40 bits (R7, R36). -/
abbrev Weight := BitVec 40

/-- A stored code word: 255 bits, right-aligned (R7, R31). -/
abbrev CodeWord := BitVec 255

end Sys2Proof
end

