-- ==== Sys2Proof/Config.lean ====
section
/-! DEFINITION. What an implementation fixes (the parameters of 00_scope.md R6) and the free values the spec
leaves open (93_implementation_defined.md U1, U2, U3, U8). -/

namespace Sys2Proof

/-- What the platform does with a bus-error response (R6, U6). -/
inductive BusErrorAction where
  /-- The response is ignored: a read gives 0, a write has no effect. -/
  | ignore
  /-- The platform raises a fault in the host. -/
  | fault
  deriving DecidableEq, Repr

/-- The implementation parameters of R6. They stand in State beside the state, because State is all that `step`
takes; no step changes them (log 3). -/
structure Params where
  /-- `BASE`: the bus address of byte offset 0 of the window. -/
  base           : Nat
  /-- `IN_SIZE`: bytes in the IN buffer. -/
  inSize         : Nat
  /-- `OUT_SIZE`: bytes in the OUT buffer. -/
  outSize        : Nat
  /-- `BUS_ERROR_ACTION`. -/
  busErrorAction : BusErrorAction
  deriving DecidableEq, Repr

/-- A buffer size R6 allows: a multiple of 4 in 4..65536. -/
def legalSize (n : Nat) : Bool := decide (n % 4 = 0 ∧ 4 ≤ n ∧ n ≤ 65536)

/-- The values R6 allows: BASE a multiple of 0x40000, each size legal. U7: a model must refuse any other size. -/
def Params.legal (c : Params) : Bool :=
  decide (c.base % 0x40000 = 0) && legalSize c.inSize && legalSize c.outSize

/-- R6's defaults for the sizes. BASE and BUS_ERROR_ACTION are OPEN in the spec: 0 and `ignore` are a
DESIGN CHOICE (log 3); a statement about every state holds for every value. -/
def Params.default : Params :=
  { base := 0, inSize := 65536, outSize := 65536, busErrorAction := .ignore }

/-- FREE VALUE (U2): what IN byte `addr` reads as at draw `draw` while nothing has written it since the last hard
reset (10_state.md R42; log 4). -/
opaque Config.unwrittenIn (draw addr : Nat) : Byte

/-- FREE VALUE (U2, U3, U8): what OUT byte `addr` reads as at draw `draw` while nothing has written it since the last
hard reset or soft reset while BUSY (10_state.md R43, 70_reset_and_hazards.md R253; log 4, log 6). -/
opaque Config.unwrittenOut (draw addr : Nat) : Byte

/-- FREE VALUE (U1): what a host read of engine-written state answers while BUSY = 1, a fresh one for each read
(70_reset_and_hazards.md R261; log 5). -/
opaque Config.busyRead (draw : Nat) : Word

end Sys2Proof
end

