-- ==== Sys2Proof/Syntax.lean ====
section
/-! DEFINITION. The commands of HUFFCORE: one constructor per row of the opcode map (30_encoding.md R92). -/

namespace Sys2Proof

/-- The 14 commands. A symbol or byte immediate is operand A, a code length operand B (R91). -/
inductive Instr where
  /-- 0x00: no operation (R120). -/
  | nop
  /-- 0x01: clear the Frequency Table (R121). -/
  | clrfreq
  /-- 0x02: build the Huffman tree from FREQ (R130). -/
  | build
  /-- 0x03: derive the Code Table from the tree (R150). -/
  | derive
  /-- 0x04: empty the Code Table, invalidate the tree (R160). -/
  | clrcode
  /-- 0x05: read one header code from the input stream (R165). -/
  | ldcode (sym : Symbol) (len : BitVec 8)
  /-- 0x06: build the prefix tree from the Code Table (R170). -/
  | rebuild
  /-- 0x07: append one whole byte (R180). -/
  | putb (byte : Byte)
  /-- 0x08: append the code of one symbol (R184). -/
  | putcode (sym : Symbol)
  /-- 0x09: end the packed sequence at a byte boundary (R187). -/
  | flush
  /-- 0x0A: replace ARG0 input bytes by their codes (R190). -/
  | encode
  /-- 0x0B: read one whole byte into RES (R200). -/
  | getb
  /-- 0x0C: skip input pad bits to the next byte boundary (R205). -/
  | align
  /-- 0x0D: decode ARG0 symbols by walking the tree (R210). -/
  | decode
  deriving DecidableEq, Repr

end Sys2Proof
end

