-- ==== Sys2Proof/WellFormed.lean ====
section
/-! DEFINITION. Well-formedness. An operand of `Instr` has exactly the width of its field (30_encoding.md R90, R91) and
every value of it is legal, so every instruction is well formed; what the spec does check is the command WORD (R93)
and the parameters (`Params.legal` of Config, 00_scope.md R6). -/

namespace Sys2Proof

/-- Every operand value R91 gives a command is legal: A any symbol or byte, B any length 0..255. -/
def Instr.WellFormed : Instr → Bool
  | .nop => true
  | .clrfreq => true
  | .build => true
  | .derive => true
  | .clrcode => true
  | .ldcode _ _ => true
  | .rebuild => true
  | .putb _ => true
  | .putcode _ => true
  | .flush => true
  | .encode => true
  | .getb => true
  | .align => true
  | .decode => true

/-- R93 (a): the opcode is none of the 14. -/
def illegalOpcode (w : Word) : Bool := decide (w.toNat % 0x100 ≥ 0x0E)

/-- R93 (b): the reserved byte is not 0. -/
def illegalReserved (w : Word) : Bool := decide (w.toNat / 0x1000000 ≠ 0)

/-- R93 (c): A is not 0 and the opcode is none of LDCODE, PUTB, PUTCODE. -/
def illegalA (w : Word) : Bool :=
  decide (w.toNat / 0x100 % 0x100 ≠ 0 ∧ w.toNat % 0x100 ≠ 0x05 ∧ w.toNat % 0x100 ≠ 0x07 ∧ w.toNat % 0x100 ≠ 0x08)

/-- R93 (d): B is not 0 and the opcode is not LDCODE. -/
def illegalB (w : Word) : Bool := decide (w.toNat / 0x10000 % 0x100 ≠ 0 ∧ w.toNat % 0x100 ≠ 0x05)

/-- R93: a command word is illegal when any of (a) to (d) holds. Written from R93's own words, apart from the
decoder, so that the two can be held against each other. -/
def illegalWord (w : Word) : Bool :=
  illegalOpcode w || illegalReserved w || illegalA w || illegalB w

end Sys2Proof
end

