-- ==== Sys2Proof/Decode.lean ====
section
/-! DEFINITION. From a command word to a command or a rejection by name, and back (30_encoding.md R90–R93). -/

namespace Sys2Proof

/-- Why a word is no command: the clauses of R93. -/
inductive Reject where
  /-- R93 (a): opcode 0x0E to 0xFF. -/
  | opcode
  /-- R93 (b): a nonzero RSV byte. -/
  | reserved
  /-- R93 (c): a nonzero A where the command uses none. -/
  | operandA
  /-- R93 (d): a nonzero B where the command uses none. -/
  | operandB
  deriving DecidableEq, Repr

/-- `OP`, bits 7:0 (R90). -/
def fieldOP (w : Word) : BitVec 8 := w.extractLsb' 0 8

/-- `A`, bits 15:8 (R90, R91). -/
def fieldA (w : Word) : BitVec 8 := w.extractLsb' 8 8

/-- `B`, bits 23:16 (R90, R91). -/
def fieldB (w : Word) : BitVec 8 := w.extractLsb' 16 8

/-- `RSV`, bits 31:24 (R90). -/
def fieldRSV (w : Word) : BitVec 8 := w.extractLsb' 24 8

/-- A command with A = B = 0 (R92). -/
def decodeBare (w : Word) (i : Instr) : Except Reject Instr :=
  if fieldA w ≠ 0 then .error .operandA
  else if fieldB w ≠ 0 then .error .operandB
  else .ok i

/-- A command that uses A, with B = 0 (R92). -/
def decodeWithA (w : Word) (i : Instr) : Except Reject Instr :=
  if fieldB w ≠ 0 then .error .operandB else .ok i

/-- The command a word stands for (R92), or the clause of R93 it falls under. Total. -/
def decode (w : Word) : Except Reject Instr :=
  if fieldRSV w ≠ 0 then .error .reserved
  else match (fieldOP w).toNat with
    | 0x00 => decodeBare w .nop
    | 0x01 => decodeBare w .clrfreq
    | 0x02 => decodeBare w .build
    | 0x03 => decodeBare w .derive
    | 0x04 => decodeBare w .clrcode
    | 0x05 => .ok (.ldcode (fieldA w) (fieldB w))
    | 0x06 => decodeBare w .rebuild
    | 0x07 => decodeWithA w (.putb (fieldA w))
    | 0x08 => decodeWithA w (.putcode (fieldA w))
    | 0x09 => decodeBare w .flush
    | 0x0A => decodeBare w .encode
    | 0x0B => decodeBare w .getb
    | 0x0C => decodeBare w .align
    | 0x0D => decodeBare w .decode
    | _ => .error .opcode

/-- Format C with RSV = 0 (R90): `{RSV, B, A, OP}`. -/
def commandWord (op a b : BitVec 8) : Word := 0#8 ++ b ++ a ++ op

/-- The word of a command (R92). -/
def encode : Instr → Word
  | .nop => commandWord 0x00 0 0
  | .clrfreq => commandWord 0x01 0 0
  | .build => commandWord 0x02 0 0
  | .derive => commandWord 0x03 0 0
  | .clrcode => commandWord 0x04 0 0
  | .ldcode sym len => commandWord 0x05 sym len
  | .rebuild => commandWord 0x06 0 0
  | .putb byte => commandWord 0x07 byte 0
  | .putcode sym => commandWord 0x08 sym 0
  | .flush => commandWord 0x09 0 0
  | .encode => commandWord 0x0A 0 0
  | .getb => commandWord 0x0B 0 0
  | .align => commandWord 0x0C 0 0
  | .decode => commandWord 0x0D 0 0

/-- The decoder on a word given as a number whose bit 0 is the command word's bit 0: every command is one 32-bit
word (R90), so the number IS the word, and bits at and above `nbits` are 0. -/
def decodeTableWord (nbits w : Nat) : Option Instr :=
  match decode (BitVec.ofNat 32 (w % 2 ^ nbits)) with
  | .ok i => some i
  | .error _ => none

end Sys2Proof
end

