-- ==== Sys2Proof/Machine/State.lean ====
section
/-! DEFINITION. The state of HUFFCORE as plain data (10_state.md), the reasons a step can stop, and the state after
reset (70_reset_and_hazards.md R250). -/

namespace Sys2Proof.Machine

/-- The error codes of 60_exceptions.md R220, in code order. -/
inductive ErrorCode where
  /-- 0: the command completed without error. -/
  | none
  /-- 1: the command word is illegal. -/
  | illegal
  /-- 2: no valid tree. -/
  | seq
  /-- 3: a bit pointer is not a multiple of 8. -/
  | align
  /-- 4: an input byte or bit at or past IN_LEN is needed. -/
  | trunc
  /-- 5: the output would pass OUT_SIZE. -/
  | outovf
  /-- 6: the symbol has no code. -/
  | nocode
  /-- 7: the symbol already has an entry. -/
  | dup
  /-- 8: a code is a prefix of, or equal to, another (PREFIX). -/
  | prefixClash
  /-- 9: the payload leads to no symbol. -/
  | badcode
  deriving DecidableEq, Repr

/-- A child slot of the tree: `none`, or a node, which is `Leaf(w, s)` or `Internal(w, l, r)` with `l` descended on
bit 0 and `r` on bit 1 (10_state.md R34). Weights are 40 bits, symbols 8. -/
inductive Slot where
  | none
  | leaf (weight : Weight) (sym : Symbol)
  | internal (weight : Weight) (l r : Slot)
  deriving DecidableEq, Repr

/-- The tree state `TS` (R34). The root of `root` is a node; that it is never `Slot.none` is an invariant
(`TreeState.wf` of Safety, log 16). -/
inductive TreeState where
  | invalid
  | empty
  | root (node : Slot)
  deriving DecidableEq, Repr

/-- One entry of the Code Table: PRESENT, CL, CW (10_state.md R31). -/
structure CodeEntry where
  present : Bool
  cl      : BitVec 8
  cw      : CodeWord
  deriving DecidableEq, Repr

/-- The entry of a symbol without a code (R31). -/
def CodeEntry.absent : CodeEntry := { present := false, cl := 0, cw := 0 }

/-- A buffer: the bytes written since its contents were last unspecified, by byte index, in canonical form
(`Memory.wf`). An unlisted index has no value of its own; what a read of it answers is a free value (log 4). -/
abbrev Memory := List Host.Cell

/-- One thing the outside world does to the block: a bus access of `bits` bits at bus address `addr`, or a hard reset
(20_memory.md R61, 70_reset_and_hazards.md R250). -/
inductive HostAction where
  | read (addr bits : Nat)
  | write (addr bits : Nat) (data : Word)
  | hardReset
  deriving DecidableEq, Repr

/-- A host action and where it lands: `waits = true` if the host has observed BUSY = 0 first (the synchronisation of
20_memory.md R76), `waits = false` if it is performed whether or not a command runs (log 2). -/
structure HostEvent where
  waits  : Bool
  action : HostAction
  deriving DecidableEq, Repr

/-- What the block answers on the bus to a host access: read data (none for a write), the bus-error response, and
whether the platform faults the host for it (20_memory.md R62, 00_scope.md R6; log 11). -/
structure BusResponse where
  data      : Option Word
  busError  : Bool
  hostFault : Bool
  deriving DecidableEq, Repr

/-- The machine. -/
structure State where
  /-- The parameters of R6; no step changes them. -/
  cfg     : Params
  /-- CTRL.IE (R25). -/
  ie      : Bool
  /-- STATUS.BUSY (R26). -/
  busy    : Bool
  /-- STATUS.DONE (R26). -/
  done    : Bool
  /-- STATUS.ERR (R26). -/
  err     : Bool
  /-- STATUS.HAZ (R26). -/
  haz     : Bool
  /-- STATUS.ERRCODE (R26, R220). -/
  errcode : ErrorCode
  /-- ERRINFO (R38). -/
  errinfo : Word
  /-- The command latch CMDW (R44). -/
  cmdw    : Word
  /-- ARG0 (R28). -/
  arg0    : Word
  /-- RES bits 7:0; bits 31:8 read 0 (R29). -/
  res     : Byte
  /-- CNT (R37). -/
  cnt     : Word
  /-- IN_LEN (R39). -/
  inLen   : Word
  /-- IBP (R40). -/
  ibp     : Word
  /-- OBP (R41). -/
  obp     : Word
  /-- CODE_SEL bits 7:0; bits 31:8 are RAZ/WI (R33). -/
  codeSel : Byte
  /-- FREQ[0..255] (R30). -/
  freq    : Vector Word 256
  /-- The Code Table (R31). -/
  codes   : Vector CodeEntry 256
  /-- TS (R34). -/
  ts      : TreeState
  /-- TOTAL (R36). -/
  total   : Weight
  /-- The IN buffer (R42). -/
  inBuf   : Memory
  /-- The OUT buffer (R43). -/
  outBuf  : Memory
  /-- MODEL: what the host still does, first the next (log 2, log 8). -/
  pending : List HostEvent
  /-- MODEL: the block's answer to the last host access (log 8). -/
  resp    : Option BusResponse
  /-- MODEL: the index of the next free values (log 4, log 8). -/
  draws   : Nat
  deriving DecidableEq, Repr

/-- A step of this machine never ends in a fault: the spec has no trap, every failing command completes with an error
record (60_exceptions.md R226), and a host bus error leaves the block running (R229). So the type has no constructor. -/
inductive Fault where
  deriving DecidableEq, Repr

/-- Why a step is refused. -/
inductive Refusal where
  /-- Raised by no arm of exec: every command has its meaning. Safe. -/
  | notModelled (mnemonic : String)
  /-- Raised by step when the parameters are not ones 00_scope.md R6 allows: "A model must refuse any other value"
  (93_implementation_defined.md U7). Safe. -/
  | illegalParameters
  deriving DecidableEq, Repr

/-- The machine after a hard reset (R250). IN and OUT list nothing: their bytes are unspecified (log 4). CMDW is
unspecified in R250 and 0 here (log 7); the parameters are the defaults (log 3); the model's own fields are empty
(log 8). -/
def State.reset : State :=
  { cfg     := Params.default
    ie      := false
    busy    := false
    done    := false
    err     := false
    haz     := false
    errcode := .none
    errinfo := 0
    cmdw    := 0
    arg0    := 0
    res     := 0
    cnt     := 0
    inLen   := 0
    ibp     := 0
    obp     := 0
    codeSel := 0
    freq    := Vector.replicate 256 0
    codes   := Vector.replicate 256 CodeEntry.absent
    ts      := .invalid
    total   := 0
    inBuf   := []
    outBuf  := []
    pending := []
    resp    := none
    draws   := 0 }

end Sys2Proof.Machine
end

