-- ==== Sys2Proof/Machine/Ops.lean ====
section
/-! DEFINITION. The named operations over the state: buffers as canonical lists, the tables, acceptance, completion and
the error exit every command shares (40_control.md R111, R113, R114), and the resets (70_reset_and_hazards.md R250–R253). -/

namespace Sys2Proof.Machine

/-! ## Buffers -/

/-- The canonical form: indices strictly rising. An unlisted index has no value, so no listed entry can repeat one. -/
abbrev Memory.wf (m : Memory) : Prop := m.Pairwise (fun x y => x.1 < y.1)

/-- The byte written at an index, `none` where nothing has been written. -/
def Memory.read : Memory → Nat → Option Byte
  | [], _ => none
  | (b, u) :: m, a => if a = b then some u else Memory.read m a

/-- Write one byte, keeping the canonical form. -/
def Memory.write : Memory → Nat → Byte → Memory
  | [], a, v => [(a, v)]
  | (b, u) :: m, a, v =>
    if a < b then (a, v) :: (b, u) :: m
    else if a = b then (a, v) :: m
    else (b, u) :: Memory.write m a v

/-- `MemRead(IN, i, 1)` (00_scope.md R10). A byte that nothing has written since hard reset is a free value
(20_memory.md R70, U2). -/
def inByte (s : State) (i : Nat) : Byte := (Memory.read s.inBuf i).getD (Config.unwrittenIn s.draws i)

/-- `MemRead(OUT, i, 1)` (R10); an unwritten byte is a free value (U2, U3, U8). -/
def outByte (s : State) (i : Nat) : Byte := (Memory.read s.outBuf i).getD (Config.unwrittenOut s.draws i)

/-- A host write of one IN byte; the engine never writes IN (10_state.md R42). -/
def writeIn (i : Nat) (v : Byte) (s : State) : State := { s with inBuf := Memory.write s.inBuf i v }

/-- `MemWrite(OUT, i, 1, v)` (R10). -/
def writeOut (i : Nat) (v : Byte) (s : State) : State := { s with outBuf := Memory.write s.outBuf i v }

/-! ## Tables and tree -/

/-- The 256 byte values in ascending order. -/
def allSymbols : List Symbol := (List.range 256).map (BitVec.ofNat 8)

/-- `FREQ[x]` (10_state.md R30). -/
def freqOf (s : State) (x : Symbol) : Word := s.freq[x.toNat]'x.isLt

/-- `FREQ[x] <- v`. -/
def setFreq (x : Symbol) (v : Word) (s : State) : State := { s with freq := s.freq.set x.toNat v x.isLt }

/-- Entry `x` of a Code Table (10_state.md R31). -/
def entryAt (t : Vector CodeEntry 256) (x : Symbol) : CodeEntry := t[x.toNat]'x.isLt

/-- Write entry `x` of a Code Table. -/
def setEntry (t : Vector CodeEntry 256) (x : Symbol) (e : CodeEntry) : Vector CodeEntry 256 :=
  t.set x.toNat e x.isLt

/-- The Code Table with every entry absent. -/
def emptyCodes : Vector CodeEntry 256 := Vector.replicate 256 CodeEntry.absent

/-- Entry `x` of the machine's Code Table. -/
def codeOf (s : State) (x : Symbol) : CodeEntry := entryAt s.codes x

/-- Replace the Code Table. -/
def setCodes (t : Vector CodeEntry 256) (s : State) : State := { s with codes := t }

/-- Set `TS` and `TOTAL` together (10_state.md R34, R36). -/
def setTree (t : TreeState) (w : Weight) (s : State) : State := { s with ts := t, total := w }

/-- The `w` field of a node (R34). -/
def slotWeight : Slot → Weight
  | .none => 0
  | .leaf w _ => w
  | .internal w _ _ => w

/-- The number of leaves below a slot (R35). -/
def leafCount : Slot → Nat
  | .none => 0
  | .leaf _ _ => 1
  | .internal _ l r => leafCount l + leafCount r

/-! ## Acceptance, completion, errors -/

/-- Acceptance of a command word (R111), which also clears the error record of the command before (R227). -/
def accept (v : Word) (s : State) : State :=
  { s with cmdw := v, done := false, err := false, errcode := .none, errinfo := 0, busy := true }

/-- The word the engine runs: the command latch (R112, R44). HUFFCORE fetches nothing else (R22). -/
def fetch (s : State) : Word := s.cmdw

/-- Completion (R113): on success and on error alike. -/
def complete (s : State) : State := { s with busy := false, done := true }

/-- The error record of `raise E(info)` (R114, R226). Nothing else is saved and no mode changes. -/
def raiseError (e : ErrorCode) (info : Word) (s : State) : State :=
  { s with err := true, errcode := e, errinfo := info }

/-- How a command's pseudocode ends: it returns, or it raises an error in the state written so far (R112, R114). -/
inductive Run where
  | ok (s : State)
  | raised (e : ErrorCode) (info : Word) (s : State)
  deriving DecidableEq, Repr

/-- The end of every command: the error record if it raised one, then completion (R113, R114). -/
def finish : Run → State
  | .ok s => complete s
  | .raised e info s => complete (raiseError e info s)

/-- An illegal word is accepted and completes at once with ILLEGAL and ERRINFO = the word (30_encoding.md R93). -/
def runIllegal (s : State) : State := finish (.raised .illegal (fetch s) s)

/-! ## Resets -/

/-- Hard reset (R250). The parameters, the host's coming accesses and the free values' index are no state of the
block: they stay. -/
def hardReset (s : State) : State :=
  { State.reset with cfg := s.cfg, pending := s.pending, draws := s.draws }

/-- Soft reset (R252): the values of R250, with IN preserved, and OUT preserved when BUSY was 0. While BUSY = 1 it
aborts the command, and every OUT byte becomes unspecified (R253). -/
def softReset (s : State) : State :=
  { hardReset s with inBuf := s.inBuf, outBuf := if s.busy then [] else s.outBuf }

/-- Move the index of the free values on. -/
def tick (s : State) : State := { s with draws := s.draws + 1 }

end Sys2Proof.Machine
end

