-- ==== Sys2Proof/Machine/Operands.lean ====
section
/-! DEFINITION. Bit-strings, the stream primitives (20_memory.md R70–R73), pointer rounding and byte order: every form
in which a command reads an input or writes an output. -/

namespace Sys2Proof.Machine

/-! ## Bit-strings and rounding (00_scope.md R8, R9) -/

/-- `cdiv8(x)`: the bytes needed to hold `x` bits (R8). -/
def cdiv8 (x : Nat) : Nat := (x + 7) / 8

/-- `up8(x)`: `x` rounded up to a multiple of 8 (R8). -/
def up8 (x : Nat) : Nat := 8 * cdiv8 x

/-- `val(c)`: the first bit is the most significant (R9). -/
def codeVal (c : List Bool) : Nat := c.foldl (fun v b => 2 * v + b.toNat) 0

/-- `bitsOf(v, L)`: the bit-string of length `L` with value `v`, first bit first (R9). -/
def bitsOf (v : CodeWord) : Nat → List Bool
  | 0 => []
  | n + 1 => v.getLsbD n :: bitsOf v n

/-- The code of an entry as a bit-string: `bitsOf(CW, CL)` (10_state.md R31). -/
def codeBits (e : CodeEntry) : List Bool := bitsOf e.cw e.cl.toNat

/-- A symbol as an ERRINFO value. -/
def symbolInfo (x : Symbol) : Word := x.setWidth 32

/-! ## Input -/

/-- Bit `p` of IN: bit `7 - p mod 8` of byte `p div 8` (R64, R70). -/
def storedBit (s : State) (p : Nat) : Bool := (inByte s (p / 8)).getLsbD (7 - p % 8)

/-- `InBit(p)` (R70); `none` stands for `raise TRUNC(p)`. -/
def inBit (s : State) (p : Nat) : Option Bool :=
  if p / 8 ≥ s.inLen.toNat then none else some (storedBit s p)

/-- The `n` bits of IN from bit `p` on, first bit first. -/
def storedBits (s : State) (p : Nat) : Nat → List Bool
  | 0 => []
  | n + 1 => storedBit s p :: storedBits s (p + 1) n

/-! ## Output -/

/-- A byte with bit `k` set to `b`. -/
def setBit (v : Byte) (k : Nat) (b : Bool) : Byte :=
  if b then v ||| (1#8 <<< k) else v &&& ~~~(1#8 <<< k)

/-- `PutBit(p, b)` (R71): the first bit of a byte clears the byte's other 7. -/
def putBit (p : Nat) (b : Bool) (s : State) : State :=
  if p % 8 = 0 then writeOut (p / 8) (setBit 0 7 b) s
  else writeOut (p / 8) (setBit (outByte s (p / 8)) (7 - p % 8) b) s

/-- Move OBP on. -/
def advanceObp (n : Nat) (s : State) : State := { s with obp := s.obp + BitVec.ofNat 32 n }

/-- Move IBP on. -/
def advanceIbp (n : Nat) (s : State) : State := { s with ibp := s.ibp + BitVec.ofNat 32 n }

/-- Append a bit-string at OBP, first bit first. -/
def appendBits : List Bool → State → State
  | [], s => s
  | b :: c, s => appendBits c (advanceObp 1 (putBit s.obp.toNat b s))

/-- `AppendCode(x)` (R72). -/
def appendCode (x : Symbol) (s : State) : State := appendBits (codeBits (codeOf s x)) s

/-- `Fits(L)` (R73): the next `L` output bits all lie inside OUT. -/
def fits (s : State) (len : Nat) : Bool :=
  decide (len = 0 ∨ (s.obp.toNat + len - 1) / 8 < s.cfg.outSize)

/-! ## Byte order of a host word (20_memory.md R63) -/

/-- The big-endian word at byte index `i` of a buffer read by `f`. -/
def wordAt (f : Nat → Byte) (i : Nat) : Word := f i ++ f (i + 1) ++ f (i + 2) ++ f (i + 3)

/-- A big-endian write of all four bytes at index `i`. -/
def Memory.writeWord (m : Memory) (i : Nat) (v : Word) : Memory :=
  Memory.write (Memory.write (Memory.write (Memory.write m
    i (v.extractLsb' 24 8)) (i + 1) (v.extractLsb' 16 8)) (i + 2) (v.extractLsb' 8 8)) (i + 3) (v.extractLsb' 0 8)

end Sys2Proof.Machine
end

