-- ==== Sys2Proof/Machine/Flags.lean ====
section
/-! DEFINITION. STATUS, CTRL and the interrupt (10_state.md R25, R26, R45), and the registers computed when read
(R32, R33, R35, R36). -/

namespace Sys2Proof.Machine

/-- The value of STATUS.ERRCODE (60_exceptions.md R220). -/
def errorNumber : ErrorCode → BitVec 8
  | .none => 0
  | .illegal => 1
  | .seq => 2
  | .align => 3
  | .trunc => 4
  | .outovf => 5
  | .nocode => 6
  | .dup => 7
  | .prefixClash => 8
  | .badcode => 9

/-- STATUS.TREE_VALID: `TS` is not `Invalid` (R26, R35). -/
def treeValid (s : State) : Bool :=
  match s.ts with
  | .invalid => false
  | .empty => true
  | .root _ => true

/-- STATUS as the host reads it (R26): bits 31:16 and 7:5 read 0. -/
def statusWord (s : State) : Word :=
  0#16 ++ errorNumber s.errcode ++ 0#3 ++ BitVec.ofBool s.haz ++ BitVec.ofBool (treeValid s)
    ++ BitVec.ofBool s.err ++ BitVec.ofBool s.done ++ BitVec.ofBool s.busy

/-- CTRL as the host reads it (R25): SRST and bits 31:2 read 0. -/
def ctrlWord (s : State) : Word := 0#30 ++ BitVec.ofBool s.ie ++ 0#1

/-- The interrupt output: `CTRL.IE ∧ STATUS.DONE` (R45, 60_exceptions.md R230). -/
def irq (s : State) : Bool := s.ie && s.done

/-- A write of STATUS: W1C on bits 1 and 4, nothing else (R26). -/
def writeStatus (v : Word) (s : State) : State :=
  { s with done := s.done && !v.getLsbD 1, haz := s.haz && !v.getLsbD 4 }

/-- A write of CTRL: a soft reset if bit 0 is 1, else IE from bit 1 (R25, R252). -/
def writeCtrl (v : Word) (s : State) : State :=
  if v.getLsbD 0 then softReset s else { s with ie := v.getLsbD 1 }

/-- NLEAF (R35). -/
def nleaf (s : State) : Nat :=
  match s.ts with
  | .invalid => 0
  | .empty => 0
  | .root n => leafCount n

/-- NCODE: the number of present entries (R32). -/
def ncode (s : State) : Nat := (allSymbols.filter (fun x => (codeOf s x).present)).length

/-- MAXLEN: the greatest CL of a present entry, 0 if there is none (R32). -/
def maxlen (s : State) : Nat :=
  allSymbols.foldl (fun m x => if (codeOf s x).present then max m (codeOf s x).cl.toNat else m) 0

/-- CODE_INFO: `{23'b0, PRESENT, CL}` of the entry CODE_SEL selects (R33). -/
def codeInfo (s : State) : Word :=
  0#23 ++ BitVec.ofBool (codeOf s s.codeSel).present ++ (codeOf s s.codeSel).cl

/-- CODE_WORDk: `CW[32k+31 : 32k]` of the entry CODE_SEL selects; bit 255 reads 0 (R33). -/
def codeWordReg (s : State) (k : Nat) : Word := ((codeOf s s.codeSel).cw.setWidth 256).extractLsb' (32 * k) 32

/-- TOTAL_LO: `TOTAL[31:0]` (R36). -/
def totalLo (s : State) : Word := s.total.extractLsb' 0 32

/-- TOTAL_HI: `{24'b0, TOTAL[39:32]}` (R36). -/
def totalHi (s : State) : Word := 0#24 ++ s.total.extractLsb' 32 8

end Sys2Proof.Machine
end

