-- ==== Sys2Proof/Machine/BusAccess.lean ====
section
/-! DEFINITION. The host's bus accesses: the address map (20_memory.md R60), what is performed and what is a bus error
(R61, R62), the register map (10_state.md R23), and the hazards while BUSY (70_reset_and_hazards.md R260, R261). -/

namespace Sys2Proof.Machine

/-- The host-visible registers (10_state.md R23). -/
inductive Reg where
  | id
  | ctrl
  | status
  | cmd
  | arg0
  | res
  | cnt
  | errinfo
  | inLen
  | ibp
  | obp
  | nleaf
  | ncode
  | totalLo
  | totalHi
  | maxlen
  | codeSel
  | codeInfo
  | codeWord (k : Fin 8)
  deriving DecidableEq, Repr

/-- What stands at a non-reserved offset of the window (R60): a register, a FREQ entry, or the buffer word that begins
at byte index `i`. -/
inductive Location where
  | reg (r : Reg)
  | freq (x : Symbol)
  | inWord (i : Nat)
  | outWord (i : Nat)
  deriving DecidableEq, Repr

/-- The register map of R23: offset and name. -/
def regMap : List (Nat × Reg) :=
  [(0x000, .id), (0x004, .ctrl), (0x008, .status), (0x00C, .cmd), (0x010, .arg0), (0x014, .res), (0x018, .cnt),
   (0x01C, .errinfo), (0x020, .inLen), (0x024, .ibp), (0x028, .obp), (0x02C, .nleaf), (0x030, .ncode),
   (0x034, .totalLo), (0x038, .totalHi), (0x03C, .maxlen), (0x040, .codeSel), (0x044, .codeInfo)]
  ++ (List.finRange 8).map (fun k => (0x048 + 4 * k.val, .codeWord k))

/-- The location at a 4-aligned offset of the window, `none` where the offset is reserved (R60). -/
def locationAt (c : Params) (off : Nat) : Option Location :=
  if off < 0x68 then (regMap.lookup off).map .reg
  else if 0x400 ≤ off ∧ off < 0x800 then some (.freq (BitVec.ofNat 8 ((off - 0x400) / 4)))
  else if 0x10000 ≤ off ∧ off < 0x10000 + c.inSize then some (.inWord (off - 0x10000))
  else if 0x20000 ≤ off ∧ off < 0x20000 + c.outSize then some (.outWord (off - 0x20000))
  else none

/-- The offset of a bus address in the window of 0x30000 bytes at BASE, `none` for an address the block does not decode
(R60, log 12). -/
def windowOffset (c : Params) (addr : Nat) : Option Nat :=
  if c.base ≤ addr ∧ addr < c.base + 0x30000 then some (addr - c.base) else none

/-- The location an access performs at: 32 bits wide, 4-aligned, not reserved; `none` is a bus error (R61, R62). -/
def performedAt (c : Params) (off bits : Nat) : Option Location :=
  if bits = 32 ∧ off % 4 = 0 then locationAt c off else none

/-- ID: "HUF1" (10_state.md R24). -/
def idWord : Word := 0x48554631

/-- The registers whose reads are defined while BUSY = 1 (R261). -/
def readableWhileBusy : Reg → Bool
  | .id => true
  | .ctrl => true
  | .status => true
  | .cmd => true
  | _ => false

/-- The value of a register while BUSY = 0, and of ID, CTRL, STATUS and CMD at all times (10_state.md R24–R41). -/
def regValue (s : State) : Reg → Word
  | .id => idWord
  | .ctrl => ctrlWord s
  | .status => statusWord s
  | .cmd => 0
  | .arg0 => s.arg0
  | .res => s.res.setWidth 32
  | .cnt => s.cnt
  | .errinfo => s.errinfo
  | .inLen => s.inLen
  | .ibp => s.ibp
  | .obp => s.obp
  | .nleaf => BitVec.ofNat 32 (nleaf s)
  | .ncode => BitVec.ofNat 32 (ncode s)
  | .totalLo => totalLo s
  | .totalHi => totalHi s
  | .maxlen => BitVec.ofNat 32 (maxlen s)
  | .codeSel => s.codeSel.setWidth 32
  | .codeInfo => codeInfo s
  | .codeWord k => codeWordReg s k

/-- The value of a location while BUSY = 0; a buffer word is big-endian (R63). -/
def locationValue (s : State) : Location → Word
  | .reg r => regValue s r
  | .freq x => freqOf s x
  | .inWord i => wordAt (inByte s) i
  | .outWord i => wordAt (outByte s) i

/-- Whether a host read of the location is defined in this state (R261). -/
def readDefined (s : State) : Location → Bool
  | .reg r => !s.busy || readableWhileBusy r
  | .freq _ => !s.busy
  | .inWord _ => !s.busy
  | .outWord _ => !s.busy

/-- The data a performed host read returns; while BUSY = 1 a fresh free value where R261 leaves it unspecified
(log 5). -/
def readValue (s : State) (l : Location) : Word :=
  if readDefined s l then locationValue s l else Config.busyRead s.draws

/-- `min(v, bound)` as a register value: the WARL writes of R39, R40 and R41. -/
def warl (v : Word) (bound : Nat) : Word := BitVec.ofNat 32 (min v.toNat bound)

/-- What a host write does to a register while BUSY = 0 (R25–R28, R33, R39–R41); RO registers ignore it (R23). -/
def writeReg (r : Reg) (v : Word) (s : State) : State :=
  match r with
  | .ctrl => writeCtrl v s
  | .status => writeStatus v s
  | .cmd => accept v s
  | .arg0 => { s with arg0 := v }
  | .inLen => { s with inLen := warl v s.cfg.inSize }
  | .ibp => { s with ibp := warl v (8 * s.cfg.inSize) }
  | .obp => { s with obp := warl v (8 * s.cfg.outSize) }
  | .codeSel => { s with codeSel := v.extractLsb' 0 8 }
  | .id => s
  | .res => s
  | .cnt => s
  | .errinfo => s
  | .nleaf => s
  | .ncode => s
  | .totalLo => s
  | .totalHi => s
  | .maxlen => s
  | .codeInfo => s
  | .codeWord _ => s

/-- What a host write does while BUSY = 0. -/
def writeLocation (l : Location) (v : Word) (s : State) : State :=
  match l with
  | .reg r => writeReg r v s
  | .freq x => setFreq x v s
  | .inWord i => { s with inBuf := Memory.writeWord s.inBuf i v }
  | .outWord i => { s with outBuf := Memory.writeWord s.outBuf i v }

/-- The locations whose writes are dropped while BUSY = 1 and set HAZ: all but CTRL and STATUS (R61). This takes in the
RO registers, which R260's list does not name; they keep their value either way (log 9). -/
def droppedWhileBusy : Location → Bool
  | .reg .ctrl => false
  | .reg .status => false
  | .reg _ => true
  | .freq _ => true
  | .inWord _ => true
  | .outWord _ => true

/-- A performed host write (R61, R260). -/
def hostWrite (l : Location) (v : Word) (s : State) : State :=
  if s.busy && droppedWhileBusy l then { s with haz := true } else writeLocation l v s

/-- The bus-error response: a read returns 0 as data (R62); BUS_ERROR_ACTION says whether the host faults (log 11). -/
def busErrorResponse (c : Params) (data : Option Word) : BusResponse :=
  { data := data, busError := true, hostFault := decide (c.busErrorAction = .fault) }

/-- A host read at a bus address: it changes nothing in the block (R65), only the answer on the bus. -/
def busRead (addr bits : Nat) (s : State) : State :=
  match windowOffset s.cfg addr with
  | none => { s with resp := none }
  | some off =>
    match performedAt s.cfg off bits with
    | none => { s with resp := some (busErrorResponse s.cfg (some 0)) }
    | some l => { s with resp := some { data := some (readValue s l), busError := false, hostFault := false } }

/-- A host write at a bus address. A bus error changes no state of the block (R62). -/
def busWrite (addr bits : Nat) (v : Word) (s : State) : State :=
  match windowOffset s.cfg addr with
  | none => { s with resp := none }
  | some off =>
    match performedAt s.cfg off bits with
    | none => { s with resp := some (busErrorResponse s.cfg none) }
    | some l => { hostWrite l v s with resp := some { data := none, busError := false, hostFault := false } }

/-- One host action. -/
def hostAct (a : HostAction) (s : State) : State :=
  match a with
  | .read addr bits => busRead addr bits s
  | .write addr bits v => busWrite addr bits v s
  | .hardReset => hardReset s

/-- Who moves next. -/
inductive Turn where
  /-- The engine runs the accepted command. -/
  | engine
  /-- The host performs its next action. -/
  | host (a : HostAction) (rest : List HostEvent)
  /-- BUSY = 0 and the host does nothing: the engine is idle and keeps its state (60_exceptions.md R240). -/
  | idle
  deriving DecidableEq, Repr

/-- While BUSY = 1 the next host action lands before the command completes unless it waits for BUSY = 0; with no such
action the engine runs (20_memory.md R75; U5; log 2). -/
def nextTurn (s : State) : Turn :=
  match s.pending with
  | [] => if s.busy then .engine else .idle
  | e :: rest => if s.busy && e.waits then .engine else .host e.action rest

/-- The host's turn: its action is taken off the list and performed. -/
def hostTurn (a : HostAction) (rest : List HostEvent) (s : State) : State :=
  hostAct a { s with pending := rest }

end Sys2Proof.Machine
end

