-- ==== Sys2Proof/Machine/CodeTable.lean ====
section
/-! DEFINITION. DERIVE, CLRCODE, LDCODE and REBUILD (42_code_table.md). -/

namespace Sys2Proof.Machine

/-! ## DERIVE -/

/-- The entry of a leaf at depth `len` whose path has value `v` (R150). -/
def pathEntry (len v : Nat) : CodeEntry :=
  { present := true, cl := BitVec.ofNat 8 len, cw := BitVec.ofNat 255 v }

/-- `Walk(node, L, v)` (R150): append 0 going left, 1 going right, record at a leaf. -/
def walkCodes : Slot → (len v : Nat) → Vector CodeEntry 256 → Vector CodeEntry 256
  | .none, _, _, t => t
  | .leaf _ x, len, v, t => setEntry t x (pathEntry len v)
  | .internal _ l r, len, v, t => walkCodes r (len + 1) (2 * v + 1) (walkCodes l (len + 1) (2 * v) t)

/-- The body of DERIVE (R150). -/
def runDerive (s : State) : Run :=
  match s.ts with
  | .invalid => .raised .seq 0 s
  | .empty => .ok (setCodes emptyCodes s)
  | .root n => .ok (setCodes (walkCodes n 0 0 emptyCodes) s)

/-- DERIVE (R150). -/
def execDerive (s : State) : Host.Outcome State Fault Refusal := .next (finish (runDerive s))

/-! ## CLRCODE -/

/-- CLRCODE (R160). -/
def execClrcode (s : State) : Host.Outcome State Fault Refusal :=
  .next (finish (.ok (setTree .invalid 0 (setCodes emptyCodes s))))

/-! ## LDCODE -/

/-- The entry that `len` bits of IN from IBP on give (R165). -/
def loadedEntry (len : BitVec 8) (s : State) : CodeEntry :=
  { present := true, cl := len, cw := BitVec.ofNat 255 (codeVal (storedBits s s.ibp.toNat len.toNat)) }

/-- The body of LDCODE, its checks in the order of R165. -/
def runLdcode (x : Symbol) (len : BitVec 8) (s : State) : Run :=
  if s.ibp.toNat % 8 ≠ 0 then .raised .align s.ibp s
  else if (codeOf s x).present then .raised .dup (symbolInfo x) s
  else if 0 < len.toNat ∧ s.ibp.toNat / 8 + cdiv8 len.toNat > s.inLen.toNat then .raised .trunc s.ibp s
  else .ok (setTree .invalid 0
    (advanceIbp (up8 len.toNat) (setCodes (setEntry s.codes x (loadedEntry len s)) s)))

/-- LDCODE (R165). -/
def execLdcode (x : Symbol) (len : BitVec 8) (s : State) : Host.Outcome State Fault Refusal :=
  .next (finish (runLdcode x len s))

/-! ## REBUILD -/

/-- Insert the code `c` of symbol `x` below a slot; `none` is `Fail(x)` (R170): a leaf on the way is an earlier code
that is a prefix of `c`, and an occupied slot at the end is a code that `c` equals or is a prefix of. -/
def insertCode (x : Symbol) : Slot → List Bool → Option Slot
  | .none, [] => some (.leaf 0 x)
  | .leaf _ _, _ => none
  | .internal _ _ _, [] => none
  | .none, b :: c =>
    (insertCode x .none c).map fun n => if b then .internal 0 .none n else .internal 0 n .none
  | .internal w l r, b :: c =>
    if b then (insertCode x r c).map (fun n => .internal w l n)
    else (insertCode x l c).map (fun n => .internal w n r)
termination_by structural _ c => c

/-- Insert the present symbols of a list, in its order; `.error x` is `Fail(x)` (R170). -/
def insertCodes (t : Vector CodeEntry 256) : List Symbol → Slot → Except Symbol Slot
  | [], n => .ok n
  | x :: xs, n =>
    if (entryAt t x).present then
      match insertCode x n (codeBits (entryAt t x)) with
      | some n' => insertCodes t xs n'
      | none => .error x
    else insertCodes t xs n

/-- `T = none ? Empty : Root(T)` (R170). -/
def treeOfSlot : Slot → TreeState
  | .none => .empty
  | n => .root n

/-- The body of REBUILD (R170): the present symbols in ascending byte value, from an empty tree. -/
def runRebuild (s : State) : Run :=
  match insertCodes s.codes allSymbols .none with
  | .ok n => .ok (setTree (treeOfSlot n) 0 s)
  | .error x => .raised .prefixClash (symbolInfo x) (setTree .invalid 0 s)

/-- REBUILD (R170). -/
def execRebuild (s : State) : Host.Outcome State Fault Refusal := .next (finish (runRebuild s))

end Sys2Proof.Machine
end

