-- ==== Sys2Proof/Machine/Control.lean ====
section
/-! DEFINITION. The control commands NOP and CLRFREQ (40_control.md). -/

namespace Sys2Proof.Machine

/-- NOP (R120): nothing but completion. -/
def execNop (s : State) : Host.Outcome State Fault Refusal := .next (finish (.ok s))

/-- Every FREQ entry to 0. -/
def clearFreq (s : State) : State := { s with freq := Vector.replicate 256 0 }

/-- CLRFREQ (R121). -/
def execClrfreq (s : State) : Host.Outcome State Fault Refusal := .next (finish (.ok (clearFreq s)))

end Sys2Proof.Machine
end

