-- ==== Sys2Proof/Machine/Packer.lean ====
section
/-! DEFINITION. The bit packer: PUTB, PUTCODE, FLUSH, ENCODE (43_bit_packer.md). -/

namespace Sys2Proof.Machine

/-- The body of PUTB (R180). -/
def runPutb (b : Byte) (s : State) : Run :=
  if s.obp.toNat % 8 ≠ 0 then .raised .align s.obp s
  else if s.obp.toNat / 8 ≥ s.cfg.outSize then .raised .outovf s.obp s
  else .ok (advanceObp 8 (writeOut (s.obp.toNat / 8) b s))

/-- PUTB (R180). -/
def execPutb (b : Byte) (s : State) : Host.Outcome State Fault Refusal := .next (finish (runPutb b s))

/-- The body of PUTCODE (R184). -/
def runPutcode (x : Symbol) (s : State) : Run :=
  if (codeOf s x).present = false then .raised .nocode (symbolInfo x) s
  else if fits s (codeOf s x).cl.toNat = false then .raised .outovf s.obp s
  else .ok (appendCode x s)

/-- PUTCODE (R184). -/
def execPutcode (x : Symbol) (s : State) : Host.Outcome State Fault Refusal := .next (finish (runPutcode x s))

/-- FLUSH (R187): OBP rounded up; no byte is written. -/
def execFlush (s : State) : Host.Outcome State Fault Refusal :=
  .next (finish (.ok { s with obp := BitVec.ofNat 32 (up8 s.obp.toNat) }))

/-- One whole symbol of ENCODE: its code appended, IBP and CNT moved on (R190). -/
def encodeOne (x : Symbol) (s : State) : State :=
  let t := advanceIbp 8 (appendCode x s)
  { t with cnt := t.cnt + 1 }

/-- The loop of ENCODE, `n` symbols to go (R190). -/
def encodeLoop : Nat → State → Run
  | 0, s => .ok s
  | n + 1, s =>
    if s.ibp.toNat / 8 ≥ s.inLen.toNat then .raised .trunc s.ibp s
    else
      let x := inByte s (s.ibp.toNat / 8)
      if (codeOf s x).present = false then .raised .nocode (symbolInfo x) s
      else if fits s (codeOf s x).cl.toNat = false then .raised .outovf s.obp s
      else encodeLoop n (encodeOne x s)

/-- CNT to 0, as ENCODE and DECODE start (10_state.md R37). -/
def clearCnt (s : State) : State := { s with cnt := 0 }

/-- The body of ENCODE (R190): CNT is cleared before the alignment check. -/
def runEncode (s : State) : Run :=
  if s.ibp.toNat % 8 ≠ 0 then .raised .align s.ibp (clearCnt s)
  else encodeLoop s.arg0.toNat (clearCnt s)

/-- ENCODE (R190). -/
def execEncode (s : State) : Host.Outcome State Fault Refusal := .next (finish (runEncode s))

end Sys2Proof.Machine
end

