-- ==== Sys2Proof/Machine/TreeBuilder.lean ====
section
/-! DEFINITION. BUILD, the priority-queue merge engine (41_tree_builder.md). -/

namespace Sys2Proof.Machine

/-- An element of the priority queue: a node and its insertion number (R130). -/
structure QueueItem where
  node : Slot
  seq  : Nat
  deriving DecidableEq, Repr

/-- `(weight, seq)` of `x` is below that of `y`, lexicographically (R131). -/
def keyLt (x y : QueueItem) : Bool :=
  decide ((slotWeight x.node).toNat < (slotWeight y.node).toNat
    ∨ ((slotWeight x.node).toNat = (slotWeight y.node).toNat ∧ x.seq < y.seq))

/-- Insert into the queue, which is held in key order, so that `RemoveMin` takes its head (R131; only the order of
removals is architectural, 10_state.md R44, log 14). -/
def insertItem (x : QueueItem) : List QueueItem → List QueueItem
  | [] => [x]
  | y :: q => if keyLt x y then x :: y :: q else y :: insertItem x q

/-- The leaves of the present symbols, in ascending byte value, with seq `k`, `k+1`, ... (R130): the next seq and the
queue. -/
def insertLeaves (s : State) : List Symbol → Nat → List QueueItem → Nat × List QueueItem
  | [], k, q => (k, q)
  | x :: xs, k, q =>
    if freqOf s x = 0 then insertLeaves s xs k q
    else insertLeaves s xs (k + 1) (insertItem { node := .leaf ((freqOf s x).setWidth 40) x, seq := k } q)

/-- The merged node: the first removed is the left child, the second the right, and the weights add (R130, R132). -/
def mergeNodes (x y : Slot) : Slot := .internal (slotWeight x + slotWeight y) x y

/-- While two elements are left, remove two and insert their merge (R130). `fuel` bounds the merges; the queue's
length is always enough. -/
def mergeAll : (fuel : Nat) → (k : Nat) → List QueueItem → List QueueItem
  | 0, _, q => q
  | _ + 1, _, [] => []
  | _ + 1, _, [x] => [x]
  | fuel + 1, k, x :: y :: q =>
    mergeAll fuel (k + 1) (insertItem { node := mergeNodes x.node y.node, seq := k } q)

/-- The queue BUILD ends with: one node, or none for an empty table. -/
def builtQueue (s : State) : List QueueItem :=
  match insertLeaves s allSymbols 0 [] with
  | (n, q) => mergeAll n n q

/-- The tree BUILD makes from FREQ (R130). -/
def builtTree (s : State) : TreeState :=
  match builtQueue s with
  | [] => .empty
  | m :: _ => .root m.node

/-- The weight of the root, 0 for no tree (10_state.md R36). -/
def treeWeight : TreeState → Weight
  | .invalid => 0
  | .empty => 0
  | .root n => slotWeight n

/-- BUILD (R130): TS and TOTAL from FREQ, and the Code Table cleared. -/
def execBuild (s : State) : Host.Outcome State Fault Refusal :=
  .next (finish (.ok (setCodes emptyCodes (setTree (builtTree s) (treeWeight (builtTree s)) s))))

end Sys2Proof.Machine
end

