-- ==== Sys2Proof/Machine/Unpacker.lean ====
section
/-! DEFINITION. The bit unpacker: GETB, ALIGN, DECODE (44_bit_unpacker.md). -/

namespace Sys2Proof.Machine

/-- The body of GETB (R200). -/
def runGetb (s : State) : Run :=
  if s.ibp.toNat % 8 ≠ 0 then .raised .align s.ibp s
  else if s.ibp.toNat / 8 ≥ s.inLen.toNat then .raised .trunc s.ibp s
  else .ok (advanceIbp 8 { s with res := inByte s (s.ibp.toNat / 8) })

/-- GETB (R200). -/
def execGetb (s : State) : Host.Outcome State Fault Refusal := .next (finish (runGetb s))

/-- ALIGN (R205): IBP rounded up; no input is read. -/
def execAlign (s : State) : Host.Outcome State Fault Refusal :=
  .next (finish (.ok { s with ibp := BitVec.ofNat 32 (up8 s.ibp.toNat) }))

/-- Where the walk of one symbol ends (R210): at a leaf with the position after its code, past IN_LEN at position `p`,
or at a missing child that bit `p` leads to. -/
inductive WalkEnd where
  | symbol (x : Symbol) (p : Nat)
  | trunc (p : Nat)
  | missing (p : Nat)
  deriving DecidableEq, Repr

/-- Walk from a slot with the next input bit at `p`: left on 0, right on 1 (R210). -/
def walkBits (s : State) : Slot → Nat → WalkEnd
  | .none, p => .missing (p - 1)
  | .leaf _ x, p => .symbol x p
  | .internal _ l r, p =>
    match inBit s p with
    | none => .trunc p
    | some false => walkBits s l (p + 1)
    | some true => walkBits s r (p + 1)

/-- One whole symbol of DECODE: its byte written, OBP, IBP and CNT moved on (R210). -/
def decodeOne (x : Symbol) (p : Nat) (s : State) : State :=
  let t := advanceObp 8 (writeOut (s.obp.toNat / 8) x s)
  { t with ibp := BitVec.ofNat 32 p, cnt := t.cnt + 1 }

/-- The loop of DECODE, `n` symbols to go (R210). -/
def decodeLoop : Nat → State → Run
  | 0, s => .ok s
  | n + 1, s =>
    if s.obp.toNat / 8 ≥ s.cfg.outSize then .raised .outovf s.obp s
    else match s.ts with
      | .invalid => .raised .seq 0 s
      | .empty => .raised .badcode s.ibp s
      | .root t =>
        match walkBits s t s.ibp.toNat with
        | .symbol x p => decodeLoop n (decodeOne x p s)
        | .trunc p => .raised .trunc (BitVec.ofNat 32 p) s
        | .missing p => .raised .badcode (BitVec.ofNat 32 p) s

/-- The body of DECODE (R210): CNT is cleared before the checks. -/
def runDecode (s : State) : Run :=
  if !treeValid s then .raised .seq 0 (clearCnt s)
  else if s.obp.toNat % 8 ≠ 0 then .raised .align s.obp (clearCnt s)
  else decodeLoop s.arg0.toNat (clearCnt s)

/-- DECODE (R210). -/
def execDecode (s : State) : Host.Outcome State Fault Refusal := .next (finish (runDecode s))

end Sys2Proof.Machine
end

