-- ==== Sys2Proof/Machine/Dispatch.lean ====
section
/-! DEFINITION. exec: one arm per command (40_control.md R112). -/

namespace Sys2Proof.Machine

def exec (i : Instr) (s : State) : Host.Outcome State Fault Refusal :=
  match i with
  | .nop => Sys2Proof.Machine.execNop s
  | .clrfreq => Sys2Proof.Machine.execClrfreq s
  | .build => Sys2Proof.Machine.execBuild s
  | .derive => Sys2Proof.Machine.execDerive s
  | .clrcode => Sys2Proof.Machine.execClrcode s
  | .ldcode sym len => Sys2Proof.Machine.execLdcode sym len s
  | .rebuild => Sys2Proof.Machine.execRebuild s
  | .putb byte => Sys2Proof.Machine.execPutb byte s
  | .putcode sym => Sys2Proof.Machine.execPutcode sym s
  | .flush => Sys2Proof.Machine.execFlush s
  | .encode => Sys2Proof.Machine.execEncode s
  | .getb => Sys2Proof.Machine.execGetb s
  | .align => Sys2Proof.Machine.execAlign s
  | .decode => Sys2Proof.Machine.execDecode s

end Sys2Proof.Machine
end

