-- ==== Sys2Proof/Machine/Step.lean ====
section
/-! DEFINITION. One step of the machine: one host action or one whole command. -/

namespace Sys2Proof.Machine

/-- The engine's turn: `Execute(CMDW)` (40_control.md R112), with the free values' index moved on. -/
def engineTurn (s : State) : Host.Outcome State Fault Refusal :=
  match decode (fetch s) with
  | .error _ => .next (tick (runIllegal s))
  | .ok i =>
    match exec i s with
    | .next t => .next (tick t)
    | .fault r => .fault r
    | .refused r => .refused r

/-- One step. Parameters that R6 does not allow are refused (U7). An idle block with no host action keeps its state
(60_exceptions.md R240). -/
def step (s : State) : Host.Outcome State Fault Refusal :=
  if s.cfg.legal then
    match nextTurn s with
    | .engine => engineTurn s
    | .host a rest => .next (tick (hostTurn a rest s))
    | .idle => .next s
  else .refused .illegalParameters

/-- `s` with the command word accepted (40_control.md R111) and no host action before its execution, so that the very
next step runs it (log 1). -/
def State.withFetchWord (s : State) (nbits w : Nat) : State :=
  { accept (BitVec.ofNat 32 (w % 2 ^ nbits)) s with pending := [] }

end Sys2Proof.Machine
end

