-- ==== Sys2Proof/Safety.lean ====
section
/-! DEFINITION. What the spec promises of every state between steps: the terms the claims use. -/

namespace Sys2Proof.Machine

/-! ## Trees -/

/-- The symbols of the leaves below a slot, left to right. -/
def leafSyms : Slot → List Symbol
  | .none => []
  | .leaf _ x => [x]
  | .internal _ l r => leafSyms l ++ leafSyms r

/-- The greatest number of steps from a node down to a slot below it. -/
def slotDepth : Slot → Nat
  | .none => 0
  | .leaf _ _ => 0
  | .internal _ l r => max (slotDepth l) (slotDepth r) + 1

/-- Every internal node has a node in at least one child slot. -/
def slotLive : Slot → Bool
  | .none => true
  | .leaf _ _ => true
  | .internal _ l r => (decide (l ≠ .none) || decide (r ≠ .none)) && slotLive l && slotLive r

/-- The slot a bit-string leads to: left on 0, right on 1 (44_bit_unpacker.md R210); nothing stands below a leaf or a
missing node. -/
def followPath : Slot → List Bool → Slot
  | n, [] => n
  | .none, _ :: _ => .none
  | .leaf _ _, _ :: _ => .none
  | .internal _ l r, b :: c => if b then followPath r c else followPath l c
termination_by structural _ c => c

/-- A tree the commands can make (10_state.md R34): its root is a node, its leaves carry distinct symbols, and no path is
longer than 255. -/
def treeOk : TreeState → Prop
  | .invalid => True
  | .empty => True
  | .root n => n ≠ .none ∧ slotLive n = true ∧ (leafSyms n).Nodup ∧ slotDepth n ≤ 255

/-- The sum of all FREQ entries (10_state.md R36). -/
def freqSum (s : State) : Nat := (allSymbols.map (fun x => (freqOf s x).toNat)).sum

/-- The number of internal nodes below a slot. -/
def internalCount : Slot → Nat
  | .none => 0
  | .leaf _ _ => 0
  | .internal _ l r => internalCount l + internalCount r + 1

/-- No child slot is `none`. -/
def slotFull : Slot → Bool
  | .none => false
  | .leaf _ _ => true
  | .internal _ l r => slotFull l && slotFull r

/-- Every weight is the sum of the FREQ entries of the leaves below it (41_tree_builder.md R134). -/
def weightsAreSums (s : State) : Slot → Prop
  | .none => True
  | .leaf w x => w.toNat = (freqOf s x).toNat
  | .internal w l r =>
    w.toNat = ((leafSyms l ++ leafSyms r).map (fun x => (freqOf s x).toNat)).sum
      ∧ weightsAreSums s l ∧ weightsAreSums s r

/-! ## Streams -/

/-- Bit `j` of OUT in stream order: bit `7 - j mod 8` of byte `j div 8` (20_memory.md R64). -/
def outBit (s : State) (j : Nat) : Bool := (outByte s (j / 8)).getLsbD (7 - j % 8)

/-- What bit `j` of OUT must be after the bits `c` are appended at position `p` of `s` (R71, R72;
70_reset_and_hazards.md R263): an appended bit; else 0 in a byte whose first bit was appended; else as before. -/
def appendedBit (s : State) (p : Nat) (c : List Bool) (j : Nat) : Bool :=
  if p ≤ j ∧ j < p + c.length then c.getD (j - p) false
  else if p ≤ 8 * (j / 8) ∧ 8 * (j / 8) < p + c.length then false
  else outBit s j

/-- OUT of `t` is OUT of `s` with the bits `c` appended at `p`, and every byte no appended bit lies in reads as before. -/
def appended (s t : State) (p : Nat) (c : List Bool) : Prop :=
  (∀ j, outBit t j = appendedBit s p c j)
    ∧ ∀ a, (∀ i, i < c.length → (p + i) / 8 ≠ a) → outByte t a = outByte s a

/-- Bit `j` of IN in stream order (R64, R70). -/
def inStreamBit (s : State) (j : Nat) : Bool := (inByte s (j / 8)).getLsbD (7 - j % 8)

/-- The IN bits of `s` from position `p` on are `c`, each inside IN_LEN. -/
def inputBits (s : State) (p : Nat) (c : List Bool) : Prop :=
  ∀ i, i < c.length → (p + i) / 8 < s.inLen.toNat ∧ inStreamBit s (p + i) = c.getD i false

/-- Byte `k` of ENCODE's input (43_bit_packer.md R190). -/
def inputAt (s : State) (k : Nat) : Symbol := inByte s (s.ibp.toNat / 8 + k)

/-- The codes of the first `n` input bytes, concatenated (R190, R191). -/
def payload (s : State) : Nat → List Bool
  | 0 => []
  | n + 1 => payload s n ++ codeBits (codeOf s (inputAt s n))

/-- The conditions under which ENCODE of `n` bytes completes without error (R190): an aligned IBP, `n` bytes inside
IN_LEN, a code for each, and room in OUT. -/
def encodable (s : State) (n : Nat) : Prop :=
  s.ibp.toNat % 8 = 0
    ∧ (∀ k, k < n → s.ibp.toNat / 8 + k < s.inLen.toNat ∧ (codeOf s (inputAt s k)).present = true)
    ∧ s.obp.toNat + (payload s n).length ≤ 8 * s.cfg.outSize

/-! ## Invariants -/

/-- A Code Table entry keeps `CW < 2^CL`, and an absent one holds zeros (10_state.md R31). -/
def entryOk (e : CodeEntry) : Prop :=
  e.cw.toNat < 2 ^ e.cl.toNat ∧ (e.present = false → e.cl = 0 ∧ e.cw = 0)

/-- The buffers are in canonical form and list only bytes of the buffer (R42, R43). -/
def memoryOk (s : State) : Prop :=
  Memory.wf s.inBuf ∧ Memory.wf s.outBuf
    ∧ (∀ c ∈ s.inBuf, c.1 < s.cfg.inSize) ∧ (∀ c ∈ s.outBuf, c.1 < s.cfg.outSize)

/-- IN_LEN, IBP and OBP within their bounds (R39–R41; 20_memory.md R66). -/
def pointersOk (s : State) : Prop :=
  s.inLen.toNat ≤ s.cfg.inSize ∧ s.ibp.toNat ≤ 8 * s.cfg.inSize ∧ s.obp.toNat ≤ 8 * s.cfg.outSize

/-- Every entry of the Code Table is one R31 allows. -/
def codesOk (s : State) : Prop := ∀ x : Symbol, entryOk (codeOf s x)

/-- The tree is one R34 allows, and TOTAL is its root's weight (R36). -/
def treeStateOk (s : State) : Prop := treeOk s.ts ∧ s.total = treeWeight s.ts

/-- The error record and the busy bit agree (R26, R38; 40_control.md R111, R114): ERR = 1 exactly when ERRCODE is an
error, ERRINFO is 0 without an error, and while a command runs DONE and ERR are 0. -/
def recordOk (s : State) : Prop :=
  (s.err = true ↔ s.errcode ≠ .none) ∧ (s.err = false → s.errinfo = 0)
    ∧ (s.busy = true → s.done = false ∧ s.err = false)

/-- What holds of every state a run with legal parameters reaches. -/
def State.Inv (s : State) : Prop :=
  s.cfg.legal = true ∧ memoryOk s ∧ pointersOk s ∧ codesOk s ∧ treeStateOk s ∧ recordOk s

end Sys2Proof.Machine
end

