-- ==== Sys2Proof/Certificates/Slice0/Obligations.lean ====
section
/-! DEFINITION. The statements for the provers, and the terms they are stated in. -/

open Sys2Proof Sys2Proof.Machine

namespace Sys2Proof.Claims

/-- The state after a command that ended with error `e` and information `info`, having written what `s` holds
(40_control.md R113, R114). -/
def failed (e : ErrorCode) (info : Word) (s : State) : State :=
  { s with err := true, errcode := e, errinfo := info, busy := false, done := true }

/-- The answer to a performed host write. -/
def writeAnswer : BusResponse := { data := none, busError := false, hostFault := false }

/-- Every word with this opcode, and a nonzero bit outside the opcode and the fields under `mask`, is rejected. -/
def illegalOutside (op : BitVec 8) (mask : Word) : Prop :=
  ∀ w : Word, fieldOP w = op → w &&& ~~~(mask ||| 0xFF#32) ≠ 0 → ∃ r, decode w = .error r

/-- A host event that lands now: BUSY = 0, or the host does not wait for it (log 2). -/
def landsNow (s : State) (e : HostEvent) : Prop := s.busy = false ∨ e.waits = false

/-- The engine has the next turn: a command is accepted and the host's next action, if any, waits (log 2). -/
def engineNext (s : State) : Prop :=
  s.busy = true ∧ ∀ e rest, s.pending = e :: rest → e.waits = true

/-- The reserved offsets of the window (20_memory.md R60). -/
def reservedOffset (c : Params) (off : Nat) : Prop :=
  (0x68 ≤ off ∧ off < 0x400) ∨ (0x800 ≤ off ∧ off < 0x10000)
    ∨ (0x10000 + c.inSize ≤ off ∧ off < 0x20000) ∨ (0x20000 + c.outSize ≤ off ∧ off < 0x30000)

/-- An access R61 does not perform. -/
def notPerformed (c : Params) (off bits : Nat) : Prop := bits ≠ 32 ∨ off % 4 ≠ 0 ∨ reservedOffset c off

/-- The registers R23 marks RO. -/
def readOnly (r : Reg) : Prop :=
  r ∈ [Reg.id, .res, .cnt, .errinfo, .nleaf, .ncode, .totalLo, .totalHi, .maxlen, .codeInfo]
    ∨ ∃ k, r = .codeWord k

/-- Which commands may write each piece of state, as the rules of the commands say. -/
def writesFreq : Instr → Bool
  | .clrfreq => true
  | _ => false
def writesRes : Instr → Bool
  | .getb => true
  | _ => false
def writesCnt : Instr → Bool
  | .encode => true
  | .decode => true
  | _ => false
def writesCodes : Instr → Bool
  | .build => true
  | .derive => true
  | .clrcode => true
  | .ldcode _ _ => true
  | _ => false
def writesTree : Instr → Bool
  | .build => true
  | .clrcode => true
  | .ldcode _ _ => true
  | .rebuild => true
  | _ => false
def writesIbp : Instr → Bool
  | .ldcode _ _ => true
  | .getb => true
  | .align => true
  | .encode => true
  | .decode => true
  | _ => false
def writesObp : Instr → Bool
  | .putb _ => true
  | .putcode _ => true
  | .flush => true
  | .encode => true
  | .decode => true
  | _ => false
def writesOut : Instr → Bool
  | .putb _ => true
  | .putcode _ => true
  | .encode => true
  | .decode => true
  | _ => false
def mayFail : Instr → Bool
  | .derive => true
  | .ldcode _ _ => true
  | .rebuild => true
  | .putb _ => true
  | .putcode _ => true
  | .encode => true
  | .getb => true
  | .decode => true
  | _ => false

/-- Take the first element of least weight out of a list of nodes in insertion order (41_tree_builder.md R131: the
smaller weight first, and between equal weights the one inserted first). -/
def takeLightest : List Slot → Option (Slot × List Slot)
  | [] => none
  | x :: q =>
    match takeLightest q with
    | none => some (x, [])
    | some (y, r) => if (slotWeight x).toNat ≤ (slotWeight y).toNat then some (x, q) else some (y, x :: r)

/-- Merge the two lightest nodes, at most `fuel` times: first removed left, second removed right, weights added, the
new node inserted last (R130, R132). -/
def greedyMerge : (fuel : Nat) → List Slot → List Slot
  | 0, q => q
  | fuel + 1, q =>
    match takeLightest q with
    | none => q
    | some (x, q') =>
      match takeLightest q' with
      | none => q
      | some (y, r) => greedyMerge fuel (r ++ [.internal (slotWeight x + slotWeight y) x y])

/-- The leaves of the present symbols in ascending byte value (R130). -/
def presentLeaves (s : State) : List Slot :=
  (allSymbols.filter (fun x => freqOf s x ≠ 0)).map (fun x => .leaf ((freqOf s x).setWidth 40) x)

/-- The tree of R130 to R132, from an unordered bag instead of the model's ordered queue. -/
def greedyTree (s : State) : TreeState :=
  match greedyMerge 256 (presentLeaves s) with
  | [] => .empty
  | n :: _ => .root n

/-- Two different present symbols up to `x`, one's code a prefix of the other's, equal codes and the empty code counted
(42_code_table.md R171). -/
def conflictUpTo (s : State) (x : Symbol) : Prop :=
  ∃ a b : Symbol, a.toNat ≤ x.toNat ∧ b.toNat ≤ x.toNat ∧ a ≠ b ∧ (codeOf s a).present = true
    ∧ (codeOf s b).present = true ∧ codeBits (codeOf s a) <+: codeBits (codeOf s b)

/-- The leaves of the tree `n` are exactly the present symbols, each at the path of its code. -/
def leavesAreCodes (s : State) (n : Slot) : Prop :=
  ∀ c x, (∃ w, followPath n c = .leaf w x) ↔ ((codeOf s x).present = true ∧ codeBits (codeOf s x) = c)

/-- The symbols `ys` with the paths `cs` to their leaves in the tree `n`. -/
def pathsOf (n : Slot) (ys : List Symbol) (cs : List (List Bool)) : Prop :=
  List.Forall₂ (fun y c => ∃ w, followPath n c = .leaf w y) ys cs

/-- The weighted code length `Σ FREQ[x]·len(x)` of an assignment (41_tree_builder.md R135). -/
def weightedLength (s : State) (len : Symbol → Nat) : Nat :=
  (allSymbols.map (fun x => (freqOf s x).toNat * len x)).sum

end Sys2Proof.Claims

open Sys2Proof.Claims

/-! ## Encoding and stepping -/

/-- Words written out from 30_encoding.md R92 and R93 decode to the command they stand for, or to nothing. -/
def Obligations.SpecWordsDecodeToTheirCommands : Prop :=
  decode 0x00000000 = .ok .nop ∧ decode 0x00000001 = .ok .clrfreq ∧ decode 0x00000002 = .ok .build
    ∧ decode 0x00000003 = .ok .derive ∧ decode 0x00000004 = .ok .clrcode
    ∧ decode 0x00036205 = .ok (.ldcode 0x62 3) ∧ decode 0x00000006 = .ok .rebuild
    ∧ decode 0x0000FF07 = .ok (.putb 0xFF) ∧ decode 0x00006208 = .ok (.putcode 0x62)
    ∧ decode 0x00000009 = .ok .flush ∧ decode 0x0000000A = .ok .encode ∧ decode 0x0000000B = .ok .getb
    ∧ decode 0x0000000C = .ok .align ∧ decode 0x0000000D = .ok .decode
    ∧ decode 0x0000000E = .error .opcode ∧ decode 0x01000000 = .error .reserved
    ∧ decode 0x00000102 = .error .operandA ∧ decode 0x00010007 = .error .operandB

/-- R92: the encoder and the decoder are inverse on all commands with every operand, and a word has one meaning. -/
def Obligations.DecodeInvertsEncode : Prop :=
  (∀ i : Instr, decode (encode i) = .ok i) ∧ ∀ (w : Word) (i : Instr), decode w = .ok i → encode i = w

/-- R93: a word is rejected exactly when (a) to (d) say so; it is accepted like any other, and its execution ends at
once with ILLEGAL and ERRINFO = the word, and changes nothing else of the block (`draws` is the model's own, log 8).
-/
def Obligations.IllegalWordsCompleteWithIllegal : Prop :=
  (∀ w : Word, (∃ r, decode w = .error r) ↔
    (w.toNat % 0x100 ≥ 0x0E ∨ w.toNat / 0x1000000 ≠ 0
      ∨ (w.toNat / 0x100 % 0x100 ≠ 0 ∧ w.toNat % 0x100 ≠ 0x05 ∧ w.toNat % 0x100 ≠ 0x07 ∧ w.toNat % 0x100 ≠ 0x08)
      ∨ (w.toNat / 0x10000 % 0x100 ≠ 0 ∧ w.toNat % 0x100 ≠ 0x05)))
  ∧ (∀ (s : State) (w : Word), s.busy = false → hostWrite (.reg .cmd) w s = accept w s)
  ∧ ∀ (s : State) (r : Reject), s.cfg.legal = true → engineNext s → decode s.cmdw = .error r →
      step s = .next { failed .illegal s.cmdw s with draws := s.draws + 1 }

/-- R112: when it is the engine's turn and the command latch holds the word of command `i`, the step is exec of `i`,
with the index of the free values moved on (log 8). -/
def Obligations.StepRunsTheAcceptedCommand : Prop :=
  ∀ (s t : State) (i : Instr), s.cfg.legal = true → engineNext s → decode s.cmdw = .ok i → exec i s = .next t →
    step s = .next { t with draws := t.draws + 1 }

/-- R111: a CMD write with BUSY = 0 latches the word, clears DONE and the error record and sets BUSY, and IRQ falls;
with BUSY = 1 it is dropped and sets HAZ. -/
def Obligations.CmdWriteAcceptsOrIsDropped : Prop :=
  ∀ (s : State) (waits : Bool) (v : Word) (rest : List HostEvent), s.cfg.legal = true →
    s.pending = ⟨waits, .write (s.cfg.base + 0x00C) 32 v⟩ :: rest →
    (s.busy = false → ∃ t, step s = .next t ∧ irq t = false
      ∧ t = { s with cmdw := v, done := false, err := false, errcode := .none, errinfo := 0, busy := true,
                     pending := rest, resp := some writeAnswer, draws := s.draws + 1 })
    ∧ (s.busy = true → waits = false →
      step s = .next { s with haz := true, pending := rest, resp := some writeAnswer, draws := s.draws + 1 })

/-- R113: whenever the engine runs, its step answers a next state with BUSY = 0 and DONE = 1, on success and on error
alike; ERR and ERRCODE agree there if no error stood before. -/
def Obligations.EveryCommandRunsToCompletion : Prop :=
  ∀ s : State, s.cfg.legal = true → engineNext s →
    ∃ t, step s = .next t ∧ t.busy = false ∧ t.done = true
      ∧ (s.err = false → s.errcode = .none → (t.err = true ↔ t.errcode ≠ .none))

/-- 60_exceptions.md R240: an idle block with no host action keeps its state, and a command starts only at a 32-bit host
write of CMD. -/
def Obligations.OnlyACmdWriteStartsACommand : Prop :=
  (∀ s : State, s.cfg.legal = true → s.busy = false → s.pending = [] → step s = .next s)
  ∧ ∀ s t : State, s.busy = false → step s = .next t → t.busy = true →
      ∃ waits v rest, s.pending = ⟨waits, .write (s.cfg.base + 0x00C) 32 v⟩ :: rest ∧ t.cmdw = v

/-- Every step of a machine with legal parameters answers a next state (60_exceptions.md R226), and illegal parameters
are refused: an illegal IN_SIZE or OUT_SIZE as 93_implementation_defined.md U7 asks, an illegal BASE by the model's
choice (log 3). Legal is what 00_scope.md R6 allows. No step changes the parameters. -/
def Obligations.StepIsTotalOnLegalParameters : Prop :=
  (∀ c : Params, c.legal = true ↔ (c.base % 0x40000 = 0 ∧ (c.inSize % 4 = 0 ∧ 4 ≤ c.inSize ∧ c.inSize ≤ 65536)
    ∧ (c.outSize % 4 = 0 ∧ 4 ≤ c.outSize ∧ c.outSize ≤ 65536)))
  ∧ (∀ s : State, s.cfg.legal = true → ∃ t, step s = .next t)
  ∧ (∀ s : State, s.cfg.legal = false → step s = .refused .illegalParameters)
  ∧ ∀ s t : State, step s = .next t → t.cfg = s.cfg

/-- R110, R265: a running command ends, by completion or reset, after at most one step more than the host has actions
left. -/
def Obligations.EveryAcceptedCommandEnds : Prop :=
  ∀ s : State, s.cfg.legal = true → s.busy = true →
    ∃ k t, k ≤ s.pending.length + 1 ∧ Host.Core.run core k s = .next t ∧ t.busy = false

/-- The frame of all 14 commands: every field a command's rule does not name is unchanged; the error record of a command
that does not fail is unchanged; IN is never written, and OUT only by the packer and DECODE, between the OBP before and
the OBP after. -/
def Obligations.EachCommandWritesOnlyItsState : Prop :=
  ∀ (i : Instr) (s t : State), exec i s = .next t →
    (t.cfg = s.cfg ∧ t.ie = s.ie ∧ t.haz = s.haz ∧ t.cmdw = s.cmdw ∧ t.arg0 = s.arg0 ∧ t.inLen = s.inLen
      ∧ t.codeSel = s.codeSel ∧ t.pending = s.pending ∧ t.resp = s.resp ∧ t.draws = s.draws)
    ∧ (∀ a, inByte t a = inByte s a)
    ∧ (writesFreq i = false → t.freq = s.freq)
    ∧ (writesRes i = false → t.res = s.res)
    ∧ (writesCnt i = false → t.cnt = s.cnt)
    ∧ (writesCodes i = false → t.codes = s.codes)
    ∧ (writesTree i = false → t.ts = s.ts ∧ t.total = s.total)
    ∧ (writesIbp i = false → t.ibp = s.ibp)
    ∧ (writesObp i = false → t.obp = s.obp)
    ∧ (writesOut i = false → ∀ a, outByte t a = outByte s a)
    ∧ (s.cfg.legal = true →
        ∀ a, (a < s.obp.toNat / 8 ∨ (t.obp.toNat + 7) / 8 ≤ a) → outByte t a = outByte s a)
    ∧ (mayFail i = false → t.err = s.err ∧ t.errcode = s.errcode ∧ t.errinfo = s.errinfo)

/-! ## Control commands -/

/-- R120: NOP. -/
def Obligations.NopOnlyCompletes : Prop :=
  decode 0x00000000 = .ok .nop ∧ illegalOutside 0x00 0
  ∧ (∀ s : State, exec .nop s = .next { s with busy := false, done := true })
  ∧ (∀ s : State, ∃ t, exec .nop (accept 0 s) = .next t ∧ t.done = true ∧ t.err = false ∧ t.errcode = .none
      ∧ t.errinfo = 0)
  ∧ ∃ t, exec .nop (accept 0 State.reset) = .next t ∧ statusWord t = 0x00000002

/-- R121: CLRFREQ, and a BUILD after it gives the sentinel tree. -/
def Obligations.ClrfreqZeroesEveryEntry : Prop :=
  decode 0x00000001 = .ok .clrfreq ∧ illegalOutside 0x01 0
  ∧ ∀ s : State, ∃ t, exec .clrfreq s = .next t ∧ (∀ x, freqOf t x = 0)
      ∧ t = { s with freq := t.freq, busy := false, done := true }
      ∧ ∃ u, exec .build t = .next u ∧ u.ts = .empty

/-! ## Tree builder -/

/-- R130–R132: BUILD gives the tree of the greedy merge over an unordered bag that always takes the earliest inserted of
the lightest nodes; TOTAL is the sum of FREQ (10_state.md R36); the Code Table is cleared; nothing else changes. -/
def Obligations.BuildMakesTheGreedyTree : Prop :=
  decode 0x00000002 = .ok .build ∧ illegalOutside 0x02 0
  ∧ ∀ s : State, ∃ t, exec .build s = .next t ∧ t.ts = greedyTree s ∧ t.total.toNat = freqSum s
      ∧ (∀ x, codeOf t x = CodeEntry.absent)
      ∧ t = { s with ts := t.ts, total := t.total, codes := t.codes, busy := false, done := true }

/-- R134, an inference of the spec's own from R130 to R132: the shape of a tree BUILD makes. -/
def Obligations.BuiltTreeShape : Prop :=
  ∀ (s t : State) (n : Slot), exec .build s = .next t → t.ts = .root n →
    internalCount n + 1 = leafCount n ∧ leafCount n + internalCount n ≤ 511 ∧ slotFull n = true
      ∧ (leafSyms n).Nodup ∧ (∀ x, x ∈ leafSyms n ↔ freqOf s x ≠ 0)
      ∧ weightsAreSums s n ∧ slotDepth n + 1 ≤ leafCount n ∧ leafCount n ≤ 256

/-- R136, an inference of the spec's own: BUILD reads only FREQ. -/
def Obligations.BuildReadsOnlyFreq : Prop :=
  ∀ s s' t t' : State, s.freq = s'.freq → exec .build s = .next t → exec .build s' = .next t' →
    t.ts = t'.ts ∧ t.total = t'.total ∧ t.codes = t'.codes

/-- R131: `RemoveMin` takes the least key: the queue holds exactly the elements inserted, and its head's key is below
every other's when all seq numbers differ. -/
def Obligations.QueueHeadHasTheLeastKey : Prop :=
  ∀ items : List QueueItem, (items.map (·.seq)).Nodup →
    (items.foldl (fun q x => insertItem x q) []).Perm items
    ∧ (items.foldl (fun q x => insertItem x q) []).Pairwise (fun x y => keyLt x y = true)

/-- R135: the codes DERIVE gives from a BUILD tree have the least weighted length among all prefix codes for the present
symbols. -/
def Obligations.DerivedCodesAreOptimal : Prop :=
  ∀ (s t u : State), exec .build s = .next t → exec .derive t = .next u →
    ∀ code : Symbol → List Bool,
      (∀ x y, freqOf s x ≠ 0 → freqOf s y ≠ 0 → x ≠ y → ¬ code x <+: code y) →
      weightedLength s (fun x => (codeOf u x).cl.toNat) ≤ weightedLength s (fun x => (code x).length)

/-! ## Code table -/

/-- R150: DERIVE writes, for every leaf, the path to it, and nothing else. -/
def Obligations.DeriveWritesTheLeafPaths : Prop :=
  decode 0x00000003 = .ok .derive ∧ illegalOutside 0x03 0
  ∧ (∀ s : State, s.ts = .invalid → exec .derive s = .next (failed .seq 0 s))
  ∧ (∀ s : State, s.ts = .empty → ∃ t, exec .derive s = .next t ∧ (∀ x, codeOf t x = CodeEntry.absent)
      ∧ t = { s with codes := t.codes, busy := false, done := true })
  ∧ ∀ (s : State) (n : Slot), s.ts = .root n → treeOk s.ts → ∃ t, exec .derive s = .next t
      ∧ t = { s with codes := t.codes, busy := false, done := true }
      ∧ (∀ x, entryOk (codeOf t x)) ∧ leavesAreCodes t n

/-- R151, an inference of the spec's own: after DERIVE on a tree with at least two leaves no code is a prefix of
another, and every code is non-empty. -/
def Obligations.DerivedCodesArePrefixFree : Prop :=
  ∀ (s t : State) (n : Slot), s.ts = .root n → treeOk s.ts → 2 ≤ leafCount n → exec .derive s = .next t →
    ∀ x y, x ≠ y → (codeOf t x).present = true → (codeOf t y).present = true →
      ¬ codeBits (codeOf t x) <+: codeBits (codeOf t y) ∧ codeBits (codeOf t x) ≠ []

/-- R160: CLRCODE. -/
def Obligations.ClrcodeEmptiesTheTable : Prop :=
  decode 0x00000004 = .ok .clrcode ∧ illegalOutside 0x04 0
  ∧ ∀ s : State, ∃ t, exec .clrcode s = .next t ∧ (∀ x, codeOf t x = CodeEntry.absent)
      ∧ t = { s with codes := t.codes, ts := .invalid, total := 0, busy := false, done := true }
      ∧ ncode t = 0 ∧ maxlen t = 0 ∧ treeValid t = false

/-- R165: LDCODE, its three checks in order, and on success the `len` input bits as the code word, first bit most
significant, IBP past the entry's whole bytes, and the tree invalidated. -/
def Obligations.LdcodeLoadsOneEntry : Prop :=
  (∀ x len : BitVec 8, decode (0#8 ++ len ++ x ++ 0x05#8) = .ok (.ldcode x len)) ∧ illegalOutside 0x05 0x00FFFF00
  ∧ ∀ (x : Symbol) (len : BitVec 8) (s : State), s.cfg.legal = true → pointersOk s →
    (s.ibp.toNat % 8 ≠ 0 → exec (.ldcode x len) s = .next (failed .align s.ibp s))
    ∧ (s.ibp.toNat % 8 = 0 → (codeOf s x).present = true →
        exec (.ldcode x len) s = .next (failed .dup (x.setWidth 32) s))
    ∧ (s.ibp.toNat % 8 = 0 → (codeOf s x).present = false → len ≠ 0 →
        s.ibp.toNat / 8 + (len.toNat + 7) / 8 > s.inLen.toNat →
        exec (.ldcode x len) s = .next (failed .trunc s.ibp s))
    ∧ (s.ibp.toNat % 8 = 0 → (codeOf s x).present = false →
        (len = 0 ∨ s.ibp.toNat / 8 + (len.toNat + 7) / 8 ≤ s.inLen.toNat) →
        ∃ t, exec (.ldcode x len) s = .next t
          ∧ t = { s with codes := t.codes, ibp := t.ibp, ts := .invalid, total := 0, busy := false, done := true }
          ∧ t.ibp.toNat = s.ibp.toNat + 8 * ((len.toNat + 7) / 8)
          ∧ (∀ y, y ≠ x → codeOf t y = codeOf s y)
          ∧ (codeOf t x).present = true ∧ (codeOf t x).cl = len ∧ entryOk (codeOf t x)
          ∧ ∀ i, i < len.toNat →
              (codeOf t x).cw.getLsbD (len.toNat - 1 - i) = inStreamBit s (s.ibp.toNat + i))

/-- R170 and R171, an inference of the spec's own: REBUILD raises PREFIX exactly on a conflict among the present
codes, with the least symbol up to which there is one as ERRINFO; else the trie's leaves are exactly the present
symbols, each at the path of its code. -/
def Obligations.RebuildFailsExactlyOnPrefixConflicts : Prop :=
  (∀ (s : State) (x : Symbol), conflictUpTo s x → (∀ y : Symbol, y.toNat < x.toNat → ¬ conflictUpTo s y) →
    exec .rebuild s = .next (failed .prefixClash (x.setWidth 32) { s with ts := .invalid, total := 0 }))
  ∧ ∀ s : State, ¬ conflictUpTo s 0xFF → ∃ t, exec .rebuild s = .next t
      ∧ t = { s with ts := t.ts, total := 0, busy := false, done := true }
      ∧ ((∀ x, (codeOf s x).present = false) → t.ts = .empty)
      ∧ ((∃ x, (codeOf s x).present = true) → ∃ n, t.ts = .root n ∧ treeOk t.ts ∧ leavesAreCodes s n)

/-- R152, an inference of the spec's own: DERIVE after a successful REBUILD gives back the Code Table that REBUILD
read. -/
def Obligations.DeriveInvertsRebuild : Prop :=
  ∀ s t u : State, codesOk s → s.err = false → exec .rebuild s = .next t → t.err = false →
    exec .derive t = .next u → u.codes = s.codes

/-! ## Bit packer -/

/-- R180: PUTB. -/
def Obligations.PutbAppendsOneByte : Prop :=
  (∀ b : Byte, decode (0#16 ++ b ++ 0x07#8) = .ok (.putb b)) ∧ illegalOutside 0x07 0x0000FF00
  ∧ ∀ (b : Byte) (s : State), s.cfg.legal = true →
    (s.obp.toNat % 8 ≠ 0 → exec (.putb b) s = .next (failed .align s.obp s))
    ∧ (s.obp.toNat % 8 = 0 → s.obp.toNat / 8 ≥ s.cfg.outSize →
        exec (.putb b) s = .next (failed .outovf s.obp s))
    ∧ (s.obp.toNat % 8 = 0 → s.obp.toNat / 8 < s.cfg.outSize → ∃ t, exec (.putb b) s = .next t
        ∧ t = { s with obp := t.obp, outBuf := t.outBuf, busy := false, done := true }
        ∧ t.obp.toNat = s.obp.toNat + 8 ∧ outByte t (s.obp.toNat / 8) = b
        ∧ ∀ a, a ≠ s.obp.toNat / 8 → outByte t a = outByte s a)

/-- R184 with R71–R73 and R263: PUTCODE appends the code, first bit most significant, whole or not at all. -/
def Obligations.PutcodeAppendsTheCode : Prop :=
  (∀ x : Symbol, decode (0#16 ++ x ++ 0x08#8) = .ok (.putcode x)) ∧ illegalOutside 0x08 0x0000FF00
  ∧ ∀ (x : Symbol) (s : State), s.cfg.legal = true →
    ((codeOf s x).present = false → exec (.putcode x) s = .next (failed .nocode (x.setWidth 32) s))
    ∧ ((codeOf s x).present = true → (codeOf s x).cl ≠ 0 →
        (s.obp.toNat + (codeOf s x).cl.toNat - 1) / 8 ≥ s.cfg.outSize →
        exec (.putcode x) s = .next (failed .outovf s.obp s))
    ∧ ((codeOf s x).present = true →
        ((codeOf s x).cl = 0 ∨ (s.obp.toNat + (codeOf s x).cl.toNat - 1) / 8 < s.cfg.outSize) →
        ∃ t c, exec (.putcode x) s = .next t
          ∧ t = { s with obp := t.obp, outBuf := t.outBuf, busy := false, done := true }
          ∧ t.obp.toNat = s.obp.toNat + (codeOf s x).cl.toNat
          ∧ c.length = (codeOf s x).cl.toNat
          ∧ (∀ i, i < c.length → c.getD i false = (codeOf s x).cw.getLsbD (c.length - 1 - i))
          ∧ appended s t s.obp.toNat c)

/-- R187: FLUSH. -/
def Obligations.FlushRoundsObpUp : Prop :=
  decode 0x00000009 = .ok .flush ∧ illegalOutside 0x09 0
  ∧ ∀ s : State, s.cfg.legal = true → s.obp.toNat ≤ 8 * s.cfg.outSize → ∃ t, exec .flush s = .next t
      ∧ t = { s with obp := t.obp, busy := false, done := true }
      ∧ t.obp.toNat = 8 * ((s.obp.toNat + 7) / 8) ∧ t.obp.toNat ≤ 8 * s.cfg.outSize
      ∧ (s.obp.toNat % 8 = 0 → t.obp = s.obp)

/-- R190: ENCODE of ARG0 bytes that are all inside IN_LEN, have codes and fit completes with their codes appended in
order; OUT changes nowhere else. -/
def Obligations.EncodeAppendsEveryCode : Prop :=
  ∀ s : State, s.cfg.legal = true → pointersOk s → encodable s s.arg0.toNat →
    ∃ t, exec .encode s = .next t
      ∧ t = { s with ibp := t.ibp, obp := t.obp, cnt := s.arg0, outBuf := t.outBuf, busy := false, done := true }
      ∧ t.ibp.toNat = s.ibp.toNat + 8 * s.arg0.toNat
      ∧ t.obp.toNat = s.obp.toNat + (payload s s.arg0.toNat).length
      ∧ appended s t s.obp.toNat (payload s s.arg0.toNat)

/-- R190, 70_reset_and_hazards.md R264: ENCODE that fails at byte `k` ends in the state ENCODE of `k` bytes ends in,
with the error of the first failing check, in the order TRUNC, NOCODE, OUTOVF; an unaligned IBP is ALIGN with CNT = 0
(log 10). -/
def Obligations.EncodeErrorsKeepTheSymbolsBefore : Prop :=
  (∀ s : State, s.ibp.toNat % 8 ≠ 0 → exec .encode s = .next (failed .align s.ibp { s with cnt := 0 }))
  ∧ ∀ (s t : State) (k : Nat), s.cfg.legal = true → pointersOk s → k < s.arg0.toNat → encodable s k →
    exec .encode { s with arg0 := BitVec.ofNat 32 k } = .next t →
    (s.ibp.toNat / 8 + k ≥ s.inLen.toNat →
      exec .encode s = .next (failed .trunc t.ibp { t with arg0 := s.arg0 }))
    ∧ (s.ibp.toNat / 8 + k < s.inLen.toNat → (codeOf s (inputAt s k)).present = false →
      exec .encode s = .next (failed .nocode ((inputAt s k).setWidth 32) { t with arg0 := s.arg0 }))
    ∧ (s.ibp.toNat / 8 + k < s.inLen.toNat → (codeOf s (inputAt s k)).present = true →
      (codeOf s (inputAt s k)).cl ≠ 0 → t.obp.toNat + (codeOf s (inputAt s k)).cl.toNat > 8 * s.cfg.outSize →
      exec .encode s = .next (failed .outovf t.obp { t with arg0 := s.arg0 }))

/-- R191, an inference of the spec's own: from an aligned OBP, ENCODE or PUTCODE and then FLUSH occupy `cdiv8` of
their bits in bytes: the code bits in order, then zero pad bits. -/
def Obligations.FlushedPayloadIsZeroPadded : Prop :=
  (∀ s t u : State, s.cfg.legal = true → pointersOk s → s.obp.toNat % 8 = 0 → encodable s s.arg0.toNat →
    exec .encode s = .next t → exec .flush t = .next u →
    u.obp.toNat = s.obp.toNat + 8 * (((payload s s.arg0.toNat).length + 7) / 8)
    ∧ ∀ j, j < 8 * (((payload s s.arg0.toNat).length + 7) / 8) →
        outBit u (s.obp.toNat + j) = (payload s s.arg0.toNat).getD j false)
  ∧ ∀ (s t u : State) (x : Symbol), s.cfg.legal = true → pointersOk s → s.obp.toNat % 8 = 0 →
    (codeOf s x).present = true → s.obp.toNat + (codeOf s x).cl.toNat ≤ 8 * s.cfg.outSize →
    exec (.putcode x) s = .next t → exec .flush t = .next u →
    u.obp.toNat = s.obp.toNat + 8 * (((codeOf s x).cl.toNat + 7) / 8)
    ∧ ∀ j, j < 8 * (((codeOf s x).cl.toNat + 7) / 8) →
        outBit u (s.obp.toNat + j) = (codeBits (codeOf s x)).getD j false

/-! ## Bit unpacker -/

/-- R200: GETB. -/
def Obligations.GetbReadsOneByte : Prop :=
  decode 0x0000000B = .ok .getb ∧ illegalOutside 0x0B 0
  ∧ ∀ s : State, s.cfg.legal = true → pointersOk s →
    (s.ibp.toNat % 8 ≠ 0 → exec .getb s = .next (failed .align s.ibp s))
    ∧ (s.ibp.toNat % 8 = 0 → s.ibp.toNat / 8 ≥ s.inLen.toNat → exec .getb s = .next (failed .trunc s.ibp s))
    ∧ (s.ibp.toNat % 8 = 0 → s.ibp.toNat / 8 < s.inLen.toNat → ∃ t, exec .getb s = .next t
        ∧ t = { s with res := inByte s (s.ibp.toNat / 8), ibp := t.ibp, busy := false, done := true }
        ∧ t.ibp.toNat = s.ibp.toNat + 8)

/-- R205: ALIGN. -/
def Obligations.AlignRoundsIbpUp : Prop :=
  decode 0x0000000C = .ok .align ∧ illegalOutside 0x0C 0
  ∧ ∀ s : State, s.cfg.legal = true → s.ibp.toNat ≤ 8 * s.cfg.inSize → ∃ t, exec .align s = .next t
      ∧ t = { s with ibp := t.ibp, busy := false, done := true }
      ∧ t.ibp.toNat = 8 * ((s.ibp.toNat + 7) / 8) ∧ t.ibp.toNat ≤ 8 * s.cfg.inSize
      ∧ (s.ibp.toNat % 8 = 0 → t.ibp = s.ibp)

/-- R210, R211: DECODE of ARG0 symbols whose paths stand in the input completes with the symbols in OUT, IBP just
after the last code bit, and OUT changed nowhere else. ARG0 = 0 and the one-leaf tree, whose path is empty, are
covered. -/
def Obligations.DecodeWalksTheTree : Prop :=
  ∀ (s : State) (n : Slot) (ys : List Symbol) (cs : List (List Bool)), s.cfg.legal = true → pointersOk s →
    s.ts = .root n → s.obp.toNat % 8 = 0 → s.arg0.toNat = ys.length → s.obp.toNat / 8 + ys.length ≤ s.cfg.outSize →
    pathsOf n ys cs → inputBits s s.ibp.toNat cs.flatten →
    ∃ t, exec .decode s = .next t
      ∧ t = { s with ibp := t.ibp, obp := t.obp, cnt := s.arg0, outBuf := t.outBuf, busy := false, done := true }
      ∧ t.ibp.toNat = s.ibp.toNat + cs.flatten.length ∧ t.obp.toNat = s.obp.toNat + 8 * ys.length
      ∧ (∀ k, k < ys.length → outByte t (s.obp.toNat / 8 + k) = ys.getD k 0)
      ∧ ∀ a, (a < s.obp.toNat / 8 ∨ s.obp.toNat / 8 + ys.length ≤ a) → outByte t a = outByte s a

/-- R210: DECODE's checks before the first symbol, and with the empty tree. CNT is 0, also after ALIGN (log 10). -/
def Obligations.DecodeChecksBeforeTheFirstSymbol : Prop :=
  ∀ s : State,
    (s.ts = .invalid → exec .decode s = .next (failed .seq 0 { s with cnt := 0 }))
    ∧ (s.ts ≠ .invalid → s.obp.toNat % 8 ≠ 0 → exec .decode s = .next (failed .align s.obp { s with cnt := 0 }))
    ∧ (s.ts ≠ .invalid → s.obp.toNat % 8 = 0 → s.arg0 = 0 →
        exec .decode s = .next { s with cnt := 0, busy := false, done := true })
    ∧ (s.ts = .empty → s.obp.toNat % 8 = 0 → s.arg0 ≠ 0 → s.obp.toNat / 8 ≥ s.cfg.outSize →
        exec .decode s = .next (failed .outovf s.obp { s with cnt := 0 }))
    ∧ (s.ts = .empty → s.obp.toNat % 8 = 0 → s.arg0 ≠ 0 → s.obp.toNat / 8 < s.cfg.outSize →
        exec .decode s = .next (failed .badcode s.ibp { s with cnt := 0 }))

/-- R210, 70_reset_and_hazards.md R264: DECODE that fails at symbol `k` ends in the state DECODE of `k` symbols ends in,
with OUTOVF; TRUNC at the first bit past IN_LEN; or BADCODE at the bit that leads to a missing child. -/
def Obligations.DecodeErrorsKeepTheSymbolsBefore : Prop :=
  ∀ (s t : State) (n : Slot) (ys : List Symbol) (cs : List (List Bool)), s.cfg.legal = true → pointersOk s →
    s.ts = .root n → s.obp.toNat % 8 = 0 → ys.length < s.arg0.toNat → s.obp.toNat / 8 + ys.length ≤ s.cfg.outSize →
    pathsOf n ys cs → inputBits s s.ibp.toNat cs.flatten →
    exec .decode { s with arg0 := BitVec.ofNat 32 ys.length } = .next t →
    (t.obp.toNat / 8 ≥ s.cfg.outSize → exec .decode s = .next (failed .outovf t.obp { t with arg0 := s.arg0 }))
    ∧ (t.obp.toNat / 8 < s.cfg.outSize → ∀ c w l r, followPath n c = .internal w l r → inputBits s t.ibp.toNat c →
        (t.ibp.toNat + c.length) / 8 ≥ s.inLen.toNat →
        exec .decode s
          = .next (failed .trunc (BitVec.ofNat 32 (t.ibp.toNat + c.length)) { t with arg0 := s.arg0 }))
    ∧ (t.obp.toNat / 8 < s.cfg.outSize → ∀ c b w l r, followPath n c = .internal w l r →
        followPath n (c ++ [b]) = .none → inputBits s t.ibp.toNat (c ++ [b]) →
        exec .decode s
          = .next (failed .badcode (BitVec.ofNat 32 (t.ibp.toNat + c.length)) { t with arg0 := s.arg0 }))

/-- R212, an inference of the spec's own, for the payload: what ENCODE of a block writes with the codes of BUILD and
DERIVE, DECODE of another block reads back as the same bytes after REBUILD of the same Code Table. -/
def Obligations.DecodeInvertsEncodeOfThePayload : Prop :=
  ∀ s s₁ s₂ s₃ d d₁ : State, s.cfg.legal = true → pointersOk s →
    exec .build s = .next s₁ → exec .derive s₁ = .next s₂ → encodable s₂ s.arg0.toNat → exec .encode s₂ = .next s₃ →
    d.cfg.legal = true → pointersOk d → d.codes = s₂.codes → d.arg0 = s.arg0 → d.err = false →
    d.obp.toNat % 8 = 0 → d.obp.toNat / 8 + s.arg0.toNat ≤ d.cfg.outSize →
    (∀ j, j < (payload s₂ s.arg0.toNat).length → (d.ibp.toNat + j) / 8 < d.inLen.toNat
      ∧ inStreamBit d (d.ibp.toNat + j) = outBit s₃ (s.obp.toNat + j)) →
    exec .rebuild d = .next d₁ →
    ∃ d₂, exec .decode d₁ = .next d₂ ∧ d₂.err = false ∧ d₂.cnt = s.arg0
      ∧ d₂.ibp.toNat = d.ibp.toNat + (payload s₂ s.arg0.toNat).length
      ∧ ∀ k, k < s.arg0.toNat → outByte d₂ (d.obp.toNat / 8 + k) = inputAt s k

/-! ## Errors, interrupt and registers -/

/-- 60_exceptions.md R227: the error record stays, on a block that runs no command, until a command is accepted or a
reset clears it; a host write of 1 to STATUS.DONE lowers IRQ and leaves the record. -/
def Obligations.ErrorRecordStaysUntilAcceptanceOrReset : Prop :=
  (∀ s t : State, s.busy = false → step s = .next t →
    (t.err = s.err ∧ t.errcode = s.errcode ∧ t.errinfo = s.errinfo)
    ∨ ∃ waits a rest, s.pending = ⟨waits, a⟩ :: rest ∧
      (a = .hardReset ∨ (∃ v, a = .write (s.cfg.base + 0x00C) 32 v)
        ∨ ∃ v, a = .write (s.cfg.base + 0x004) 32 v ∧ v.getLsbD 0 = true))
  ∧ ∀ (s : State) (v : Word), v.getLsbD 1 = true → ∃ t, hostWrite (.reg .status) v s = t ∧ t.done = false ∧ irq t = false
      ∧ t.err = s.err ∧ t.errcode = s.errcode ∧ t.errinfo = s.errinfo

/-- 70_reset_and_hazards.md R262: the state a command order leaves makes the commands out of order raise. -/
def Obligations.CommandsOutOfOrderRaise : Prop :=
  (∀ s t : State, exec .build s = .next t →
    (∀ x, exec (.putcode x) t = .next (failed .nocode (x.setWidth 32) t))
    ∧ (t.arg0 ≠ 0 → t.ibp.toNat % 8 = 0 → t.ibp.toNat / 8 < t.inLen.toNat →
        exec .encode t = .next (failed .nocode ((inByte t (t.ibp.toNat / 8)).setWidth 32) { t with cnt := 0 })))
  ∧ (∀ (x : Symbol) (len : BitVec 8) (s t : State), s.err = false → exec (.ldcode x len) s = .next t → t.err = false →
    exec .decode t = .next (failed .seq 0 { t with cnt := 0 }) ∧ exec .derive t = .next (failed .seq 0 t)
    ∧ (t.ibp.toNat % 8 = 0 → ∀ l, exec (.ldcode x l) t = .next (failed .dup (x.setWidth 32) t)))

/-- R230, 10_state.md R45: the level of IRQ and its life cycle. -/
def Obligations.IrqFollowsEnableAndDone : Prop :=
  (∀ s : State, irq s = true ↔ s.ie = true ∧ s.done = true)
  ∧ (∀ s t : State, s.cfg.legal = true → engineNext s → step s = .next t → irq t = s.ie ∧ t.done = true)
  ∧ (∀ (s : State) (v : Word), s.busy = false → irq (hostWrite (.reg .cmd) v s) = false)
  ∧ (∀ (s : State) (v : Word), v.getLsbD 1 = true → irq (hostWrite (.reg .status) v s) = false)
  ∧ (∀ (s : State) (v : Word), v.getLsbD 0 = false → irq (hostWrite (.reg .ctrl) v s) = (v.getLsbD 1 && s.done))
  ∧ (∀ (s : State) (v : Word), v.getLsbD 0 = true → irq (hostWrite (.reg .ctrl) v s) = false)
  ∧ ∀ s : State, irq (hardReset s) = false

/-- 10_state.md R26 with R220: the fields of STATUS with the ten error codes, which the host reads at all times, and a host write acts on DONE and
HAZ only, by W1C, whatever BUSY is. -/
def Obligations.StatusFieldsAndWriteOneToClear : Prop :=
  (∀ s : State, readValue s (.reg .status) = statusWord s
    ∧ (statusWord s).toNat = s.busy.toNat + 2 * s.done.toNat + 4 * s.err.toNat
      + 8 * (decide (s.ts ≠ .invalid)).toNat + 16 * s.haz.toNat + 0x100 * (errorNumber s.errcode).toNat)
  ∧ (errorNumber .none = 0 ∧ errorNumber .illegal = 1 ∧ errorNumber .seq = 2 ∧ errorNumber .align = 3
    ∧ errorNumber .trunc = 4 ∧ errorNumber .outovf = 5 ∧ errorNumber .nocode = 6 ∧ errorNumber .dup = 7
    ∧ errorNumber .prefixClash = 8 ∧ errorNumber .badcode = 9)
  ∧ ∀ (s : State) (v : Word), ∃ t, hostWrite (.reg .status) v s = t ∧ t = { s with done := t.done, haz := t.haz }
      ∧ (t.done = true ↔ s.done = true ∧ v.getLsbD 1 = false) ∧ (t.haz = true ↔ s.haz = true ∧ v.getLsbD 4 = false)

/-- R25: CTRL reads IE in bit 1 and 0 elsewhere; a write is performed whatever BUSY is; one with SRST = 1 is a soft
reset and leaves IE = 0 whatever bit 1 of it is. -/
def Obligations.CtrlHoldsOnlyTheEnable : Prop :=
  (∀ s : State, readValue s (.reg .ctrl) = if s.ie then 0x00000002 else 0x00000000)
  ∧ (∀ (s : State) (v : Word), v.getLsbD 0 = false → hostWrite (.reg .ctrl) v s = { s with ie := v.getLsbD 1 })
  ∧ (∀ (s : State) (v : Word), v.getLsbD 0 = true →
      hostWrite (.reg .ctrl) v s = softReset s ∧ (softReset s).ie = false)
  ∧ State.reset.ie = false

/-- R23, R24, R27–R30, R36–R38, with BUSY = 0: ARG0 and FREQ read back what was written and a FREQ write touches one
entry, the one BUILD reads; RES reads its byte with zeros above; TOTAL_HI and TOTAL_LO together are TOTAL; CNT and ERRINFO read their fields,
ID its constant and CMD 0; a write of an RO register has no effect. -/
def Obligations.PlainRegistersReadBack : Prop :=
  (∀ (s : State) (v : Word), s.busy = false → hostWrite (.reg .arg0) v s = { s with arg0 := v }
    ∧ readValue (hostWrite (.reg .arg0) v s) (.reg .arg0) = v)
  ∧ (∀ (s : State) (x : Symbol) (v : Word), s.busy = false → ∃ t, hostWrite (.freq x) v s = t
    ∧ t = { s with freq := t.freq } ∧ readValue t (.freq x) = v
    ∧ ∀ y, y ≠ x → readValue t (.freq y) = readValue s (.freq y))
  ∧ (∀ (s : State) (x : Symbol), s.busy = false → readValue s (.freq x) = freqOf s x)
  ∧ (∀ s : State, s.busy = false → (readValue s (.reg .res)).toNat = s.res.toNat)
  ∧ (∀ s : State, s.busy = false →
      (readValue s (.reg .totalHi)).toNat * 2 ^ 32 + (readValue s (.reg .totalLo)).toNat = s.total.toNat)
  ∧ (∀ s : State, s.busy = false → readValue s (.reg .cnt) = s.cnt ∧ readValue s (.reg .errinfo) = s.errinfo
      ∧ readValue s (.reg .id) = 0x48554631 ∧ readValue s (.reg .cmd) = 0)
  ∧ ∀ (s : State) (v : Word), s.busy = false → ∀ r, readOnly r → hostWrite (.reg r) v s = s

/-- R32, R35: NCODE counts the present entries, MAXLEN is the greatest CL of a present entry or 0, NLEAF is 0 without a
root, and a tree the commands can make has 1 to 256 leaves. With BUSY = 0 the host reads these numbers. -/
def Obligations.CountRegistersCountTheTables : Prop :=
  (∀ s : State, ncode s = (Finset.univ.filter (fun k : Fin 256 => (codeOf s ⟨k⟩).present = true)).card ∧ ncode s ≤ 256)
  ∧ (∀ s : State, (∀ x, (codeOf s x).present = true → (codeOf s x).cl.toNat ≤ maxlen s)
      ∧ (maxlen s = 0 ∨ ∃ x, (codeOf s x).present = true ∧ (codeOf s x).cl.toNat = maxlen s))
  ∧ (∀ s : State, s.busy = false →
      (readValue s (.reg .ncode)).toNat = ncode s ∧ (readValue s (.reg .maxlen)).toNat = maxlen s)
  ∧ (∀ s : State, s.busy = false → (s.ts = .invalid ∨ s.ts = .empty) → readValue s (.reg .nleaf) = 0)
  ∧ ∀ (s : State) (n : Slot), s.ts = .root n → treeOk s.ts →
      nleaf s = (leafSyms n).length ∧ 1 ≤ nleaf s ∧ nleaf s ≤ 256
        ∧ (s.busy = false → (readValue s (.reg .nleaf)).toNat = (leafSyms n).length)

/-- R33: the code read-back window. -/
def Obligations.ReadBackWindowShowsTheEntry : Prop :=
  (∀ (s : State) (v : Word), s.busy = false →
    (∃ t, hostWrite (.reg .codeSel) v s = t ∧ t = { s with codeSel := t.codeSel }
      ∧ t.codeSel.toNat = v.toNat % 0x100)
    ∧ (readValue (hostWrite (.reg .codeSel) v s) (.reg .codeSel)).toNat = v.toNat % 0x100)
  ∧ (∀ (s : State) (v : Word), s.busy = true → hostWrite (.reg .codeSel) v s = { s with haz := true })
  ∧ (∀ s : State, s.busy = false → (readValue s (.reg .codeInfo)).toNat
      = 0x100 * (codeOf s s.codeSel).present.toNat + (codeOf s s.codeSel).cl.toNat)
  ∧ (∀ (s : State) (k : Fin 8), s.busy = false → ∀ j, j < 32 →
      (readValue s (.reg (.codeWord k))).getLsbD j = (codeOf s s.codeSel).cw.getLsbD (32 * k.val + j))
  ∧ ∀ s : State, s.busy = false → (readValue s (.reg (.codeWord 7))).getLsbD 31 = false

/-- R39–R41: host writes of IN_LEN, IBP and OBP while BUSY = 0 store the value clamped to its bound, and the host reads
what is stored. -/
def Obligations.PointerWritesAreClamped : Prop :=
  (∀ (s : State) (v : Word), s.cfg.legal = true → s.busy = false →
    (∃ t, hostWrite (.reg .inLen) v s = t ∧ t = { s with inLen := t.inLen }
      ∧ t.inLen.toNat = min v.toNat s.cfg.inSize)
    ∧ (∃ t, hostWrite (.reg .ibp) v s = t ∧ t = { s with ibp := t.ibp }
      ∧ t.ibp.toNat = min v.toNat (8 * s.cfg.inSize))
    ∧ ∃ t, hostWrite (.reg .obp) v s = t ∧ t = { s with obp := t.obp }
      ∧ t.obp.toNat = min v.toNat (8 * s.cfg.outSize))
  ∧ ∀ s : State, s.busy = false → readValue s (.reg .inLen) = s.inLen ∧ readValue s (.reg .ibp) = s.ibp
      ∧ readValue s (.reg .obp) = s.obp

/-! ## The bus, memory and hazards -/

/-- R60, R61 and 10_state.md R23: which accesses of the window are performed, and what stands at each offset: every
register of R23, FREQ[x] at 0x400 + 4x, the IN word at byte index i at 0x10000 + i and the OUT word at 0x20000 + i. -/
def Obligations.AddressMapIsExact : Prop :=
  (∀ (c : Params) (off bits : Nat), c.legal = true → off < 0x30000 →
    (performedAt c off bits = none ↔ notPerformed c off bits))
  ∧ ∀ c : Params, c.legal = true →
    performedAt c 0x000 32 = some (.reg .id) ∧ performedAt c 0x004 32 = some (.reg .ctrl)
    ∧ performedAt c 0x008 32 = some (.reg .status) ∧ performedAt c 0x00C 32 = some (.reg .cmd)
    ∧ performedAt c 0x010 32 = some (.reg .arg0) ∧ performedAt c 0x014 32 = some (.reg .res)
    ∧ performedAt c 0x018 32 = some (.reg .cnt) ∧ performedAt c 0x01C 32 = some (.reg .errinfo)
    ∧ performedAt c 0x020 32 = some (.reg .inLen) ∧ performedAt c 0x024 32 = some (.reg .ibp)
    ∧ performedAt c 0x028 32 = some (.reg .obp) ∧ performedAt c 0x02C 32 = some (.reg .nleaf)
    ∧ performedAt c 0x030 32 = some (.reg .ncode) ∧ performedAt c 0x034 32 = some (.reg .totalLo)
    ∧ performedAt c 0x038 32 = some (.reg .totalHi) ∧ performedAt c 0x03C 32 = some (.reg .maxlen)
    ∧ performedAt c 0x040 32 = some (.reg .codeSel) ∧ performedAt c 0x044 32 = some (.reg .codeInfo)
    ∧ (∀ k : Fin 8, performedAt c (0x048 + 4 * k.val) 32 = some (.reg (.codeWord k)))
    ∧ (∀ x : Symbol, performedAt c (0x400 + 4 * x.toNat) 32 = some (.freq x))
    ∧ (∀ i, i % 4 = 0 → i < c.inSize → performedAt c (0x10000 + i) 32 = some (.inWord i))
    ∧ ∀ i, i % 4 = 0 → i < c.outSize → performedAt c (0x20000 + i) 32 = some (.outWord i)

/-- R62: an access that R61 does not perform reads 0, changes no state of the block and sets no HAZ; the platform's
reaction is only in the response (log 11). An access outside the window changes nothing in the block and is not answered
by it (R60; log 12). -/
def Obligations.BusErrorsChangeNoState : Prop :=
  (∀ (s : State) (waits : Bool) (off bits : Nat) (v : Word) (rest : List HostEvent), s.cfg.legal = true →
    off < 0x30000 → notPerformed s.cfg off bits →
    (s.pending = ⟨waits, .read (s.cfg.base + off) bits⟩ :: rest → landsNow s ⟨waits, .read (s.cfg.base + off) bits⟩ →
      step s = .next { s with pending := rest, draws := s.draws + 1,
                              resp := some ⟨some 0, true, decide (s.cfg.busErrorAction = .fault)⟩ })
    ∧ (s.pending = ⟨waits, .write (s.cfg.base + off) bits v⟩ :: rest →
      landsNow s ⟨waits, .write (s.cfg.base + off) bits v⟩ →
      step s = .next { s with pending := rest, draws := s.draws + 1,
                              resp := some ⟨none, true, decide (s.cfg.busErrorAction = .fault)⟩ }))
  ∧ ∀ (s : State) (waits : Bool) (addr bits : Nat) (v : Word) (rest : List HostEvent) (a : HostAction),
    s.cfg.legal = true → (addr < s.cfg.base ∨ s.cfg.base + 0x30000 ≤ addr) →
    (a = .read addr bits ∨ a = .write addr bits v) → s.pending = ⟨waits, a⟩ :: rest → landsNow s ⟨waits, a⟩ →
    step s = .next { s with pending := rest, draws := s.draws + 1, resp := none }

/-- R63: a host word of IN or OUT is big-endian; a write sets its four bytes and no other, and a read returns all four,
whatever wrote them and whatever IN_LEN is. -/
def Obligations.HostWordsAreBigEndian : Prop :=
  ∀ (s : State) (i : Nat) (v : Word), s.busy = false →
    (readValue s (.inWord i)).toNat = (inByte s i).toNat * 0x1000000 + (inByte s (i + 1)).toNat * 0x10000
        + (inByte s (i + 2)).toNat * 0x100 + (inByte s (i + 3)).toNat
    ∧ (readValue s (.outWord i)).toNat = (outByte s i).toNat * 0x1000000 + (outByte s (i + 1)).toNat * 0x10000
        + (outByte s (i + 2)).toNat * 0x100 + (outByte s (i + 3)).toNat
    ∧ (∃ t, hostWrite (.inWord i) v s = t ∧ t = { s with inBuf := t.inBuf }
      ∧ (inByte t i).toNat = v.toNat / 0x1000000 ∧ (inByte t (i + 1)).toNat = v.toNat / 0x10000 % 0x100
      ∧ (inByte t (i + 2)).toNat = v.toNat / 0x100 % 0x100 ∧ (inByte t (i + 3)).toNat = v.toNat % 0x100
      ∧ (∀ a, (a < i ∨ i + 3 < a) → inByte t a = inByte s a) ∧ readValue t (.inWord i) = v)
    ∧ (∃ t, hostWrite (.outWord i) v s = t ∧ t = { s with outBuf := t.outBuf }
      ∧ (outByte t i).toNat = v.toNat / 0x1000000 ∧ (outByte t (i + 1)).toNat = v.toNat / 0x10000 % 0x100
      ∧ (outByte t (i + 2)).toNat = v.toNat / 0x100 % 0x100 ∧ (outByte t (i + 3)).toNat = v.toNat % 0x100
      ∧ (∀ a, (a < i ∨ i + 3 < a) → outByte t a = outByte s a) ∧ readValue t (.outWord i) = v)

/-- R65: a read changes nothing in the block, and a write of any location but CMD, CTRL and STATUS is idempotent. -/
def Obligations.ReadsAreSilentAndWritesIdempotent : Prop :=
  (∀ (s : State) (addr bits : Nat), ∃ r, hostAct (.read addr bits) s = { s with resp := r })
  ∧ ∀ (l : Location) (v : Word) (s : State), l ≠ .reg .cmd → l ≠ .reg .ctrl → l ≠ .reg .status →
      hostWrite l v (hostWrite l v s) = hostWrite l v s

/-- R260, R61: writes while BUSY. That a write of an RO register, which keeps its value, also sets HAZ is the model's
reading of R61 beside R260 (log 9). -/
def Obligations.WritesWhileBusyAreDropped : Prop :=
  ∀ (s : State) (v : Word), s.busy = true →
    hostWrite (.reg .cmd) v s = { s with haz := true } ∧ hostWrite (.reg .arg0) v s = { s with haz := true }
    ∧ hostWrite (.reg .inLen) v s = { s with haz := true } ∧ hostWrite (.reg .ibp) v s = { s with haz := true }
    ∧ hostWrite (.reg .obp) v s = { s with haz := true } ∧ hostWrite (.reg .codeSel) v s = { s with haz := true }
    ∧ (∀ x, hostWrite (.freq x) v s = { s with haz := true })
    ∧ (∀ i, hostWrite (.inWord i) v s = { s with haz := true })
    ∧ (∀ i, hostWrite (.outWord i) v s = { s with haz := true })
    ∧ (v.getLsbD 0 = false → hostWrite (.reg .ctrl) v s = { s with ie := v.getLsbD 1 })
    ∧ (v.getLsbD 0 = true → hostWrite (.reg .ctrl) v s = softReset s)
    ∧ hostWrite (.reg .status) v s = { s with done := s.done && !v.getLsbD 1, haz := s.haz && !v.getLsbD 4 }
    ∧ ∀ r, readOnly r → hostWrite (.reg r) v s = { s with haz := true }

/-- R261: reads while BUSY give a free value, but for ID, CTRL, STATUS and CMD. That the value is `busyRead` of this
step's draw is the model's form of it (log 5). -/
def Obligations.ReadsWhileBusyAreFree : Prop :=
  ∀ s : State, s.busy = true →
    readValue s (.reg .id) = 0x48554631 ∧ readValue s (.reg .ctrl) = ctrlWord s
    ∧ readValue s (.reg .status) = statusWord s ∧ readValue s (.reg .cmd) = 0
    ∧ (∀ r, r ≠ .id → r ≠ .ctrl → r ≠ .status → r ≠ .cmd → readValue s (.reg r) = Config.busyRead s.draws)
    ∧ (∀ x, readValue s (.freq x) = Config.busyRead s.draws)
    ∧ (∀ i, readValue s (.inWord i) = Config.busyRead s.draws)
    ∧ ∀ i, readValue s (.outWord i) = Config.busyRead s.draws

/-! ## Reset -/

/-- R250: what a hard reset leaves. That it lands while BUSY = 1 too and keeps the parameters is the model's reading
(log 19), and the bytes of IN and OUT are free values in the model's form (log 4). CMDW is left open (log 7). -/
def Obligations.HardResetValues : Prop :=
  ∀ (s : State) (waits : Bool) (rest : List HostEvent), s.cfg.legal = true →
    s.pending = ⟨waits, .hardReset⟩ :: rest → landsNow s ⟨waits, .hardReset⟩ →
    ∃ t, step s = .next t ∧ t.busy = false ∧ t.cfg = s.cfg ∧ readValue t (.reg .id) = 0x48554631
      ∧ (∀ r, r ∈ [Reg.ctrl, .status, .arg0, .res, .cnt, .errinfo, .inLen, .ibp, .obp, .codeSel, .totalLo, .totalHi] →
          readValue t (.reg r) = 0)
      ∧ t.ts = .invalid ∧ t.errcode = .none ∧ t.total = 0
      ∧ (∀ x, readValue t (.freq x) = 0) ∧ (∀ x, codeOf t x = CodeEntry.absent)
      ∧ (∀ a, inByte t a = Config.unwrittenIn t.draws a) ∧ ∀ a, outByte t a = Config.unwrittenOut t.draws a

/-- The rows of R250 that the spec marks as its own inference: NLEAF, NCODE, MAXLEN, CODE_INFO and CODE_WORD0..7 read 0
after a hard reset, and IRQ is 0. -/
def Obligations.ComputedRegistersReadZeroAfterReset : Prop :=
  ∀ s : State, readValue (hardReset s) (.reg .nleaf) = 0 ∧ readValue (hardReset s) (.reg .ncode) = 0
    ∧ readValue (hardReset s) (.reg .maxlen) = 0 ∧ readValue (hardReset s) (.reg .codeInfo) = 0
    ∧ (∀ k, readValue (hardReset s) (.reg (.codeWord k)) = 0) ∧ irq (hardReset s) = false

/-- R252, R253: a CTRL write with bit 0 = 1 gives the values of R250, with IN preserved, OUT preserved if BUSY was 0,
and every OUT byte a free value, in the model's form (log 6), if BUSY was 1; no completion follows. CMDW is left open
(log 7). -/
def Obligations.SoftResetPreservesTheBuffers : Prop :=
  ∀ (s : State) (waits : Bool) (v : Word) (rest : List HostEvent), s.cfg.legal = true →
    s.pending = ⟨waits, .write (s.cfg.base + 0x004) 32 v⟩ :: rest →
    landsNow s ⟨waits, .write (s.cfg.base + 0x004) 32 v⟩ → v.getLsbD 0 = true →
    ∃ t, step s = .next t
      ∧ t = { hardReset s with cmdw := t.cmdw, inBuf := s.inBuf, outBuf := t.outBuf, pending := rest,
                               resp := some writeAnswer, draws := s.draws + 1 }
      ∧ t.ie = false ∧ t.busy = false ∧ t.done = false ∧ t.err = false ∧ t.errcode = .none
      ∧ (s.busy = false → t.outBuf = s.outBuf)
      ∧ (s.busy = true → ∀ a, outByte t a = Config.unwrittenOut t.draws a)

/-! ## Invariants -/

/-- The state after reset meets the invariant. -/
def Obligations.ResetMeetsTheInvariant : Prop := State.reset.Inv

/-- R66, an inference of the spec's own: every step keeps IN_LEN, IBP and OBP within their bounds, so the pointers
stay below 2^20. -/
def Obligations.PointersStayInRange : Prop :=
  ∀ s t : State, s.cfg.legal = true → pointersOk s → step s = .next t →
    pointersOk t ∧ t.ibp.toNat < 2 ^ 20 ∧ t.obp.toNat < 2 ^ 20

/-- Every step keeps both buffers in canonical form and inside their sizes (R42, R43, R60). -/
def Obligations.BuffersStayCanonical : Prop :=
  ∀ s t : State, s.cfg.legal = true → memoryOk s → step s = .next t → memoryOk t

/-- 10_state.md R31 and R34: every step keeps the tree one the commands can make, TOTAL its root's weight, and every
Code Table entry legal. -/
def Obligations.TreeAndTableStayLegal : Prop :=
  ∀ s t : State, treeStateOk s → codesOk s → step s = .next t → treeStateOk t ∧ codesOk t

/-- Every step keeps the error record and the busy bit consistent (R26, R38, R111, R114). -/
def Obligations.ErrorRecordStaysConsistent : Prop :=
  ∀ s t : State, recordOk s → step s = .next t → recordOk t

/-- Every step keeps the whole invariant. -/
def Obligations.EveryStepKeepsTheInvariant : Prop :=
  ∀ s t : State, s.Inv → step s = .next t → t.Inv

/-- R61: a performed access acts at its location: a read answers the location's value and changes nothing else, a write
acts as `hostWrite` at the location; neither answers a bus error. (`pending`, `resp` and `draws` are the model's own,
log 8.) -/
def Obligations.PerformedAccessesActAtTheirLocation : Prop :=
  ∀ (s : State) (waits : Bool) (off : Nat) (l : Location) (v : Word) (rest : List HostEvent), s.cfg.legal = true →
    performedAt s.cfg off 32 = some l →
    (s.pending = ⟨waits, .read (s.cfg.base + off) 32⟩ :: rest → landsNow s ⟨waits, .read (s.cfg.base + off) 32⟩ →
      step s = .next { s with pending := rest, draws := s.draws + 1, resp := some ⟨some (readValue s l), false, false⟩ })
    ∧ (s.pending = ⟨waits, .write (s.cfg.base + off) 32 v⟩ :: rest →
      landsNow s ⟨waits, .write (s.cfg.base + off) 32 v⟩ →
      step s = .next { hostWrite l v { s with pending := rest } with resp := some writeAnswer, draws := s.draws + 1 })
end

