-- ==== Sys2Proof/Laws/State.lean ====
section
/-! SUPPORT. One lemma per field per named update of State, each true by rfl, so that no later proof unfolds a record
update. -/

namespace Sys2Proof.Machine

/-! ## writeIn -/

@[simp] theorem writeIn_cfg (i : Nat) (v : Byte) (s : State) : (writeIn i v s).cfg = s.cfg := rfl
@[simp] theorem writeIn_ie (i : Nat) (v : Byte) (s : State) : (writeIn i v s).ie = s.ie := rfl
@[simp] theorem writeIn_busy (i : Nat) (v : Byte) (s : State) : (writeIn i v s).busy = s.busy := rfl
@[simp] theorem writeIn_done (i : Nat) (v : Byte) (s : State) : (writeIn i v s).done = s.done := rfl
@[simp] theorem writeIn_err (i : Nat) (v : Byte) (s : State) : (writeIn i v s).err = s.err := rfl
@[simp] theorem writeIn_haz (i : Nat) (v : Byte) (s : State) : (writeIn i v s).haz = s.haz := rfl
@[simp] theorem writeIn_errcode (i : Nat) (v : Byte) (s : State) : (writeIn i v s).errcode = s.errcode := rfl
@[simp] theorem writeIn_errinfo (i : Nat) (v : Byte) (s : State) : (writeIn i v s).errinfo = s.errinfo := rfl
@[simp] theorem writeIn_cmdw (i : Nat) (v : Byte) (s : State) : (writeIn i v s).cmdw = s.cmdw := rfl
@[simp] theorem writeIn_arg0 (i : Nat) (v : Byte) (s : State) : (writeIn i v s).arg0 = s.arg0 := rfl
@[simp] theorem writeIn_res (i : Nat) (v : Byte) (s : State) : (writeIn i v s).res = s.res := rfl
@[simp] theorem writeIn_cnt (i : Nat) (v : Byte) (s : State) : (writeIn i v s).cnt = s.cnt := rfl
@[simp] theorem writeIn_inLen (i : Nat) (v : Byte) (s : State) : (writeIn i v s).inLen = s.inLen := rfl
@[simp] theorem writeIn_ibp (i : Nat) (v : Byte) (s : State) : (writeIn i v s).ibp = s.ibp := rfl
@[simp] theorem writeIn_obp (i : Nat) (v : Byte) (s : State) : (writeIn i v s).obp = s.obp := rfl
@[simp] theorem writeIn_codeSel (i : Nat) (v : Byte) (s : State) : (writeIn i v s).codeSel = s.codeSel := rfl
@[simp] theorem writeIn_freq (i : Nat) (v : Byte) (s : State) : (writeIn i v s).freq = s.freq := rfl
@[simp] theorem writeIn_codes (i : Nat) (v : Byte) (s : State) : (writeIn i v s).codes = s.codes := rfl
@[simp] theorem writeIn_ts (i : Nat) (v : Byte) (s : State) : (writeIn i v s).ts = s.ts := rfl
@[simp] theorem writeIn_total (i : Nat) (v : Byte) (s : State) : (writeIn i v s).total = s.total := rfl
@[simp] theorem writeIn_inBuf (i : Nat) (v : Byte) (s : State) : (writeIn i v s).inBuf = Memory.write s.inBuf i v := rfl
@[simp] theorem writeIn_outBuf (i : Nat) (v : Byte) (s : State) : (writeIn i v s).outBuf = s.outBuf := rfl
@[simp] theorem writeIn_pending (i : Nat) (v : Byte) (s : State) : (writeIn i v s).pending = s.pending := rfl
@[simp] theorem writeIn_resp (i : Nat) (v : Byte) (s : State) : (writeIn i v s).resp = s.resp := rfl
@[simp] theorem writeIn_draws (i : Nat) (v : Byte) (s : State) : (writeIn i v s).draws = s.draws := rfl

/-! ## writeOut -/

@[simp] theorem writeOut_cfg (i : Nat) (v : Byte) (s : State) : (writeOut i v s).cfg = s.cfg := rfl
@[simp] theorem writeOut_ie (i : Nat) (v : Byte) (s : State) : (writeOut i v s).ie = s.ie := rfl
@[simp] theorem writeOut_busy (i : Nat) (v : Byte) (s : State) : (writeOut i v s).busy = s.busy := rfl
@[simp] theorem writeOut_done (i : Nat) (v : Byte) (s : State) : (writeOut i v s).done = s.done := rfl
@[simp] theorem writeOut_err (i : Nat) (v : Byte) (s : State) : (writeOut i v s).err = s.err := rfl
@[simp] theorem writeOut_haz (i : Nat) (v : Byte) (s : State) : (writeOut i v s).haz = s.haz := rfl
@[simp] theorem writeOut_errcode (i : Nat) (v : Byte) (s : State) : (writeOut i v s).errcode = s.errcode := rfl
@[simp] theorem writeOut_errinfo (i : Nat) (v : Byte) (s : State) : (writeOut i v s).errinfo = s.errinfo := rfl
@[simp] theorem writeOut_cmdw (i : Nat) (v : Byte) (s : State) : (writeOut i v s).cmdw = s.cmdw := rfl
@[simp] theorem writeOut_arg0 (i : Nat) (v : Byte) (s : State) : (writeOut i v s).arg0 = s.arg0 := rfl
@[simp] theorem writeOut_res (i : Nat) (v : Byte) (s : State) : (writeOut i v s).res = s.res := rfl
@[simp] theorem writeOut_cnt (i : Nat) (v : Byte) (s : State) : (writeOut i v s).cnt = s.cnt := rfl
@[simp] theorem writeOut_inLen (i : Nat) (v : Byte) (s : State) : (writeOut i v s).inLen = s.inLen := rfl
@[simp] theorem writeOut_ibp (i : Nat) (v : Byte) (s : State) : (writeOut i v s).ibp = s.ibp := rfl
@[simp] theorem writeOut_obp (i : Nat) (v : Byte) (s : State) : (writeOut i v s).obp = s.obp := rfl
@[simp] theorem writeOut_codeSel (i : Nat) (v : Byte) (s : State) : (writeOut i v s).codeSel = s.codeSel := rfl
@[simp] theorem writeOut_freq (i : Nat) (v : Byte) (s : State) : (writeOut i v s).freq = s.freq := rfl
@[simp] theorem writeOut_codes (i : Nat) (v : Byte) (s : State) : (writeOut i v s).codes = s.codes := rfl
@[simp] theorem writeOut_ts (i : Nat) (v : Byte) (s : State) : (writeOut i v s).ts = s.ts := rfl
@[simp] theorem writeOut_total (i : Nat) (v : Byte) (s : State) : (writeOut i v s).total = s.total := rfl
@[simp] theorem writeOut_inBuf (i : Nat) (v : Byte) (s : State) : (writeOut i v s).inBuf = s.inBuf := rfl
@[simp] theorem writeOut_outBuf (i : Nat) (v : Byte) (s : State) : (writeOut i v s).outBuf = Memory.write s.outBuf i v := rfl
@[simp] theorem writeOut_pending (i : Nat) (v : Byte) (s : State) : (writeOut i v s).pending = s.pending := rfl
@[simp] theorem writeOut_resp (i : Nat) (v : Byte) (s : State) : (writeOut i v s).resp = s.resp := rfl
@[simp] theorem writeOut_draws (i : Nat) (v : Byte) (s : State) : (writeOut i v s).draws = s.draws := rfl

/-! ## setFreq -/

@[simp] theorem setFreq_cfg (x : Symbol) (v : Word) (s : State) : (setFreq x v s).cfg = s.cfg := rfl
@[simp] theorem setFreq_ie (x : Symbol) (v : Word) (s : State) : (setFreq x v s).ie = s.ie := rfl
@[simp] theorem setFreq_busy (x : Symbol) (v : Word) (s : State) : (setFreq x v s).busy = s.busy := rfl
@[simp] theorem setFreq_done (x : Symbol) (v : Word) (s : State) : (setFreq x v s).done = s.done := rfl
@[simp] theorem setFreq_err (x : Symbol) (v : Word) (s : State) : (setFreq x v s).err = s.err := rfl
@[simp] theorem setFreq_haz (x : Symbol) (v : Word) (s : State) : (setFreq x v s).haz = s.haz := rfl
@[simp] theorem setFreq_errcode (x : Symbol) (v : Word) (s : State) : (setFreq x v s).errcode = s.errcode := rfl
@[simp] theorem setFreq_errinfo (x : Symbol) (v : Word) (s : State) : (setFreq x v s).errinfo = s.errinfo := rfl
@[simp] theorem setFreq_cmdw (x : Symbol) (v : Word) (s : State) : (setFreq x v s).cmdw = s.cmdw := rfl
@[simp] theorem setFreq_arg0 (x : Symbol) (v : Word) (s : State) : (setFreq x v s).arg0 = s.arg0 := rfl
@[simp] theorem setFreq_res (x : Symbol) (v : Word) (s : State) : (setFreq x v s).res = s.res := rfl
@[simp] theorem setFreq_cnt (x : Symbol) (v : Word) (s : State) : (setFreq x v s).cnt = s.cnt := rfl
@[simp] theorem setFreq_inLen (x : Symbol) (v : Word) (s : State) : (setFreq x v s).inLen = s.inLen := rfl
@[simp] theorem setFreq_ibp (x : Symbol) (v : Word) (s : State) : (setFreq x v s).ibp = s.ibp := rfl
@[simp] theorem setFreq_obp (x : Symbol) (v : Word) (s : State) : (setFreq x v s).obp = s.obp := rfl
@[simp] theorem setFreq_codeSel (x : Symbol) (v : Word) (s : State) : (setFreq x v s).codeSel = s.codeSel := rfl
@[simp] theorem setFreq_freq (x : Symbol) (v : Word) (s : State) : (setFreq x v s).freq = s.freq.set x.toNat v x.isLt := rfl
@[simp] theorem setFreq_codes (x : Symbol) (v : Word) (s : State) : (setFreq x v s).codes = s.codes := rfl
@[simp] theorem setFreq_ts (x : Symbol) (v : Word) (s : State) : (setFreq x v s).ts = s.ts := rfl
@[simp] theorem setFreq_total (x : Symbol) (v : Word) (s : State) : (setFreq x v s).total = s.total := rfl
@[simp] theorem setFreq_inBuf (x : Symbol) (v : Word) (s : State) : (setFreq x v s).inBuf = s.inBuf := rfl
@[simp] theorem setFreq_outBuf (x : Symbol) (v : Word) (s : State) : (setFreq x v s).outBuf = s.outBuf := rfl
@[simp] theorem setFreq_pending (x : Symbol) (v : Word) (s : State) : (setFreq x v s).pending = s.pending := rfl
@[simp] theorem setFreq_resp (x : Symbol) (v : Word) (s : State) : (setFreq x v s).resp = s.resp := rfl
@[simp] theorem setFreq_draws (x : Symbol) (v : Word) (s : State) : (setFreq x v s).draws = s.draws := rfl

/-! ## setCodes -/

@[simp] theorem setCodes_cfg (t : Vector CodeEntry 256) (s : State) : (setCodes t s).cfg = s.cfg := rfl
@[simp] theorem setCodes_ie (t : Vector CodeEntry 256) (s : State) : (setCodes t s).ie = s.ie := rfl
@[simp] theorem setCodes_busy (t : Vector CodeEntry 256) (s : State) : (setCodes t s).busy = s.busy := rfl
@[simp] theorem setCodes_done (t : Vector CodeEntry 256) (s : State) : (setCodes t s).done = s.done := rfl
@[simp] theorem setCodes_err (t : Vector CodeEntry 256) (s : State) : (setCodes t s).err = s.err := rfl
@[simp] theorem setCodes_haz (t : Vector CodeEntry 256) (s : State) : (setCodes t s).haz = s.haz := rfl
@[simp] theorem setCodes_errcode (t : Vector CodeEntry 256) (s : State) : (setCodes t s).errcode = s.errcode := rfl
@[simp] theorem setCodes_errinfo (t : Vector CodeEntry 256) (s : State) : (setCodes t s).errinfo = s.errinfo := rfl
@[simp] theorem setCodes_cmdw (t : Vector CodeEntry 256) (s : State) : (setCodes t s).cmdw = s.cmdw := rfl
@[simp] theorem setCodes_arg0 (t : Vector CodeEntry 256) (s : State) : (setCodes t s).arg0 = s.arg0 := rfl
@[simp] theorem setCodes_res (t : Vector CodeEntry 256) (s : State) : (setCodes t s).res = s.res := rfl
@[simp] theorem setCodes_cnt (t : Vector CodeEntry 256) (s : State) : (setCodes t s).cnt = s.cnt := rfl
@[simp] theorem setCodes_inLen (t : Vector CodeEntry 256) (s : State) : (setCodes t s).inLen = s.inLen := rfl
@[simp] theorem setCodes_ibp (t : Vector CodeEntry 256) (s : State) : (setCodes t s).ibp = s.ibp := rfl
@[simp] theorem setCodes_obp (t : Vector CodeEntry 256) (s : State) : (setCodes t s).obp = s.obp := rfl
@[simp] theorem setCodes_codeSel (t : Vector CodeEntry 256) (s : State) : (setCodes t s).codeSel = s.codeSel := rfl
@[simp] theorem setCodes_freq (t : Vector CodeEntry 256) (s : State) : (setCodes t s).freq = s.freq := rfl
@[simp] theorem setCodes_codes (t : Vector CodeEntry 256) (s : State) : (setCodes t s).codes = t := rfl
@[simp] theorem setCodes_ts (t : Vector CodeEntry 256) (s : State) : (setCodes t s).ts = s.ts := rfl
@[simp] theorem setCodes_total (t : Vector CodeEntry 256) (s : State) : (setCodes t s).total = s.total := rfl
@[simp] theorem setCodes_inBuf (t : Vector CodeEntry 256) (s : State) : (setCodes t s).inBuf = s.inBuf := rfl
@[simp] theorem setCodes_outBuf (t : Vector CodeEntry 256) (s : State) : (setCodes t s).outBuf = s.outBuf := rfl
@[simp] theorem setCodes_pending (t : Vector CodeEntry 256) (s : State) : (setCodes t s).pending = s.pending := rfl
@[simp] theorem setCodes_resp (t : Vector CodeEntry 256) (s : State) : (setCodes t s).resp = s.resp := rfl
@[simp] theorem setCodes_draws (t : Vector CodeEntry 256) (s : State) : (setCodes t s).draws = s.draws := rfl

/-! ## setTree -/

@[simp] theorem setTree_cfg (t : TreeState) (w : Weight) (s : State) : (setTree t w s).cfg = s.cfg := rfl
@[simp] theorem setTree_ie (t : TreeState) (w : Weight) (s : State) : (setTree t w s).ie = s.ie := rfl
@[simp] theorem setTree_busy (t : TreeState) (w : Weight) (s : State) : (setTree t w s).busy = s.busy := rfl
@[simp] theorem setTree_done (t : TreeState) (w : Weight) (s : State) : (setTree t w s).done = s.done := rfl
@[simp] theorem setTree_err (t : TreeState) (w : Weight) (s : State) : (setTree t w s).err = s.err := rfl
@[simp] theorem setTree_haz (t : TreeState) (w : Weight) (s : State) : (setTree t w s).haz = s.haz := rfl
@[simp] theorem setTree_errcode (t : TreeState) (w : Weight) (s : State) : (setTree t w s).errcode = s.errcode := rfl
@[simp] theorem setTree_errinfo (t : TreeState) (w : Weight) (s : State) : (setTree t w s).errinfo = s.errinfo := rfl
@[simp] theorem setTree_cmdw (t : TreeState) (w : Weight) (s : State) : (setTree t w s).cmdw = s.cmdw := rfl
@[simp] theorem setTree_arg0 (t : TreeState) (w : Weight) (s : State) : (setTree t w s).arg0 = s.arg0 := rfl
@[simp] theorem setTree_res (t : TreeState) (w : Weight) (s : State) : (setTree t w s).res = s.res := rfl
@[simp] theorem setTree_cnt (t : TreeState) (w : Weight) (s : State) : (setTree t w s).cnt = s.cnt := rfl
@[simp] theorem setTree_inLen (t : TreeState) (w : Weight) (s : State) : (setTree t w s).inLen = s.inLen := rfl
@[simp] theorem setTree_ibp (t : TreeState) (w : Weight) (s : State) : (setTree t w s).ibp = s.ibp := rfl
@[simp] theorem setTree_obp (t : TreeState) (w : Weight) (s : State) : (setTree t w s).obp = s.obp := rfl
@[simp] theorem setTree_codeSel (t : TreeState) (w : Weight) (s : State) : (setTree t w s).codeSel = s.codeSel := rfl
@[simp] theorem setTree_freq (t : TreeState) (w : Weight) (s : State) : (setTree t w s).freq = s.freq := rfl
@[simp] theorem setTree_codes (t : TreeState) (w : Weight) (s : State) : (setTree t w s).codes = s.codes := rfl
@[simp] theorem setTree_ts (t : TreeState) (w : Weight) (s : State) : (setTree t w s).ts = t := rfl
@[simp] theorem setTree_total (t : TreeState) (w : Weight) (s : State) : (setTree t w s).total = w := rfl
@[simp] theorem setTree_inBuf (t : TreeState) (w : Weight) (s : State) : (setTree t w s).inBuf = s.inBuf := rfl
@[simp] theorem setTree_outBuf (t : TreeState) (w : Weight) (s : State) : (setTree t w s).outBuf = s.outBuf := rfl
@[simp] theorem setTree_pending (t : TreeState) (w : Weight) (s : State) : (setTree t w s).pending = s.pending := rfl
@[simp] theorem setTree_resp (t : TreeState) (w : Weight) (s : State) : (setTree t w s).resp = s.resp := rfl
@[simp] theorem setTree_draws (t : TreeState) (w : Weight) (s : State) : (setTree t w s).draws = s.draws := rfl

/-! ## accept -/

@[simp] theorem accept_cfg (v : Word) (s : State) : (accept v s).cfg = s.cfg := rfl
@[simp] theorem accept_ie (v : Word) (s : State) : (accept v s).ie = s.ie := rfl
@[simp] theorem accept_busy (v : Word) (s : State) : (accept v s).busy = true := rfl
@[simp] theorem accept_done (v : Word) (s : State) : (accept v s).done = false := rfl
@[simp] theorem accept_err (v : Word) (s : State) : (accept v s).err = false := rfl
@[simp] theorem accept_haz (v : Word) (s : State) : (accept v s).haz = s.haz := rfl
@[simp] theorem accept_errcode (v : Word) (s : State) : (accept v s).errcode = .none := rfl
@[simp] theorem accept_errinfo (v : Word) (s : State) : (accept v s).errinfo = 0 := rfl
@[simp] theorem accept_cmdw (v : Word) (s : State) : (accept v s).cmdw = v := rfl
@[simp] theorem accept_arg0 (v : Word) (s : State) : (accept v s).arg0 = s.arg0 := rfl
@[simp] theorem accept_res (v : Word) (s : State) : (accept v s).res = s.res := rfl
@[simp] theorem accept_cnt (v : Word) (s : State) : (accept v s).cnt = s.cnt := rfl
@[simp] theorem accept_inLen (v : Word) (s : State) : (accept v s).inLen = s.inLen := rfl
@[simp] theorem accept_ibp (v : Word) (s : State) : (accept v s).ibp = s.ibp := rfl
@[simp] theorem accept_obp (v : Word) (s : State) : (accept v s).obp = s.obp := rfl
@[simp] theorem accept_codeSel (v : Word) (s : State) : (accept v s).codeSel = s.codeSel := rfl
@[simp] theorem accept_freq (v : Word) (s : State) : (accept v s).freq = s.freq := rfl
@[simp] theorem accept_codes (v : Word) (s : State) : (accept v s).codes = s.codes := rfl
@[simp] theorem accept_ts (v : Word) (s : State) : (accept v s).ts = s.ts := rfl
@[simp] theorem accept_total (v : Word) (s : State) : (accept v s).total = s.total := rfl
@[simp] theorem accept_inBuf (v : Word) (s : State) : (accept v s).inBuf = s.inBuf := rfl
@[simp] theorem accept_outBuf (v : Word) (s : State) : (accept v s).outBuf = s.outBuf := rfl
@[simp] theorem accept_pending (v : Word) (s : State) : (accept v s).pending = s.pending := rfl
@[simp] theorem accept_resp (v : Word) (s : State) : (accept v s).resp = s.resp := rfl
@[simp] theorem accept_draws (v : Word) (s : State) : (accept v s).draws = s.draws := rfl

/-! ## complete -/

@[simp] theorem complete_cfg (s : State) : (complete s).cfg = s.cfg := rfl
@[simp] theorem complete_ie (s : State) : (complete s).ie = s.ie := rfl
@[simp] theorem complete_busy (s : State) : (complete s).busy = false := rfl
@[simp] theorem complete_done (s : State) : (complete s).done = true := rfl
@[simp] theorem complete_err (s : State) : (complete s).err = s.err := rfl
@[simp] theorem complete_haz (s : State) : (complete s).haz = s.haz := rfl
@[simp] theorem complete_errcode (s : State) : (complete s).errcode = s.errcode := rfl
@[simp] theorem complete_errinfo (s : State) : (complete s).errinfo = s.errinfo := rfl
@[simp] theorem complete_cmdw (s : State) : (complete s).cmdw = s.cmdw := rfl
@[simp] theorem complete_arg0 (s : State) : (complete s).arg0 = s.arg0 := rfl
@[simp] theorem complete_res (s : State) : (complete s).res = s.res := rfl
@[simp] theorem complete_cnt (s : State) : (complete s).cnt = s.cnt := rfl
@[simp] theorem complete_inLen (s : State) : (complete s).inLen = s.inLen := rfl
@[simp] theorem complete_ibp (s : State) : (complete s).ibp = s.ibp := rfl
@[simp] theorem complete_obp (s : State) : (complete s).obp = s.obp := rfl
@[simp] theorem complete_codeSel (s : State) : (complete s).codeSel = s.codeSel := rfl
@[simp] theorem complete_freq (s : State) : (complete s).freq = s.freq := rfl
@[simp] theorem complete_codes (s : State) : (complete s).codes = s.codes := rfl
@[simp] theorem complete_ts (s : State) : (complete s).ts = s.ts := rfl
@[simp] theorem complete_total (s : State) : (complete s).total = s.total := rfl
@[simp] theorem complete_inBuf (s : State) : (complete s).inBuf = s.inBuf := rfl
@[simp] theorem complete_outBuf (s : State) : (complete s).outBuf = s.outBuf := rfl
@[simp] theorem complete_pending (s : State) : (complete s).pending = s.pending := rfl
@[simp] theorem complete_resp (s : State) : (complete s).resp = s.resp := rfl
@[simp] theorem complete_draws (s : State) : (complete s).draws = s.draws := rfl

/-! ## raiseError -/

@[simp] theorem raiseError_cfg (e : ErrorCode) (v : Word) (s : State) : (raiseError e v s).cfg = s.cfg := rfl
@[simp] theorem raiseError_ie (e : ErrorCode) (v : Word) (s : State) : (raiseError e v s).ie = s.ie := rfl
@[simp] theorem raiseError_busy (e : ErrorCode) (v : Word) (s : State) : (raiseError e v s).busy = s.busy := rfl
@[simp] theorem raiseError_done (e : ErrorCode) (v : Word) (s : State) : (raiseError e v s).done = s.done := rfl
@[simp] theorem raiseError_err (e : ErrorCode) (v : Word) (s : State) : (raiseError e v s).err = true := rfl
@[simp] theorem raiseError_haz (e : ErrorCode) (v : Word) (s : State) : (raiseError e v s).haz = s.haz := rfl
@[simp] theorem raiseError_errcode (e : ErrorCode) (v : Word) (s : State) : (raiseError e v s).errcode = e := rfl
@[simp] theorem raiseError_errinfo (e : ErrorCode) (v : Word) (s : State) : (raiseError e v s).errinfo = v := rfl
@[simp] theorem raiseError_cmdw (e : ErrorCode) (v : Word) (s : State) : (raiseError e v s).cmdw = s.cmdw := rfl
@[simp] theorem raiseError_arg0 (e : ErrorCode) (v : Word) (s : State) : (raiseError e v s).arg0 = s.arg0 := rfl
@[simp] theorem raiseError_res (e : ErrorCode) (v : Word) (s : State) : (raiseError e v s).res = s.res := rfl
@[simp] theorem raiseError_cnt (e : ErrorCode) (v : Word) (s : State) : (raiseError e v s).cnt = s.cnt := rfl
@[simp] theorem raiseError_inLen (e : ErrorCode) (v : Word) (s : State) : (raiseError e v s).inLen = s.inLen := rfl
@[simp] theorem raiseError_ibp (e : ErrorCode) (v : Word) (s : State) : (raiseError e v s).ibp = s.ibp := rfl
@[simp] theorem raiseError_obp (e : ErrorCode) (v : Word) (s : State) : (raiseError e v s).obp = s.obp := rfl
@[simp] theorem raiseError_codeSel (e : ErrorCode) (v : Word) (s : State) : (raiseError e v s).codeSel = s.codeSel := rfl
@[simp] theorem raiseError_freq (e : ErrorCode) (v : Word) (s : State) : (raiseError e v s).freq = s.freq := rfl
@[simp] theorem raiseError_codes (e : ErrorCode) (v : Word) (s : State) : (raiseError e v s).codes = s.codes := rfl
@[simp] theorem raiseError_ts (e : ErrorCode) (v : Word) (s : State) : (raiseError e v s).ts = s.ts := rfl
@[simp] theorem raiseError_total (e : ErrorCode) (v : Word) (s : State) : (raiseError e v s).total = s.total := rfl
@[simp] theorem raiseError_inBuf (e : ErrorCode) (v : Word) (s : State) : (raiseError e v s).inBuf = s.inBuf := rfl
@[simp] theorem raiseError_outBuf (e : ErrorCode) (v : Word) (s : State) : (raiseError e v s).outBuf = s.outBuf := rfl
@[simp] theorem raiseError_pending (e : ErrorCode) (v : Word) (s : State) : (raiseError e v s).pending = s.pending := rfl
@[simp] theorem raiseError_resp (e : ErrorCode) (v : Word) (s : State) : (raiseError e v s).resp = s.resp := rfl
@[simp] theorem raiseError_draws (e : ErrorCode) (v : Word) (s : State) : (raiseError e v s).draws = s.draws := rfl

/-! ## tick -/

@[simp] theorem tick_cfg (s : State) : (tick s).cfg = s.cfg := rfl
@[simp] theorem tick_ie (s : State) : (tick s).ie = s.ie := rfl
@[simp] theorem tick_busy (s : State) : (tick s).busy = s.busy := rfl
@[simp] theorem tick_done (s : State) : (tick s).done = s.done := rfl
@[simp] theorem tick_err (s : State) : (tick s).err = s.err := rfl
@[simp] theorem tick_haz (s : State) : (tick s).haz = s.haz := rfl
@[simp] theorem tick_errcode (s : State) : (tick s).errcode = s.errcode := rfl
@[simp] theorem tick_errinfo (s : State) : (tick s).errinfo = s.errinfo := rfl
@[simp] theorem tick_cmdw (s : State) : (tick s).cmdw = s.cmdw := rfl
@[simp] theorem tick_arg0 (s : State) : (tick s).arg0 = s.arg0 := rfl
@[simp] theorem tick_res (s : State) : (tick s).res = s.res := rfl
@[simp] theorem tick_cnt (s : State) : (tick s).cnt = s.cnt := rfl
@[simp] theorem tick_inLen (s : State) : (tick s).inLen = s.inLen := rfl
@[simp] theorem tick_ibp (s : State) : (tick s).ibp = s.ibp := rfl
@[simp] theorem tick_obp (s : State) : (tick s).obp = s.obp := rfl
@[simp] theorem tick_codeSel (s : State) : (tick s).codeSel = s.codeSel := rfl
@[simp] theorem tick_freq (s : State) : (tick s).freq = s.freq := rfl
@[simp] theorem tick_codes (s : State) : (tick s).codes = s.codes := rfl
@[simp] theorem tick_ts (s : State) : (tick s).ts = s.ts := rfl
@[simp] theorem tick_total (s : State) : (tick s).total = s.total := rfl
@[simp] theorem tick_inBuf (s : State) : (tick s).inBuf = s.inBuf := rfl
@[simp] theorem tick_outBuf (s : State) : (tick s).outBuf = s.outBuf := rfl
@[simp] theorem tick_pending (s : State) : (tick s).pending = s.pending := rfl
@[simp] theorem tick_resp (s : State) : (tick s).resp = s.resp := rfl
@[simp] theorem tick_draws (s : State) : (tick s).draws = s.draws + 1 := rfl

/-! ## advanceObp -/

@[simp] theorem advanceObp_cfg (n : Nat) (s : State) : (advanceObp n s).cfg = s.cfg := rfl
@[simp] theorem advanceObp_ie (n : Nat) (s : State) : (advanceObp n s).ie = s.ie := rfl
@[simp] theorem advanceObp_busy (n : Nat) (s : State) : (advanceObp n s).busy = s.busy := rfl
@[simp] theorem advanceObp_done (n : Nat) (s : State) : (advanceObp n s).done = s.done := rfl
@[simp] theorem advanceObp_err (n : Nat) (s : State) : (advanceObp n s).err = s.err := rfl
@[simp] theorem advanceObp_haz (n : Nat) (s : State) : (advanceObp n s).haz = s.haz := rfl
@[simp] theorem advanceObp_errcode (n : Nat) (s : State) : (advanceObp n s).errcode = s.errcode := rfl
@[simp] theorem advanceObp_errinfo (n : Nat) (s : State) : (advanceObp n s).errinfo = s.errinfo := rfl
@[simp] theorem advanceObp_cmdw (n : Nat) (s : State) : (advanceObp n s).cmdw = s.cmdw := rfl
@[simp] theorem advanceObp_arg0 (n : Nat) (s : State) : (advanceObp n s).arg0 = s.arg0 := rfl
@[simp] theorem advanceObp_res (n : Nat) (s : State) : (advanceObp n s).res = s.res := rfl
@[simp] theorem advanceObp_cnt (n : Nat) (s : State) : (advanceObp n s).cnt = s.cnt := rfl
@[simp] theorem advanceObp_inLen (n : Nat) (s : State) : (advanceObp n s).inLen = s.inLen := rfl
@[simp] theorem advanceObp_ibp (n : Nat) (s : State) : (advanceObp n s).ibp = s.ibp := rfl
@[simp] theorem advanceObp_obp (n : Nat) (s : State) : (advanceObp n s).obp = s.obp + BitVec.ofNat 32 n := rfl
@[simp] theorem advanceObp_codeSel (n : Nat) (s : State) : (advanceObp n s).codeSel = s.codeSel := rfl
@[simp] theorem advanceObp_freq (n : Nat) (s : State) : (advanceObp n s).freq = s.freq := rfl
@[simp] theorem advanceObp_codes (n : Nat) (s : State) : (advanceObp n s).codes = s.codes := rfl
@[simp] theorem advanceObp_ts (n : Nat) (s : State) : (advanceObp n s).ts = s.ts := rfl
@[simp] theorem advanceObp_total (n : Nat) (s : State) : (advanceObp n s).total = s.total := rfl
@[simp] theorem advanceObp_inBuf (n : Nat) (s : State) : (advanceObp n s).inBuf = s.inBuf := rfl
@[simp] theorem advanceObp_outBuf (n : Nat) (s : State) : (advanceObp n s).outBuf = s.outBuf := rfl
@[simp] theorem advanceObp_pending (n : Nat) (s : State) : (advanceObp n s).pending = s.pending := rfl
@[simp] theorem advanceObp_resp (n : Nat) (s : State) : (advanceObp n s).resp = s.resp := rfl
@[simp] theorem advanceObp_draws (n : Nat) (s : State) : (advanceObp n s).draws = s.draws := rfl

/-! ## advanceIbp -/

@[simp] theorem advanceIbp_cfg (n : Nat) (s : State) : (advanceIbp n s).cfg = s.cfg := rfl
@[simp] theorem advanceIbp_ie (n : Nat) (s : State) : (advanceIbp n s).ie = s.ie := rfl
@[simp] theorem advanceIbp_busy (n : Nat) (s : State) : (advanceIbp n s).busy = s.busy := rfl
@[simp] theorem advanceIbp_done (n : Nat) (s : State) : (advanceIbp n s).done = s.done := rfl
@[simp] theorem advanceIbp_err (n : Nat) (s : State) : (advanceIbp n s).err = s.err := rfl
@[simp] theorem advanceIbp_haz (n : Nat) (s : State) : (advanceIbp n s).haz = s.haz := rfl
@[simp] theorem advanceIbp_errcode (n : Nat) (s : State) : (advanceIbp n s).errcode = s.errcode := rfl
@[simp] theorem advanceIbp_errinfo (n : Nat) (s : State) : (advanceIbp n s).errinfo = s.errinfo := rfl
@[simp] theorem advanceIbp_cmdw (n : Nat) (s : State) : (advanceIbp n s).cmdw = s.cmdw := rfl
@[simp] theorem advanceIbp_arg0 (n : Nat) (s : State) : (advanceIbp n s).arg0 = s.arg0 := rfl
@[simp] theorem advanceIbp_res (n : Nat) (s : State) : (advanceIbp n s).res = s.res := rfl
@[simp] theorem advanceIbp_cnt (n : Nat) (s : State) : (advanceIbp n s).cnt = s.cnt := rfl
@[simp] theorem advanceIbp_inLen (n : Nat) (s : State) : (advanceIbp n s).inLen = s.inLen := rfl
@[simp] theorem advanceIbp_ibp (n : Nat) (s : State) : (advanceIbp n s).ibp = s.ibp + BitVec.ofNat 32 n := rfl
@[simp] theorem advanceIbp_obp (n : Nat) (s : State) : (advanceIbp n s).obp = s.obp := rfl
@[simp] theorem advanceIbp_codeSel (n : Nat) (s : State) : (advanceIbp n s).codeSel = s.codeSel := rfl
@[simp] theorem advanceIbp_freq (n : Nat) (s : State) : (advanceIbp n s).freq = s.freq := rfl
@[simp] theorem advanceIbp_codes (n : Nat) (s : State) : (advanceIbp n s).codes = s.codes := rfl
@[simp] theorem advanceIbp_ts (n : Nat) (s : State) : (advanceIbp n s).ts = s.ts := rfl
@[simp] theorem advanceIbp_total (n : Nat) (s : State) : (advanceIbp n s).total = s.total := rfl
@[simp] theorem advanceIbp_inBuf (n : Nat) (s : State) : (advanceIbp n s).inBuf = s.inBuf := rfl
@[simp] theorem advanceIbp_outBuf (n : Nat) (s : State) : (advanceIbp n s).outBuf = s.outBuf := rfl
@[simp] theorem advanceIbp_pending (n : Nat) (s : State) : (advanceIbp n s).pending = s.pending := rfl
@[simp] theorem advanceIbp_resp (n : Nat) (s : State) : (advanceIbp n s).resp = s.resp := rfl
@[simp] theorem advanceIbp_draws (n : Nat) (s : State) : (advanceIbp n s).draws = s.draws := rfl

/-! ## clearFreq -/

@[simp] theorem clearFreq_cfg (s : State) : (clearFreq s).cfg = s.cfg := rfl
@[simp] theorem clearFreq_ie (s : State) : (clearFreq s).ie = s.ie := rfl
@[simp] theorem clearFreq_busy (s : State) : (clearFreq s).busy = s.busy := rfl
@[simp] theorem clearFreq_done (s : State) : (clearFreq s).done = s.done := rfl
@[simp] theorem clearFreq_err (s : State) : (clearFreq s).err = s.err := rfl
@[simp] theorem clearFreq_haz (s : State) : (clearFreq s).haz = s.haz := rfl
@[simp] theorem clearFreq_errcode (s : State) : (clearFreq s).errcode = s.errcode := rfl
@[simp] theorem clearFreq_errinfo (s : State) : (clearFreq s).errinfo = s.errinfo := rfl
@[simp] theorem clearFreq_cmdw (s : State) : (clearFreq s).cmdw = s.cmdw := rfl
@[simp] theorem clearFreq_arg0 (s : State) : (clearFreq s).arg0 = s.arg0 := rfl
@[simp] theorem clearFreq_res (s : State) : (clearFreq s).res = s.res := rfl
@[simp] theorem clearFreq_cnt (s : State) : (clearFreq s).cnt = s.cnt := rfl
@[simp] theorem clearFreq_inLen (s : State) : (clearFreq s).inLen = s.inLen := rfl
@[simp] theorem clearFreq_ibp (s : State) : (clearFreq s).ibp = s.ibp := rfl
@[simp] theorem clearFreq_obp (s : State) : (clearFreq s).obp = s.obp := rfl
@[simp] theorem clearFreq_codeSel (s : State) : (clearFreq s).codeSel = s.codeSel := rfl
@[simp] theorem clearFreq_freq (s : State) : (clearFreq s).freq = Vector.replicate 256 0 := rfl
@[simp] theorem clearFreq_codes (s : State) : (clearFreq s).codes = s.codes := rfl
@[simp] theorem clearFreq_ts (s : State) : (clearFreq s).ts = s.ts := rfl
@[simp] theorem clearFreq_total (s : State) : (clearFreq s).total = s.total := rfl
@[simp] theorem clearFreq_inBuf (s : State) : (clearFreq s).inBuf = s.inBuf := rfl
@[simp] theorem clearFreq_outBuf (s : State) : (clearFreq s).outBuf = s.outBuf := rfl
@[simp] theorem clearFreq_pending (s : State) : (clearFreq s).pending = s.pending := rfl
@[simp] theorem clearFreq_resp (s : State) : (clearFreq s).resp = s.resp := rfl
@[simp] theorem clearFreq_draws (s : State) : (clearFreq s).draws = s.draws := rfl

/-! ## clearCnt -/

@[simp] theorem clearCnt_cfg (s : State) : (clearCnt s).cfg = s.cfg := rfl
@[simp] theorem clearCnt_ie (s : State) : (clearCnt s).ie = s.ie := rfl
@[simp] theorem clearCnt_busy (s : State) : (clearCnt s).busy = s.busy := rfl
@[simp] theorem clearCnt_done (s : State) : (clearCnt s).done = s.done := rfl
@[simp] theorem clearCnt_err (s : State) : (clearCnt s).err = s.err := rfl
@[simp] theorem clearCnt_haz (s : State) : (clearCnt s).haz = s.haz := rfl
@[simp] theorem clearCnt_errcode (s : State) : (clearCnt s).errcode = s.errcode := rfl
@[simp] theorem clearCnt_errinfo (s : State) : (clearCnt s).errinfo = s.errinfo := rfl
@[simp] theorem clearCnt_cmdw (s : State) : (clearCnt s).cmdw = s.cmdw := rfl
@[simp] theorem clearCnt_arg0 (s : State) : (clearCnt s).arg0 = s.arg0 := rfl
@[simp] theorem clearCnt_res (s : State) : (clearCnt s).res = s.res := rfl
@[simp] theorem clearCnt_cnt (s : State) : (clearCnt s).cnt = 0 := rfl
@[simp] theorem clearCnt_inLen (s : State) : (clearCnt s).inLen = s.inLen := rfl
@[simp] theorem clearCnt_ibp (s : State) : (clearCnt s).ibp = s.ibp := rfl
@[simp] theorem clearCnt_obp (s : State) : (clearCnt s).obp = s.obp := rfl
@[simp] theorem clearCnt_codeSel (s : State) : (clearCnt s).codeSel = s.codeSel := rfl
@[simp] theorem clearCnt_freq (s : State) : (clearCnt s).freq = s.freq := rfl
@[simp] theorem clearCnt_codes (s : State) : (clearCnt s).codes = s.codes := rfl
@[simp] theorem clearCnt_ts (s : State) : (clearCnt s).ts = s.ts := rfl
@[simp] theorem clearCnt_total (s : State) : (clearCnt s).total = s.total := rfl
@[simp] theorem clearCnt_inBuf (s : State) : (clearCnt s).inBuf = s.inBuf := rfl
@[simp] theorem clearCnt_outBuf (s : State) : (clearCnt s).outBuf = s.outBuf := rfl
@[simp] theorem clearCnt_pending (s : State) : (clearCnt s).pending = s.pending := rfl
@[simp] theorem clearCnt_resp (s : State) : (clearCnt s).resp = s.resp := rfl
@[simp] theorem clearCnt_draws (s : State) : (clearCnt s).draws = s.draws := rfl

end Sys2Proof.Machine
end

