-- ==== Sys2Proof/Laws/Tables.lean ====
section
/-! SUPPORT. The 256 symbols in order, and reads after writes of FREQ and of the Code Table. -/

namespace Sys2Proof.Machine

theorem mem_allSymbols (x : Symbol) : x ∈ allSymbols :=
  List.mem_map.2 ⟨x.toNat, List.mem_range.2 x.isLt, by simp⟩

@[simp] theorem allSymbols_length : allSymbols.length = 256 := by simp [allSymbols]

/-- Ascending byte value. -/
theorem allSymbols_sorted : allSymbols.Pairwise (fun x y => x.toNat < y.toNat) := by
  unfold allSymbols
  rw [List.pairwise_map]
  refine List.Pairwise.imp_of_mem ?_ List.pairwise_lt_range
  intro a b ha hb h
  rw [List.mem_range] at ha hb
  simp only [BitVec.toNat_ofNat]
  omega

theorem allSymbols_nodup : allSymbols.Nodup :=
  allSymbols_sorted.imp (fun h e => by simp [e] at h)

/-- Distinct symbols are at most 256. -/
theorem length_le_of_nodup {l : List Symbol} (h : l.Nodup) : l.length ≤ 256 := by
  have := (h.subperm fun x _ => mem_allSymbols x).length_le
  simpa using this

@[simp] theorem entryAt_setEntry (t : Vector CodeEntry 256) (x y : Symbol) (e : CodeEntry) :
    entryAt (setEntry t x e) y = if y = x then e else entryAt t y := by
  unfold entryAt setEntry
  rw [Vector.getElem_set]
  by_cases h : y = x
  · simp [h]
  · rw [if_neg h, if_neg (fun e => h (BitVec.eq_of_toNat_eq e.symm))]

@[simp] theorem entryAt_emptyCodes (x : Symbol) : entryAt emptyCodes x = CodeEntry.absent := by
  unfold entryAt emptyCodes
  exact Vector.getElem_replicate _

/-- Two tables with equal entries are equal. -/
theorem codes_ext {t u : Vector CodeEntry 256} (h : ∀ x, entryAt t x = entryAt u x) : t = u := by
  apply Vector.ext
  intro i hi
  have := h (BitVec.ofNat 8 i)
  unfold entryAt at this
  have hm : (BitVec.ofNat 8 i).toNat = i := by simp; omega
  simpa [hm] using this

theorem codeOf_eq (s : State) (x : Symbol) : codeOf s x = entryAt s.codes x := rfl

@[simp] theorem codeOf_setCodes (s : State) (t : Vector CodeEntry 256) (x : Symbol) :
    codeOf (setCodes t s) x = entryAt t x := rfl

theorem freqOf_setFreq (s : State) (x y : Symbol) (v : Word) :
    freqOf (setFreq x v s) y = if y = x then v else freqOf s y := by
  unfold freqOf setFreq
  simp only [Vector.getElem_set]
  by_cases h : y = x
  · simp [h]
  · rw [if_neg h, if_neg (fun e => h (BitVec.eq_of_toNat_eq e.symm))]

@[simp] theorem freqOf_clearFreq (s : State) (x : Symbol) : freqOf (clearFreq s) x = 0 := by
  unfold freqOf clearFreq
  exact Vector.getElem_replicate _

@[simp] theorem leafSyms_length (n : Slot) : (leafSyms n).length = leafCount n := by
  induction n with
  | none => rfl
  | leaf w x => rfl
  | internal w l r ihl ihr => simp [leafSyms, leafCount, ihl, ihr]

theorem entryOk_absent : entryOk CodeEntry.absent := by simp [entryOk, CodeEntry.absent]

end Sys2Proof.Machine
end

