-- ==== Sys2Proof/Laws/Build.lean ====
section
/-! SUPPORT. BUILD: the queue keeps key order, merging keeps leaves and weight, and the shape of the tree it ends with
(41_tree_builder.md R130–R134). -/

namespace Sys2Proof.Machine

/-! ## The queue -/

theorem keyLt_iff {x y : QueueItem} : keyLt x y = true ↔
    ((slotWeight x.node).toNat < (slotWeight y.node).toNat
      ∨ ((slotWeight x.node).toNat = (slotWeight y.node).toNat ∧ x.seq < y.seq)) := by
  simp [keyLt]

theorem keyLt_trans {x y z : QueueItem} (h : keyLt x y = true) (k : keyLt y z = true) : keyLt x z = true := by
  rw [keyLt_iff] at *
  omega

theorem keyLt_asymm {x y : QueueItem} (h : keyLt x y = true) : ¬ keyLt y x = true := by
  rw [keyLt_iff] at *
  omega

/-- With different seq numbers one of two keys is below the other (R131). -/
theorem keyLt_total {x y : QueueItem} (h : x.seq ≠ y.seq) : keyLt x y = true ∨ keyLt y x = true := by
  rw [keyLt_iff, keyLt_iff]
  omega

theorem insertItem_perm (x : QueueItem) (q : List QueueItem) : (insertItem x q).Perm (x :: q) := by
  induction q with
  | nil => exact List.Perm.refl _
  | cons y q ih =>
    simp only [insertItem]
    split
    · exact List.Perm.refl _
    · exact (ih.cons y).trans (List.Perm.swap x y q)

@[simp] theorem insertItem_length (x : QueueItem) (q : List QueueItem) : (insertItem x q).length = q.length + 1 := by
  simpa using (insertItem_perm x q).length_eq

/-- Key order. -/
abbrev KeySorted (q : List QueueItem) : Prop := q.Pairwise (fun x y => keyLt x y = true)

theorem insertItem_sorted {x : QueueItem} {q : List QueueItem} (h : KeySorted q) (hx : ∀ y ∈ q, y.seq ≠ x.seq) :
    KeySorted (insertItem x q) := by
  induction q with
  | nil => simp [insertItem]
  | cons y q ih =>
    obtain ⟨hy, hq⟩ := List.pairwise_cons.1 h
    simp only [insertItem]
    split
    · next hlt =>
      refine List.pairwise_cons.2 ⟨fun z hz => ?_, h⟩
      rcases List.mem_cons.1 hz with rfl | hz
      · exact hlt
      · exact keyLt_trans hlt (hy z hz)
    · next hnlt =>
      refine List.pairwise_cons.2 ⟨fun z hz => ?_, ih hq fun z hz => hx z (by simp [hz])⟩
      rcases List.mem_cons.1 ((insertItem_perm x q).mem_iff.1 hz) with rfl | hz
      · exact (keyLt_total (hx y (by simp))).resolve_right hnlt
      · exact hy z hz

/-! ## Merging -/

/-- What every merge keeps, the whole merging keeps. -/
theorem mergeAll_invariant (I : Nat → List QueueItem → Prop)
    (step : ∀ k x y q, I k (x :: y :: q) → I (k + 1) (insertItem { node := mergeNodes x.node y.node, seq := k } q))
    {f k : Nat} {q : List QueueItem} (h : I k q) : ∃ j, I j (mergeAll f k q) := by
  induction f generalizing k q with
  | zero => exact ⟨k, h⟩
  | succ f ih =>
    match q, h with
    | [], h => exact ⟨k, h⟩
    | [x], h => exact ⟨k, h⟩
    | x :: y :: q, h => exact ih (step k x y q h)

/-- With as many merges as nodes at most one node is left, and one is left of any. -/
theorem mergeAll_length {f k : Nat} {q : List QueueItem} (h : q.length ≤ f + 1) :
    (mergeAll f k q).length ≤ 1 ∧ (mergeAll f k q = [] → q = []) := by
  induction f generalizing k q with
  | zero => exact ⟨by simpa [mergeAll] using h, by simp [mergeAll]⟩
  | succ f ih =>
    match q, h with
    | [], _ => simp [mergeAll]
    | [x], _ => simp [mergeAll]
    | x :: y :: q, h =>
      simp only [List.length_cons] at h
      obtain ⟨h1, h2⟩ := ih (k := k + 1) (q := insertItem { node := mergeNodes x.node y.node, seq := k } q)
        (by rw [insertItem_length]; omega)
      refine ⟨h1, fun he => ?_⟩
      have := congrArg List.length (h2 he)
      simp at this

/-! ## The leaves BUILD starts from -/

/-- The symbols of a list that FREQ holds. -/
def presentIn (s : State) (l : List Symbol) : List Symbol := l.filter (fun x => freqOf s x ≠ 0)

theorem presentIn_cons {s : State} {x : Symbol} (h : freqOf s x ≠ 0) (l : List Symbol) :
    presentIn s (x :: l) = x :: presentIn s l := List.filter_cons_of_pos (by simpa using h)

/-- The leaf of a symbol. -/
def leafOf (s : State) (x : Symbol) : Slot := .leaf ((freqOf s x).setWidth 40) x

@[simp] theorem leafOf_weight (s : State) (x : Symbol) : (slotWeight (leafOf s x)).toNat = (freqOf s x).toNat := by
  have := (freqOf s x).isLt
  simp only [leafOf, slotWeight, BitVec.toNat_setWidth]
  omega

/-- The leaves with their seq numbers, in ascending byte value. -/
def leafItems (s : State) : Nat → List Symbol → List QueueItem
  | _, [] => []
  | k, x :: l => { node := leafOf s x, seq := k } :: leafItems s (k + 1) l

theorem leafItems_nodes (s : State) (k : Nat) (l : List Symbol) :
    (leafItems s k l).map (·.node) = l.map (leafOf s) := by
  induction l generalizing k with
  | nil => rfl
  | cons x l ih => simp [leafItems, ih]

theorem leafItems_seq_le {s : State} {k : Nat} {l : List Symbol} {i : QueueItem} (h : i ∈ leafItems s k l) :
    k ≤ i.seq ∧ i.seq < k + l.length := by
  induction l generalizing k with
  | nil => simp [leafItems] at h
  | cons x l ih =>
    rcases List.mem_cons.1 h with rfl | h
    · simp
    · have := ih h
      simp only [List.length_cons]
      omega

theorem leafItems_sorted (s : State) (k : Nat) (l : List Symbol) :
    (leafItems s k l).Pairwise (fun x y => x.seq < y.seq) := by
  induction l generalizing k with
  | nil => simp [leafItems]
  | cons x l ih =>
    refine List.pairwise_cons.2 ⟨fun i hi => ?_, ih (k + 1)⟩
    have := leafItems_seq_le hi
    show k < i.seq
    omega

/-- The queue of leaves: in key order, holding the leaf of each present symbol once, numbered in ascending byte value
(R130). -/
theorem insertLeaves_spec {s : State} {l : List Symbol} {k : Nat} {q : List QueueItem} (hq : KeySorted q)
    (hk : ∀ i ∈ q, i.seq < k) :
    (insertLeaves s l k q).1 = k + (presentIn s l).length ∧ KeySorted (insertLeaves s l k q).2
      ∧ (insertLeaves s l k q).2.Perm (q ++ leafItems s k (presentIn s l)) := by
  induction l generalizing k q with
  | nil => exact ⟨rfl, hq, by simp [insertLeaves, presentIn, leafItems]⟩
  | cons x l ih =>
    simp only [insertLeaves]
    by_cases hx : freqOf s x = 0
    · rw [if_pos hx]
      simpa [presentIn, hx] using ih hq hk
    · rw [if_neg hx]
      have hp : presentIn s (x :: l) = x :: presentIn s l := presentIn_cons hx l
      have hi := insertItem_perm { node := leafOf s x, seq := k } q
      obtain ⟨h1, h2, h3⟩ := ih (k := k + 1) (q := insertItem { node := leafOf s x, seq := k } q)
        (insertItem_sorted hq fun y hy => Nat.ne_of_lt (hk y hy)) (fun i hm => by
          rcases List.mem_cons.1 (hi.mem_iff.1 hm) with rfl | hm
          · exact Nat.lt_succ_self _
          · exact Nat.lt_succ_of_lt (hk i hm))
      rw [hp]
      refine ⟨by rw [List.length_cons]; exact h1.trans (by omega), h2, h3.trans ?_⟩
      refine (hi.append_right _).trans ?_
      simpa [leafItems] using List.perm_middle.symm

/-- What BUILD starts merging: the queue of all present leaves. -/
theorem initialQueue_spec (s : State) :
    (insertLeaves s allSymbols 0 []).1 = (presentIn s allSymbols).length
      ∧ KeySorted (insertLeaves s allSymbols 0 []).2
      ∧ (insertLeaves s allSymbols 0 []).2.Perm (leafItems s 0 (presentIn s allSymbols)) := by
  simpa using insertLeaves_spec (s := s) (l := allSymbols) (k := 0) (q := []) List.Pairwise.nil (by simp)

/-- BUILD reads only FREQ (R136). -/
theorem insertLeaves_congr {s t : State} (h : s.freq = t.freq) (l : List Symbol) (k : Nat) (q : List QueueItem) :
    insertLeaves s l k q = insertLeaves t l k q := by
  have hf : ∀ x, freqOf s x = freqOf t x := fun x => by simp [freqOf, h]
  induction l generalizing k q with
  | nil => rfl
  | cons x l ih => simp only [insertLeaves, hf, ih]

theorem builtTree_congr {s t : State} (h : s.freq = t.freq) : builtTree s = builtTree t := by
  simp only [builtTree, builtQueue, insertLeaves_congr h]

/-! ## Weights -/

/-- The sum of FREQ over a list of symbols. -/
def freqSumOf (s : State) (l : List Symbol) : Nat := (l.map (fun x => (freqOf s x).toNat)).sum

theorem freqSumOf_append (s : State) (l m : List Symbol) : freqSumOf s (l ++ m) = freqSumOf s l + freqSumOf s m := by
  simp [freqSumOf]

theorem freqSumOf_perm {s : State} {l m : List Symbol} (h : l.Perm m) : freqSumOf s l = freqSumOf s m :=
  (h.map _).sum_eq

theorem freqSumOf_le (s : State) (l : List Symbol) : freqSumOf s l ≤ l.length * (2 ^ 32 - 1) := by
  induction l with
  | nil => simp [freqSumOf]
  | cons x l ih =>
    have := (freqOf s x).isLt
    simp only [freqSumOf, List.map_cons, List.sum_cons, List.length_cons] at *
    omega

/-- Absent symbols add nothing. -/
theorem freqSumOf_present (s : State) (l : List Symbol) : freqSumOf s (presentIn s l) = freqSumOf s l := by
  induction l with
  | nil => rfl
  | cons x l ih =>
    by_cases hx : freqOf s x = 0
    · simp only [presentIn, ne_eq, hx, not_true_eq_false, decide_false, Bool.false_eq_true, not_false_eq_true,
        List.filter_cons_of_neg]
      rw [show freqSumOf s (x :: l) = freqSumOf s l by simp [freqSumOf, hx]]
      exact ih
    · rw [show presentIn s (x :: l) = x :: presentIn s l from presentIn_cons hx l]
      simp only [freqSumOf, List.map_cons, List.sum_cons] at *
      omega

theorem freqSum_eq (s : State) : freqSum s = freqSumOf s allSymbols := rfl

/-- The sum of all FREQ entries fits 40 bits (R130). -/
theorem freqSum_lt (s : State) : freqSum s < 2 ^ 40 := by
  have := freqSumOf_le s allSymbols
  rw [allSymbols_length] at this
  rw [freqSum_eq]
  omega

/-! ## The shape of the tree -/

/-- The leaves of all nodes of a queue. -/
def queueSyms (q : List QueueItem) : List Symbol := q.flatMap (fun i => leafSyms i.node)

/-- A node the merging makes of FREQ: no empty slot, weights that are sums. -/
def Grown (s : State) (n : Slot) : Prop :=
  slotFull n = true ∧ weightsAreSums s n ∧ (slotWeight n).toNat = freqSumOf s (leafSyms n)

theorem grown_leaf (s : State) (x : Symbol) : Grown s (leafOf s x) :=
  ⟨rfl, leafOf_weight s x, by rw [leafOf_weight]; simp [leafSyms, freqSumOf, leafOf]⟩

/-- Merging two grown nodes whose leaves fit the weight gives a grown node. -/
theorem grown_merge {s : State} {a b : Slot} (ha : Grown s a) (hb : Grown s b)
    (hlt : freqSumOf s (leafSyms a ++ leafSyms b) < 2 ^ 40) : Grown s (mergeNodes a b) := by
  obtain ⟨ha1, ha2, ha3⟩ := ha
  obtain ⟨hb1, hb2, hb3⟩ := hb
  have hw : (slotWeight a + slotWeight b).toNat = freqSumOf s (leafSyms a ++ leafSyms b) := by
    rw [freqSumOf_append] at *
    rw [BitVec.toNat_add, ha3, hb3]
    exact Nat.mod_eq_of_lt hlt
  exact ⟨by simp [mergeNodes, slotFull, ha1, hb1], ⟨hw, ha2, hb2⟩, hw⟩

/-- Every merge keeps: all nodes grown, and the leaves of the queue. -/
theorem grown_step {s : State} {k : Nat} {x y : QueueItem} {q : List QueueItem}
    (h : (∀ i ∈ x :: y :: q, Grown s i.node) ∧ (queueSyms (x :: y :: q)).Perm (presentIn s allSymbols)) :
    (∀ i ∈ insertItem { node := mergeNodes x.node y.node, seq := k } q, Grown s i.node)
      ∧ (queueSyms (insertItem { node := mergeNodes x.node y.node, seq := k } q)).Perm (presentIn s allSymbols) := by
  obtain ⟨hg, hp⟩ := h
  have hi := insertItem_perm { node := mergeNodes x.node y.node, seq := k } q
  constructor
  · intro i hm
    rcases List.mem_cons.1 (hi.mem_iff.1 hm) with rfl | hm
    · refine grown_merge (hg x (by simp)) (hg y (by simp)) ?_
      have hs := freqSumOf_perm (s := s) hp
      rw [freqSumOf_present, ← freqSum_eq] at hs
      have hl := freqSum_lt s
      simp only [queueSyms, List.flatMap_cons, freqSumOf_append] at *
      omega
    · exact hg i (by simp [hm])
  · refine (hi.flatMap_right _).trans ?_
    simpa [queueSyms, mergeNodes, leafSyms] using hp

/-- What BUILD starts from: grown nodes whose leaves are the present symbols. -/
theorem initialQueue_grown (s : State) : (∀ j ∈ (insertLeaves s allSymbols 0 []).2, Grown s j.node)
    ∧ (queueSyms (insertLeaves s allSymbols 0 []).2).Perm (presentIn s allSymbols) := by
  obtain ⟨-, -, h3⟩ := initialQueue_spec s
  constructor
  · intro j hj
    have : j.node ∈ (presentIn s allSymbols).map (leafOf s) := by
      rw [← leafItems_nodes s 0]
      exact List.mem_map_of_mem (h3.mem_iff.1 hj)
    obtain ⟨x, -, hx⟩ := List.mem_map.1 this
    rw [← hx]
    exact grown_leaf s x
  · refine (h3.flatMap_right _).trans (List.Perm.of_eq ?_)
    have : ∀ (k : Nat) (l : List Symbol), queueSyms (leafItems s k l) = l := by
      intro k l
      induction l generalizing k with
      | nil => rfl
      | cons x l ih => simpa [queueSyms, leafItems, leafOf, leafSyms] using ih (k + 1)
    exact this 0 _

/-- What BUILD ends with: nothing when FREQ is all 0, else one grown node whose leaves are the present symbols. -/
theorem builtQueue_spec (s : State) :
    (presentIn s allSymbols = [] ∧ builtQueue s = [])
    ∨ ∃ i, builtQueue s = [i] ∧ Grown s i.node ∧ (leafSyms i.node).Perm (presentIn s allSymbols) := by
  obtain ⟨h1, h2, h3⟩ := initialQueue_spec s
  have hlen : (insertLeaves s allSymbols 0 []).2.length = (insertLeaves s allSymbols 0 []).1 := by
    rw [h1, h3.length_eq, ← List.length_map (f := (·.node)), leafItems_nodes, List.length_map]
  have hb : builtQueue s = mergeAll (insertLeaves s allSymbols 0 []).1 (insertLeaves s allSymbols 0 []).1
      (insertLeaves s allSymbols 0 []).2 := rfl
  obtain ⟨hl, hne⟩ := mergeAll_length (f := (insertLeaves s allSymbols 0 []).1)
    (k := (insertLeaves s allSymbols 0 []).1) (q := (insertLeaves s allSymbols 0 []).2) (by omega)
  obtain ⟨-, hg, hp⟩ := mergeAll_invariant
    (fun _ q => (∀ i ∈ q, Grown s i.node) ∧ (queueSyms q).Perm (presentIn s allSymbols))
    (fun k x y q h => grown_step h)
    (f := (insertLeaves s allSymbols 0 []).1) (k := (insertLeaves s allSymbols 0 []).1)
    (q := (insertLeaves s allSymbols 0 []).2)
    (initialQueue_grown s)
  rw [← hb] at hl hne hg hp
  match hq : builtQueue s with
  | [] =>
    rw [hq] at hne
    have := hne rfl
    rw [this] at h3
    have := h3.symm.eq_nil
    have h4 := leafItems_nodes s 0 (presentIn s allSymbols)
    rw [this] at h4
    exact .inl ⟨List.map_eq_nil_iff.1 h4.symm, rfl⟩
  | [i] =>
    rw [hq] at hg hp
    exact .inr ⟨i, rfl, hg i (by simp), by simpa [queueSyms] using hp⟩
  | i :: j :: q =>
    rw [hq] at hl
    simp at hl

theorem mem_presentIn {s : State} {x : Symbol} : x ∈ presentIn s allSymbols ↔ freqOf s x ≠ 0 := by
  simp [presentIn, mem_allSymbols]

theorem presentIn_nodup (s : State) : (presentIn s allSymbols).Nodup := allSymbols_nodup.filter _

theorem full_ne_none {n : Slot} (h : slotFull n = true) : n ≠ .none := by
  rintro rfl
  simp [slotFull] at h

theorem full_live {n : Slot} (h : slotFull n = true) : slotLive n = true := by
  induction n with
  | none => rfl
  | leaf w x => rfl
  | internal w l r ihl ihr =>
    simp only [slotFull, Bool.and_eq_true] at h
    simp [slotLive, ihl h.1, ihr h.2, full_ne_none h.1]

/-- A full tree has one internal node less than leaves (R134). -/
theorem full_internalCount {n : Slot} (h : slotFull n = true) : internalCount n + 1 = leafCount n := by
  induction n with
  | none => simp [slotFull] at h
  | leaf w x => rfl
  | internal w l r ihl ihr =>
    simp only [slotFull, Bool.and_eq_true] at h
    have := ihl h.1
    have := ihr h.2
    simp only [internalCount, leafCount]
    omega

/-- A full tree is less deep than it has leaves (R134). -/
theorem full_depth {n : Slot} (h : slotFull n = true) : slotDepth n + 1 ≤ leafCount n := by
  induction n with
  | none => simp [slotFull] at h
  | leaf w x => simp [slotDepth, leafCount]
  | internal w l r ihl ihr =>
    simp only [slotFull, Bool.and_eq_true] at h
    have := ihl h.1
    have := ihr h.2
    simp only [slotDepth, leafCount]
    omega

/-- The tree BUILD makes: `Empty` when FREQ is all 0, else a grown tree over the present symbols. -/
theorem builtTree_spec (s : State) :
    (builtTree s = .empty ∧ ∀ x, freqOf s x = 0)
    ∨ ∃ n, builtTree s = .root n ∧ Grown s n ∧ (leafSyms n).Nodup ∧ (∀ x, x ∈ leafSyms n ↔ freqOf s x ≠ 0)
        ∧ (leafSyms n).Perm (presentIn s allSymbols) ∧ leafCount n ≤ 256 := by
  rcases builtQueue_spec s with ⟨h1, h2⟩ | ⟨i, h1, h2, h3⟩
  · refine .inl ⟨by simp [builtTree, h2], fun x => ?_⟩
    by_contra hx
    have := mem_presentIn.2 hx
    simp [h1] at this
  · have hn := h3.nodup_iff.2 (presentIn_nodup s)
    refine .inr ⟨i.node, by simp [builtTree, h1], h2, hn, fun x => by rw [h3.mem_iff, mem_presentIn], h3, ?_⟩
    simpa using length_le_of_nodup hn

/-- The tree BUILD makes is one R34 allows. -/
theorem treeOk_builtTree (s : State) : treeOk (builtTree s) := by
  rcases builtTree_spec s with ⟨h, -⟩ | ⟨n, h, hg, hn, -, -, hc⟩
  · simp [h, treeOk]
  · rw [h]
    have := full_depth hg.1
    exact ⟨full_ne_none hg.1, full_live hg.1, hn, by omega⟩

/-- TOTAL after BUILD: the sum of all FREQ entries (10_state.md R36). -/
theorem builtTree_weight (s : State) : (treeWeight (builtTree s)).toNat = freqSum s := by
  rcases builtTree_spec s with ⟨h, h0⟩ | ⟨n, h, hg, -, -, hp, -⟩
  · have : freqSumOf s (presentIn s allSymbols) = 0 := by
      rw [show presentIn s allSymbols = [] from List.filter_eq_nil_iff.2 fun x _ => by simp [h0 x]]
      rfl
    rw [h, freqSum_eq, ← freqSumOf_present, this]
    rfl
  · rw [h, treeWeight, hg.2.2, freqSumOf_perm hp, freqSumOf_present, freqSum_eq]

end Sys2Proof.Machine
end

