-- ==== Sys2Proof/Laws/Memory.lean ====
section
/-! SUPPORT. Buffers: read after write, the canonical form, and rewriting. -/

namespace Sys2Proof.Machine

/-- A write sets its own byte and no other. -/
@[simp] theorem Memory.read_write (m : Memory) (a b : Nat) (v : Byte) :
    Memory.read (Memory.write m a v) b = if b = a then some v else Memory.read m b := by
  induction m with
  | nil => simp [Memory.write, Memory.read]
  | cons c m ih =>
    obtain ⟨d, u⟩ := c
    simp only [Memory.write]
    split
    · simp [Memory.read]
    · split
      · subst_vars
        simp only [Memory.read]
        split <;> rfl
      · simp only [Memory.read, ih]
        split
        · split
          · omega
          · rfl
        · rfl

/-- What a write lists: its own entry, and entries listed before. -/
theorem Memory.mem_write {m : Memory} {a : Nat} {v : Byte} {c : Host.Cell} (h : c ∈ Memory.write m a v) :
    c = (a, v) ∨ c ∈ m := by
  induction m with
  | nil => simpa [Memory.write] using h
  | cons d m ih =>
    obtain ⟨d, u⟩ := d
    simp only [Memory.write] at h
    split at h
    · simpa using h
    · split at h
      · rcases List.mem_cons.1 h with h | h
        · exact .inl h
        · exact .inr (List.mem_cons_of_mem _ h)
      · rcases List.mem_cons.1 h with h | h
        · exact .inr (by simp [h])
        · exact (ih h).imp_right (List.mem_cons_of_mem _)

/-- A write keeps the canonical form. -/
theorem Memory.wf_write {m : Memory} (h : Memory.wf m) (a : Nat) (v : Byte) : Memory.wf (Memory.write m a v) := by
  induction m with
  | nil => simp [Memory.write]
  | cons c m ih =>
    obtain ⟨b, u⟩ := c
    obtain ⟨hb, hm⟩ := List.pairwise_cons.1 h
    simp only [Memory.write]
    split
    · next hlt =>
      refine List.pairwise_cons.2 ⟨fun c hc => ?_, h⟩
      rcases List.mem_cons.1 hc with rfl | hc
      · exact hlt
      · exact Nat.lt_trans hlt (hb c hc)
    · split
      · next heq => exact List.pairwise_cons.2 ⟨fun c hc => by simpa [heq] using hb c hc, hm⟩
      · refine List.pairwise_cons.2 ⟨fun c hc => ?_, ih hm⟩
        rcases Memory.mem_write hc with rfl | hc
        · show b < a
          omega
        · exact hb c hc

/-- The buffer already holds `v` at `a`, where a write of `a` would find it. -/
def Memory.Holds (m : Memory) (a : Nat) (v : Byte) : Prop := Memory.write m a v = m

theorem Memory.holds_write (m : Memory) (a : Nat) (v : Byte) : Memory.Holds (Memory.write m a v) a v := by
  unfold Memory.Holds
  induction m with
  | nil => simp [Memory.write]
  | cons c m ih =>
    obtain ⟨b, u⟩ := c
    simp only [Memory.write]
    split
    · simp [Memory.write]
    · split
      · simp [Memory.write]
      · simp_all [Memory.write]

/-- A write of another byte leaves a held byte held. -/
theorem Memory.Holds.write {m : Memory} {a b : Nat} {v u : Byte} (h : Memory.Holds m a v) (hab : a ≠ b) :
    Memory.Holds (Memory.write m b u) a v := by
  unfold Memory.Holds at *
  induction m with
  | nil => simp [Memory.write] at h
  | cons c m ih =>
    obtain ⟨d, w⟩ := c
    simp only [Memory.write] at h
    split at h
    · next hlt => injection h with h1 h2; simp at h1; omega
    · split at h
      · next heq =>
        injection h with h1 h2
        obtain ⟨-, rfl⟩ := Prod.mk.injEq .. ▸ h1
        subst heq
        simp only [Memory.write]
        split
        · simp [Memory.write, show ¬ a < b by omega, hab]
        · simp [Memory.write, show ¬ b = a from fun e => hab e.symm]
      · next hlt hne =>
        injection h with h1 h2
        simp only [Memory.write]
        split
        · simp only [Memory.write]
          rw [if_neg (by omega), if_neg hab, if_neg hlt, if_neg hne, h2]
        · split
          · subst_vars
            simp only [Memory.write]
            rw [if_neg hlt, if_neg hne, h2]
          · simp only [Memory.write]
            rw [if_neg hlt, if_neg hne, ih h2]

/-- Writing the same word twice is writing it once. -/
theorem Memory.writeWord_idem (m : Memory) (i : Nat) (v : Word) :
    Memory.writeWord (Memory.writeWord m i v) i v = Memory.writeWord m i v := by
  unfold Memory.writeWord
  rw [(((Memory.holds_write m i _).write (by omega)).write (by omega)).write (by omega),
    ((Memory.holds_write _ (i + 1) _).write (by omega)).write (by omega),
    (Memory.holds_write _ (i + 2) _).write (by omega), Memory.holds_write _ (i + 3) _]

theorem Memory.wf_writeWord {m : Memory} (h : Memory.wf m) (i : Nat) (v : Word) : Memory.wf (Memory.writeWord m i v) :=
  Memory.wf_write (Memory.wf_write (Memory.wf_write (Memory.wf_write h _ _) _ _) _ _) _ _

theorem Memory.lt_writeWord {m : Memory} {n i : Nat} (v : Word) (h : ∀ c ∈ m, c.1 < n) (hi : i + 3 < n) :
    ∀ c ∈ Memory.writeWord m i v, c.1 < n := by
  intro c hc
  unfold Memory.writeWord at hc
  rcases Memory.mem_write hc with rfl | hc
  · exact hi
  rcases Memory.mem_write hc with rfl | hc
  · show i + 2 < n
    omega
  rcases Memory.mem_write hc with rfl | hc
  · show i + 1 < n
    omega
  rcases Memory.mem_write hc with rfl | hc
  · show i < n
    omega
  · exact h c hc

/-- A word write seen byte by byte. -/
theorem Memory.read_writeWord (m : Memory) (i b : Nat) (v : Word) :
    Memory.read (Memory.writeWord m i v) b
      = if b = i + 3 then some (v.extractLsb' 0 8) else if b = i + 2 then some (v.extractLsb' 8 8)
        else if b = i + 1 then some (v.extractLsb' 16 8) else if b = i then some (v.extractLsb' 24 8)
        else Memory.read m b := by
  simp only [Memory.writeWord, Memory.read_write]

/-- `MemRead` of OUT after `MemWrite`. -/
@[simp] theorem outByte_writeOut (s : State) (i j : Nat) (v : Byte) :
    outByte (writeOut i v s) j = if j = i then v else outByte s j := by
  simp only [outByte, writeOut, Memory.read_write]
  split <;> rfl

/-- A read of OUT depends on the buffer and the free values alone. -/
theorem outByte_congr {s t : State} (hb : t.outBuf = s.outBuf) (hd : t.draws = s.draws) (i : Nat) :
    outByte t i = outByte s i := by simp [outByte, hb, hd]

/-- A read of IN depends on the buffer and the free values alone. -/
theorem inByte_congr {s t : State} (hb : t.inBuf = s.inBuf) (hd : t.draws = s.draws) (i : Nat) :
    inByte t i = inByte s i := by simp [inByte, hb, hd]

end Sys2Proof.Machine
end

