-- ==== Sys2Proof/Laws/Stream.lean ====
section
/-! SUPPORT. Bit-strings and the stream primitives: values, one appended bit, a whole appended bit-string. -/

namespace Sys2Proof.Machine

/-! ## Rounding -/

theorem up8_eq (x : Nat) : up8 x = 8 * ((x + 7) / 8) := rfl

theorem up8_le {x n : Nat} (h : x ≤ 8 * n) : up8 x ≤ 8 * n := by rw [up8_eq]; omega

/-! ## Bit-strings -/

@[simp] theorem bitsOf_length (v : CodeWord) (n : Nat) : (bitsOf v n).length = n := by
  induction n with
  | zero => rfl
  | succ n ih => simp [bitsOf, ih]

/-- Bit `i` of a bit-string is bit `n-1-i` of its value: first bit most significant. -/
theorem bitsOf_getD {v : CodeWord} {n i : Nat} (h : i < n) : (bitsOf v n).getD i false = v.getLsbD (n - 1 - i) := by
  induction n generalizing i with
  | zero => omega
  | succ n ih =>
    cases i with
    | zero => simp [bitsOf]
    | succ i =>
      simp only [bitsOf, List.getD_cons_succ]
      rw [ih (by omega)]
      congr 1
      omega

theorem codeVal_concat (c : List Bool) (b : Bool) : codeVal (c ++ [b]) = 2 * codeVal c + b.toNat := by
  simp [codeVal, List.foldl_append]

theorem codeVal_cons (b : Bool) (c : List Bool) : codeVal (b :: c) = b.toNat * 2 ^ c.length + codeVal c := by
  induction c using List.reverseRecOn with
  | nil => simp [codeVal]
  | append_singleton c d ih =>
    rw [← List.cons_append, codeVal_concat, codeVal_concat, ih]
    simp [pow_succ]
    ring

theorem codeVal_lt (c : List Bool) : codeVal c < 2 ^ c.length := by
  induction c using List.reverseRecOn with
  | nil => simp [codeVal]
  | append_singleton c d ih =>
    rw [codeVal_concat]
    have := d.toNat_lt
    simp [pow_succ]
    omega

/-- Bit `k` of a value is the bit that stands `k` places before the end. -/
theorem codeVal_testBit (c : List Bool) (k : Nat) :
    (codeVal c).testBit k = (decide (k < c.length) && c.getD (c.length - 1 - k) false) := by
  induction c using List.reverseRecOn generalizing k with
  | nil => simp [codeVal]
  | append_singleton c d ih =>
    rw [codeVal_concat]
    cases k with
    | zero => cases d <;> simp [Nat.testBit_zero]
    | succ k =>
      have : (2 * codeVal c + d.toNat) / 2 = codeVal c := by have := d.toNat_lt; omega
      rw [Nat.testBit_succ, this, ih]
      by_cases hk : k < c.length
      · have h1 : c.length + 1 - 1 - (k + 1) = c.length - 1 - k := by omega
        simp only [List.length_append, List.length_singleton, hk, h1, Nat.add_lt_add_iff_right]
        rw [List.getD_append _ _ _ _ (by omega)]
      · simp [hk]

/-- A code of at most 255 bits is what its stored value and length give back (00_scope.md R9). -/
theorem bitsOf_codeVal {c : List Bool} (h : c.length ≤ 255) : bitsOf (BitVec.ofNat 255 (codeVal c)) c.length = c := by
  apply List.ext_getElem (by simp)
  intro i h1 h2
  have hb := bitsOf_getD (v := BitVec.ofNat 255 (codeVal c)) h2
  rw [List.getD_eq_getElem _ _ h1] at hb
  rw [hb, BitVec.getLsbD_ofNat, codeVal_testBit]
  have e : c.length - 1 - (c.length - 1 - i) = i := by omega
  rw [e, List.getD_eq_getElem _ _ h2]
  have : c.length - 1 - i < 255 := by omega
  have : c.length - 1 - i < c.length := by omega
  simp [*]

/-- A code word below `2^n` is the value of its own bits. -/
theorem codeVal_bitsOf {v : CodeWord} {n : Nat} (h : v.toNat < 2 ^ n) : codeVal (bitsOf v n) = v.toNat := by
  apply Nat.eq_of_testBit_eq
  intro k
  rw [codeVal_testBit, bitsOf_length]
  by_cases hk : k < n
  · rw [bitsOf_getD (by omega), show n - 1 - (n - 1 - k) = k by omega]
    simp [hk, BitVec.getLsbD]
  · have : v.toNat < 2 ^ k := Nat.lt_of_lt_of_le h (Nat.pow_le_pow_right (by omega) (by omega))
    simp [hk, Nat.testBit_lt_two_pow this]

/-- A legal entry is determined by its bits. -/
theorem entry_eq_of_codeBits {e f : CodeEntry} (he : entryOk e) (hf : entryOk f) (hp : e.present = f.present)
    (hb : e.present = true → codeBits e = codeBits f) : e = f := by
  obtain ⟨ep, ec, ew⟩ := e
  obtain ⟨fp, fc, fw⟩ := f
  simp only at hp hb
  subst hp
  cases ep with
  | false =>
    obtain ⟨rfl, rfl⟩ := he.2 rfl
    obtain ⟨rfl, rfl⟩ := hf.2 rfl
    rfl
  | true =>
    have hb := hb rfl
    simp only [codeBits] at hb
    have hl : ec = fc := BitVec.eq_of_toNat_eq (by simpa using congrArg List.length hb)
    subst hl
    have hw : ew = fw := BitVec.eq_of_toNat_eq (by
      rw [← codeVal_bitsOf he.1, ← codeVal_bitsOf hf.1, hb])
    subst hw
    rfl

/-! ## Input -/

@[simp] theorem storedBits_length (s : State) (p n : Nat) : (storedBits s p n).length = n := by
  induction n generalizing p with
  | zero => rfl
  | succ n ih => simp [storedBits, ih]

theorem storedBits_getD {s : State} {p n i : Nat} (h : i < n) :
    (storedBits s p n).getD i false = storedBit s (p + i) := by
  induction n generalizing p i with
  | zero => omega
  | succ n ih =>
    cases i with
    | zero => simp [storedBits]
    | succ i =>
      simp only [storedBits, List.getD_cons_succ]
      rw [ih (by omega)]
      congr 1
      omega

theorem storedBit_congr {s t : State} (hb : t.inBuf = s.inBuf) (hd : t.draws = s.draws) (p : Nat) :
    storedBit t p = storedBit s p := by simp [storedBit, inByte_congr hb hd]

theorem inBit_congr {s t : State} (hb : t.inBuf = s.inBuf) (hd : t.draws = s.draws) (hl : t.inLen = s.inLen) (p : Nat) :
    inBit t p = inBit s p := by simp [inBit, storedBit_congr hb hd, hl]

/-! ## One output bit -/

theorem setBit_getLsbD {v : Byte} {k i : Nat} {b : Bool} (hi : i < 8) :
    (setBit v k b).getLsbD i = if i = k then b else v.getLsbD i := by
  unfold setBit
  cases b <;> simp only [Bool.false_eq_true, if_false, if_true, BitVec.getLsbD_or, BitVec.getLsbD_and,
    BitVec.getLsbD_not, BitVec.getLsbD_shiftLeft, hi, decide_true, Bool.true_and, BitVec.getLsbD_one]
  · by_cases h : i = k
    · simp [h]
    · by_cases h2 : i < k
      · simp [h, h2]
      · simp [h, show ¬ i - k = 0 by omega]
  · by_cases h : i = k
    · simp [h]
    · by_cases h2 : i < k
      · simp [h, h2]
      · simp [h, show ¬ i - k = 0 by omega]

/-- `PutBit` changes OUT alone. -/
theorem putBit_eq (p : Nat) (b : Bool) (s : State) : putBit p b s = { s with outBuf := (putBit p b s).outBuf } := by
  unfold putBit
  split <;> rfl

@[simp] theorem putBit_obp (p : Nat) (b : Bool) (s : State) : (putBit p b s).obp = s.obp := by rw [putBit_eq]
@[simp] theorem putBit_draws (p : Nat) (b : Bool) (s : State) : (putBit p b s).draws = s.draws := by rw [putBit_eq]

theorem outByte_putBit_of_ne {p a : Nat} (b : Bool) (s : State) (h : a ≠ p / 8) :
    outByte (putBit p b s) a = outByte s a := by
  unfold putBit
  split <;> simp [h]

/-- `PutBit` seen bit by bit (20_memory.md R71). -/
theorem outBit_putBit (p : Nat) (b : Bool) (s : State) (j : Nat) :
    outBit (putBit p b s) j
      = if j = p then b else if p % 8 = 0 ∧ j / 8 = p / 8 then false else outBit s j := by
  unfold outBit
  by_cases hd : j / 8 = p / 8
  · unfold putBit
    by_cases h0 : p % 8 = 0
    · rw [if_pos h0, outByte_writeOut, if_pos hd, setBit_getLsbD (by omega)]
      by_cases hj : j = p
      · simp [hj, h0]
      · simp [hj, h0, hd, show ¬ 7 - j % 8 = 7 by omega]
    · rw [if_neg h0, outByte_writeOut, if_pos hd, setBit_getLsbD (by omega)]
      by_cases hj : j = p
      · simp [hj]
      · simp [hj, h0, hd, show ¬ 7 - j % 8 = 7 - p % 8 by omega]
  · rw [outByte_putBit_of_ne b s hd]
    have hj : j ≠ p := by rintro rfl; exact hd rfl
    simp [hj, hd]

/-! ## A whole bit-string -/

/-- Appending changes OBP and OUT alone. -/
theorem appendBits_eq (c : List Bool) (s : State) :
    appendBits c s = { s with obp := s.obp + BitVec.ofNat 32 c.length, outBuf := (appendBits c s).outBuf } := by
  induction c generalizing s with
  | nil => simp [appendBits]
  | cons b c ih =>
    rw [appendBits, ih, putBit_eq]
    simp only [advanceObp, List.length_cons, BitVec.add_assoc]
    congr 2
    apply BitVec.eq_of_toNat_eq
    simp [Nat.add_comm]

@[simp] theorem appendBits_obp (c : List Bool) (s : State) :
    (appendBits c s).obp = s.obp + BitVec.ofNat 32 c.length := by rw [appendBits_eq]
@[simp] theorem appendBits_cfg (c : List Bool) (s : State) : (appendBits c s).cfg = s.cfg := by rw [appendBits_eq]
@[simp] theorem appendBits_ie (c : List Bool) (s : State) : (appendBits c s).ie = s.ie := by rw [appendBits_eq]
@[simp] theorem appendBits_busy (c : List Bool) (s : State) : (appendBits c s).busy = s.busy := by rw [appendBits_eq]
@[simp] theorem appendBits_done (c : List Bool) (s : State) : (appendBits c s).done = s.done := by rw [appendBits_eq]
@[simp] theorem appendBits_err (c : List Bool) (s : State) : (appendBits c s).err = s.err := by rw [appendBits_eq]
@[simp] theorem appendBits_haz (c : List Bool) (s : State) : (appendBits c s).haz = s.haz := by rw [appendBits_eq]
@[simp] theorem appendBits_errcode (c : List Bool) (s : State) : (appendBits c s).errcode = s.errcode := by rw [appendBits_eq]
@[simp] theorem appendBits_errinfo (c : List Bool) (s : State) : (appendBits c s).errinfo = s.errinfo := by rw [appendBits_eq]
@[simp] theorem appendBits_cmdw (c : List Bool) (s : State) : (appendBits c s).cmdw = s.cmdw := by rw [appendBits_eq]
@[simp] theorem appendBits_arg0 (c : List Bool) (s : State) : (appendBits c s).arg0 = s.arg0 := by rw [appendBits_eq]
@[simp] theorem appendBits_res (c : List Bool) (s : State) : (appendBits c s).res = s.res := by rw [appendBits_eq]
@[simp] theorem appendBits_cnt (c : List Bool) (s : State) : (appendBits c s).cnt = s.cnt := by rw [appendBits_eq]
@[simp] theorem appendBits_inLen (c : List Bool) (s : State) : (appendBits c s).inLen = s.inLen := by rw [appendBits_eq]
@[simp] theorem appendBits_ibp (c : List Bool) (s : State) : (appendBits c s).ibp = s.ibp := by rw [appendBits_eq]
@[simp] theorem appendBits_codeSel (c : List Bool) (s : State) : (appendBits c s).codeSel = s.codeSel := by rw [appendBits_eq]
@[simp] theorem appendBits_freq (c : List Bool) (s : State) : (appendBits c s).freq = s.freq := by rw [appendBits_eq]
@[simp] theorem appendBits_codes (c : List Bool) (s : State) : (appendBits c s).codes = s.codes := by rw [appendBits_eq]
@[simp] theorem appendBits_ts (c : List Bool) (s : State) : (appendBits c s).ts = s.ts := by rw [appendBits_eq]
@[simp] theorem appendBits_total (c : List Bool) (s : State) : (appendBits c s).total = s.total := by rw [appendBits_eq]
@[simp] theorem appendBits_inBuf (c : List Bool) (s : State) : (appendBits c s).inBuf = s.inBuf := by rw [appendBits_eq]
@[simp] theorem appendBits_pending (c : List Bool) (s : State) : (appendBits c s).pending = s.pending := by rw [appendBits_eq]
@[simp] theorem appendBits_resp (c : List Bool) (s : State) : (appendBits c s).resp = s.resp := by rw [appendBits_eq]
@[simp] theorem appendBits_draws (c : List Bool) (s : State) : (appendBits c s).draws = s.draws := by rw [appendBits_eq]

theorem toNat_add_ofNat {x : Word} {n : Nat} (h : x.toNat + n < 2 ^ 32) :
    (x + BitVec.ofNat 32 n).toNat = x.toNat + n := by
  simp only [BitVec.toNat_add, BitVec.toNat_ofNat, Nat.add_mod_mod]
  exact Nat.mod_eq_of_lt h

theorem appendBits_obp_toNat {c : List Bool} {s : State} (h : s.obp.toNat + c.length < 2 ^ 32) :
    (appendBits c s).obp.toNat = s.obp.toNat + c.length := by
  rw [appendBits_obp, toNat_add_ofNat h]

/-- Every OUT byte no appended bit lies in reads as before. -/
theorem outByte_appendBits {c : List Bool} {s : State} (h : s.obp.toNat + c.length < 2 ^ 32) {a : Nat}
    (ha : ∀ i, i < c.length → (s.obp.toNat + i) / 8 ≠ a) : outByte (appendBits c s) a = outByte s a := by
  induction c generalizing s with
  | nil => rfl
  | cons b c ih =>
    have h1 : (advanceObp 1 (putBit s.obp.toNat b s)).obp.toNat = s.obp.toNat + 1 := by
      simp only [advanceObp_obp, putBit_obp]
      exact toNat_add_ofNat (by simp at h; omega)
    simp only [List.length_cons] at h ha
    rw [appendBits, ih (by omega)]
    · have : outByte (advanceObp 1 (putBit s.obp.toNat b s)) a = outByte (putBit s.obp.toNat b s) a := rfl
      rw [this, outByte_putBit_of_ne]
      intro e
      exact ha 0 (by omega) (by simpa using e.symm)
    · intro i hi
      rw [h1]
      have := ha (i + 1) (by omega)
      rwa [show s.obp.toNat + 1 + i = s.obp.toNat + (i + 1) by omega]

/-- OUT after an append, bit by bit (20_memory.md R71, R72). -/
theorem outBit_appendBits {c : List Bool} {s : State} (h : s.obp.toNat + c.length < 2 ^ 32) (j : Nat) :
    outBit (appendBits c s) j = appendedBit s s.obp.toNat c j := by
  induction c generalizing s with
  | nil =>
    simp only [appendBits, appendedBit, List.length_nil]
    rw [if_neg (by omega), if_neg (by omega)]
  | cons b c ih =>
    simp only [List.length_cons] at h
    have h1 : (advanceObp 1 (putBit s.obp.toNat b s)).obp.toNat = s.obp.toNat + 1 := by
      simp only [advanceObp_obp, putBit_obp]
      exact toNat_add_ofNat (by omega)
    rw [appendBits, ih (by omega), h1]
    have hb : ∀ j, outBit (advanceObp 1 (putBit s.obp.toNat b s)) j = outBit (putBit s.obp.toNat b s) j := fun _ => rfl
    simp only [appendedBit, hb, outBit_putBit, List.length_cons]
    by_cases hj : j = s.obp.toNat
    · subst hj
      rw [if_neg (by omega), if_neg (by omega), if_pos rfl, if_pos (by omega)]
      simp
    · by_cases hin : s.obp.toNat + 1 ≤ j ∧ j < s.obp.toNat + 1 + c.length
      · rw [if_pos hin, if_pos (by omega), show j - s.obp.toNat = (j - (s.obp.toNat + 1)) + 1 by omega,
          List.getD_cons_succ]
      · rw [if_neg hin, if_neg (show ¬ (s.obp.toNat ≤ j ∧ j < s.obp.toNat + (c.length + 1)) by omega), if_neg hj]
        by_cases hz : s.obp.toNat + 1 ≤ 8 * (j / 8) ∧ 8 * (j / 8) < s.obp.toNat + 1 + c.length
        · rw [if_pos hz, if_pos (by omega)]
        · rw [if_neg hz]
          by_cases hy : s.obp.toNat % 8 = 0 ∧ j / 8 = s.obp.toNat / 8
          · rw [if_pos hy, if_pos (by omega)]
          · rw [if_neg hy, if_neg (by omega)]

/-- `AppendCode` in the terms of the claims. -/
theorem appended_appendBits {c : List Bool} {s : State} (h : s.obp.toNat + c.length < 2 ^ 32) :
    appended s (appendBits c s) s.obp.toNat c :=
  ⟨outBit_appendBits h, fun _ ha => outByte_appendBits h ha⟩

/-- Appends compose. -/
theorem appendBits_append (c d : List Bool) (s : State) : appendBits (c ++ d) s = appendBits d (appendBits c s) := by
  induction c generalizing s with
  | nil => rfl
  | cons b c ih => simp [appendBits, ih]

/-- Appending keeps the canonical form. -/
theorem wf_appendBits {c : List Bool} {s : State} (h : Memory.wf s.outBuf) : Memory.wf (appendBits c s).outBuf := by
  induction c generalizing s with
  | nil => exact h
  | cons b c ih =>
    rw [appendBits]
    apply ih
    simp only [advanceObp_outBuf]
    unfold putBit
    split <;> exact Memory.wf_write h _ _

/-- Appending inside OUT lists only bytes of OUT. -/
theorem lt_appendBits {c : List Bool} {s : State} {n : Nat} (hm : ∀ e ∈ s.outBuf, e.1 < n) (hn : 8 * n < 2 ^ 32)
    (h : s.obp.toNat + c.length ≤ 8 * n) : ∀ e ∈ (appendBits c s).outBuf, e.1 < n := by
  induction c generalizing s with
  | nil => exact hm
  | cons b c ih =>
    simp only [List.length_cons] at h
    have h1 : (advanceObp 1 (putBit s.obp.toNat b s)).obp.toNat = s.obp.toNat + 1 := by
      simp only [advanceObp_obp, putBit_obp]
      exact toNat_add_ofNat (by omega)
    rw [appendBits]
    refine ih ?_ (by omega)
    simp only [advanceObp_outBuf]
    intro e he
    have : e = (s.obp.toNat / 8, e.2) ∨ e ∈ s.outBuf := by
      unfold putBit at he
      split at he <;>
        exact (Memory.mem_write he).imp_left (fun h => by rw [h])
    rcases this with h2 | h2
    · rw [h2]
      show s.obp.toNat / 8 < n
      omega
    · exact hm e h2

end Sys2Proof.Machine
end

