-- ==== Sys2Proof/Laws/Trie.lean ====
section
/-! SUPPORT. Trees: paths and leaves, what DERIVE's walk writes, and what REBUILD's insertion makes or refuses. -/

namespace Sys2Proof.Machine

/-! ## Paths -/

@[simp] theorem followPath_nil (n : Slot) : followPath n [] = n := by cases n <;> rfl
@[simp] theorem followPath_none (c : List Bool) : followPath .none c = .none := by cases c <;> rfl
theorem followPath_leaf_cons (w : Weight) (x : Symbol) (b : Bool) (c : List Bool) :
    followPath (.leaf w x) (b :: c) = .none := rfl
theorem followPath_internal_cons (w : Weight) (l r : Slot) (b : Bool) (c : List Bool) :
    followPath (.internal w l r) (b :: c) = if b then followPath r c else followPath l c := rfl

theorem followPath_append (n : Slot) (c d : List Bool) : followPath n (c ++ d) = followPath (followPath n c) d := by
  induction c generalizing n with
  | nil => simp
  | cons b c ih =>
    cases n with
    | none => simp
    | leaf w x => simp [followPath_leaf_cons]
    | internal w l r =>
      simp only [List.cons_append, followPath_internal_cons]
      cases b
      · simpa using ih l
      · simpa using ih r

/-- A leaf's paths. -/
theorem followPath_leaf_eq {w v : Weight} {x y : Symbol} {c : List Bool} :
    followPath (.leaf w x) c = .leaf v y ↔ c = [] ∧ w = v ∧ x = y := by
  cases c with
  | nil => simp
  | cons b c => simp [followPath_leaf_cons]

/-- The symbols of the leaves are those some path leads to. -/
theorem mem_leafSyms {n : Slot} {x : Symbol} : x ∈ leafSyms n ↔ ∃ c w, followPath n c = .leaf w x := by
  induction n with
  | none => simp [leafSyms]
  | leaf w y => simp [leafSyms, followPath_leaf_eq, eq_comm]
  | internal w l r ihl ihr =>
    simp only [leafSyms, List.mem_append, ihl, ihr]
    constructor
    · rintro (⟨c, v, h⟩ | ⟨c, v, h⟩)
      · exact ⟨false :: c, v, by simpa [followPath_internal_cons] using h⟩
      · exact ⟨true :: c, v, by simpa [followPath_internal_cons] using h⟩
    · rintro ⟨c, v, h⟩
      cases c with
      | nil => simp at h
      | cons b c =>
        cases b
        · exact .inl ⟨c, v, by simpa [followPath_internal_cons] using h⟩
        · exact .inr ⟨c, v, by simpa [followPath_internal_cons] using h⟩

/-- Distinct leaves: one path per symbol. -/
theorem path_unique {n : Slot} (hn : (leafSyms n).Nodup) {x : Symbol} {c d : List Bool} {v w : Weight}
    (hc : followPath n c = .leaf v x) (hd : followPath n d = .leaf w x) : c = d := by
  induction n generalizing c d with
  | none => simp at hc
  | leaf w y => rw [followPath_leaf_eq] at hc hd; rw [hc.1, hd.1]
  | internal u l r ihl ihr =>
    obtain ⟨h1, h2, h3⟩ := List.nodup_append.1 hn
    cases c with
    | nil => simp at hc
    | cons b c =>
      cases d with
      | nil => simp at hd
      | cons e d =>
        rw [followPath_internal_cons] at hc hd
        cases b <;> cases e <;> simp only [Bool.false_eq_true, if_false, if_true] at hc hd
        · rw [ihl h1 hc hd]
        · exact absurd rfl (h3 x (mem_leafSyms.2 ⟨_, _, hc⟩) x (mem_leafSyms.2 ⟨_, _, hd⟩))
        · exact absurd rfl (h3 x (mem_leafSyms.2 ⟨_, _, hd⟩) x (mem_leafSyms.2 ⟨_, _, hc⟩))
        · rw [ihr h2 hc hd]

/-- No leaf lies on the path to another (42_code_table.md R151). -/
theorem path_prefix_eq {n : Slot} {x y : Symbol} {c d : List Bool} {v w : Weight}
    (hc : followPath n c = .leaf v x) (hd : followPath n d = .leaf w y) (h : c <+: d) : c = d := by
  obtain ⟨e, rfl⟩ := h
  rw [followPath_append, hc, followPath_leaf_eq] at hd
  simp [hd.1]

theorem path_length_le {n : Slot} {x : Symbol} {c : List Bool} {w : Weight}
    (hc : followPath n c = .leaf w x) : c.length ≤ slotDepth n := by
  induction n generalizing c with
  | none => simp at hc
  | leaf w y => rw [followPath_leaf_eq] at hc; simp [hc.1]
  | internal u l r ihl ihr =>
    cases c with
    | nil => simp
    | cons b c =>
      rw [followPath_internal_cons] at hc
      simp only [slotDepth, List.length_cons]
      cases b <;> simp only [Bool.false_eq_true, if_false, if_true] at hc
      · have := ihl hc; omega
      · have := ihr hc; omega

/-- Below every node of a live tree stands a leaf. -/
theorem exists_leaf_of_live {n : Slot} (hl : slotLive n = true) (hn : n ≠ .none) :
    ∃ c w x, followPath n c = .leaf w x := by
  induction n with
  | none => exact absurd rfl hn
  | leaf w x => exact ⟨[], w, x, by simp⟩
  | internal u l r ihl ihr =>
    simp only [slotLive, Bool.and_eq_true, Bool.or_eq_true, decide_eq_true_eq] at hl
    rcases hl.1.1 with h | h
    · obtain ⟨c, w, x, hc⟩ := ihl hl.1.2 h
      exact ⟨false :: c, w, x, by simpa [followPath_internal_cons] using hc⟩
    · obtain ⟨c, w, x, hc⟩ := ihr hl.2 h
      exact ⟨true :: c, w, x, by simpa [followPath_internal_cons] using hc⟩

theorem live_followPath {n : Slot} (hl : slotLive n = true) (c : List Bool) : slotLive (followPath n c) = true := by
  induction c generalizing n with
  | nil => simpa
  | cons b c ih =>
    cases n with
    | none => rfl
    | leaf w x => rfl
    | internal w l r =>
      simp only [slotLive, Bool.and_eq_true] at hl
      rw [followPath_internal_cons]
      cases b
      · exact ih hl.1.2
      · exact ih hl.2

/-! ## DERIVE's walk -/

/-- The walk leaves the entries of symbols without a leaf alone. -/
theorem walkCodes_of_not_mem {n : Slot} {x : Symbol} (h : x ∉ leafSyms n) (len v : Nat) (t : Vector CodeEntry 256) :
    entryAt (walkCodes n len v t) x = entryAt t x := by
  induction n generalizing len v t with
  | none => rfl
  | leaf w y =>
    simp only [leafSyms, List.mem_singleton] at h
    simp [walkCodes, h]
  | internal w l r ihl ihr =>
    simp only [leafSyms, List.mem_append, not_or] at h
    simp only [walkCodes]
    rw [ihr h.2, ihl h.1]

/-- The walk writes at a leaf the length and value of its path (42_code_table.md R150). -/
theorem walkCodes_of_path {n : Slot} (hn : (leafSyms n).Nodup) {x : Symbol} {c : List Bool} {w : Weight}
    (hc : followPath n c = .leaf w x) (len v : Nat) (t : Vector CodeEntry 256) :
    entryAt (walkCodes n len v t) x = pathEntry (len + c.length) (v * 2 ^ c.length + codeVal c) := by
  induction n generalizing c len v t with
  | none => simp at hc
  | leaf w y =>
    obtain ⟨rfl, -, rfl⟩ := followPath_leaf_eq.1 hc
    simp [walkCodes, codeVal]
  | internal u l r ihl ihr =>
    obtain ⟨h1, h2, h3⟩ := List.nodup_append.1 hn
    cases c with
    | nil => simp at hc
    | cons b c =>
      rw [followPath_internal_cons] at hc
      simp only [walkCodes, codeVal_cons, List.length_cons]
      cases b <;> simp only [Bool.false_eq_true, if_false, if_true] at hc
      · have hx : x ∉ leafSyms r := fun hr => h3 x (mem_leafSyms.2 ⟨_, _, hc⟩) x hr rfl
        rw [walkCodes_of_not_mem hx, ihl h1 hc]
        congr 1
        · omega
        · simp [pow_succ]; ring
      · rw [ihr h2 hc]
        congr 1
        · omega
        · simp [pow_succ]; ring

/-- The entry of a path of at most 255 bits is legal and holds the path. -/
theorem pathEntry_codeVal {c : List Bool} (h : c.length ≤ 255) :
    entryOk (pathEntry c.length (codeVal c)) ∧ codeBits (pathEntry c.length (codeVal c)) = c := by
  have h1 : (BitVec.ofNat 8 c.length).toNat = c.length := by simp; omega
  have h2 : codeVal c < 2 ^ 255 := Nat.lt_of_lt_of_le (codeVal_lt c) (Nat.pow_le_pow_right (by omega) h)
  refine ⟨⟨?_, by simp [pathEntry]⟩, ?_⟩
  · simp only [pathEntry, h1, BitVec.toNat_ofNat, Nat.mod_eq_of_lt h2]
    exact codeVal_lt c
  · show bitsOf (BitVec.ofNat 255 (codeVal c)) (BitVec.ofNat 8 c.length).toNat = c
    rw [h1]
    exact bitsOf_codeVal h

/-- DERIVE's table for a tree the commands can make: at each leaf its path, elsewhere nothing. -/
theorem derived_entry {n : Slot} (hn : (leafSyms n).Nodup) (hd : slotDepth n ≤ 255) (x : Symbol) :
    entryOk (entryAt (walkCodes n 0 0 emptyCodes) x)
      ∧ ∀ c, (∃ w, followPath n c = .leaf w x) ↔
          ((entryAt (walkCodes n 0 0 emptyCodes) x).present = true
            ∧ codeBits (entryAt (walkCodes n 0 0 emptyCodes) x) = c) := by
  by_cases hx : x ∈ leafSyms n
  · obtain ⟨d, v, hv⟩ := mem_leafSyms.1 hx
    have hl := Nat.le_trans (path_length_le hv) hd
    have he := walkCodes_of_path hn hv 0 0 emptyCodes
    simp only [Nat.zero_add, Nat.zero_mul] at he
    obtain ⟨h1, h2⟩ := pathEntry_codeVal hl
    rw [he]
    refine ⟨h1, fun c => ⟨fun ⟨w, hc⟩ => ⟨rfl, ?_⟩, fun ⟨_, hc⟩ => ⟨v, ?_⟩⟩⟩
    · rw [h2]
      exact path_unique hn hv hc
    · rw [← hc, h2]
      exact hv
  · rw [walkCodes_of_not_mem hx, entryAt_emptyCodes]
    refine ⟨entryOk_absent, fun c => ⟨fun ⟨w, hc⟩ => absurd (mem_leafSyms.2 ⟨c, w, hc⟩) hx, fun h => ?_⟩⟩
    simp [CodeEntry.absent] at h

/-! ## REBUILD's insertion -/

/-- What a successful insertion makes: one more leaf, at the code's path. -/
theorem insertCode_some {x : Symbol} {n m : Slot} {c : List Bool} (h : insertCode x n c = some m) :
    (∀ d w y, followPath m d = .leaf w y ↔ followPath n d = .leaf w y ∨ (d = c ∧ w = 0 ∧ y = x))
      ∧ m ≠ .none ∧ slotDepth m = max (slotDepth n) c.length ∧ (leafSyms m).Perm (x :: leafSyms n)
      ∧ (slotWeight n = 0 → slotWeight m = 0) ∧ (slotLive n = true → slotLive m = true) := by
  induction c generalizing n m with
  | nil =>
    cases n with
    | none =>
      simp only [insertCode, Option.some.injEq] at h
      subst h
      refine ⟨fun d w y => ?_, by simp, rfl, by simp [leafSyms], fun _ => rfl, fun _ => rfl⟩
      rw [followPath_leaf_eq, followPath_none, eq_comm (a := w), eq_comm (a := y)]
      simp
    | leaf w y => simp [insertCode] at h
    | internal w l r => simp [insertCode] at h
  | cons b c ih =>
    cases n with
    | leaf w y => simp [insertCode] at h
    | none =>
      simp only [insertCode, Option.map_eq_some_iff] at h
      obtain ⟨k, hk, rfl⟩ := h
      obtain ⟨h1, h2, h3, h4, h5, h6⟩ := ih hk
      have h6 := h6 rfl
      cases b
      · refine ⟨fun d w y => ?_, by simp, by simp [slotDepth, h3], by simpa [leafSyms] using h4, fun _ => rfl,
          fun _ => by simp [slotLive, h2, h6]⟩
        cases d with
        | nil => simp
        | cons e d =>
          cases e <;> simp [followPath_internal_cons, h1]
      · refine ⟨fun d w y => ?_, by simp, by simp [slotDepth, h3], by simpa [leafSyms] using h4, fun _ => rfl,
          fun _ => by simp [slotLive, h2, h6]⟩
        cases d with
        | nil => simp
        | cons e d =>
          cases e <;> simp [followPath_internal_cons, h1]
    | internal w l r =>
      simp only [insertCode] at h
      cases b
      · simp only [Bool.false_eq_true, if_false, Option.map_eq_some_iff] at h
        obtain ⟨k, hk, rfl⟩ := h
        obtain ⟨h1, h2, h3, h4, h5, h6⟩ := ih hk
        refine ⟨fun d w y => ?_, by simp, ?_, ?_, id, fun hl => ?_⟩
        · cases d with
          | nil => simp
          | cons e d => cases e <;> simp [followPath_internal_cons, h1]
        · simp only [slotDepth, h3, List.length_cons]
          omega
        · simpa [leafSyms] using h4.append_right (leafSyms r)
        · simp only [slotLive, Bool.and_eq_true] at hl ⊢
          exact ⟨⟨by simp [h2], h6 hl.1.2⟩, hl.2⟩
      · simp only [if_true, Option.map_eq_some_iff] at h
        obtain ⟨k, hk, rfl⟩ := h
        obtain ⟨h1, h2, h3, h4, h5, h6⟩ := ih hk
        refine ⟨fun d w y => ?_, by simp, ?_, ?_, id, fun hl => ?_⟩
        · cases d with
          | nil => simp
          | cons e d => cases e <;> simp [followPath_internal_cons, h1]
        · simp only [slotDepth, h3, List.length_cons]
          omega
        · simp only [leafSyms]
          exact (h4.append_left (leafSyms l)).trans (List.perm_middle)
        · simp only [slotLive, Bool.and_eq_true] at hl ⊢
          exact ⟨⟨by simp [h2], hl.1.2⟩, h6 hl.2⟩

/-- An insertion fails exactly on a leaf above or below the code's end (42_code_table.md R171). -/
theorem insertCode_none {x : Symbol} {n : Slot} {c : List Bool} (hl : slotLive n = true) :
    insertCode x n c = none ↔ ∃ d w y, followPath n d = .leaf w y ∧ (d <+: c ∨ c <+: d) := by
  induction c generalizing n with
  | nil =>
    cases n with
    | none => simp [insertCode]
    | leaf w y => exact ⟨fun _ => ⟨[], w, y, by simp, by simp⟩, fun _ => rfl⟩
    | internal w l r =>
      refine ⟨fun _ => ?_, fun _ => rfl⟩
      obtain ⟨d, w, y, h⟩ := exists_leaf_of_live hl (by simp)
      exact ⟨d, w, y, h, .inr List.nil_prefix⟩
  | cons b c ih =>
    cases n with
    | none =>
      simp only [insertCode, Option.map_eq_none_iff, ih (n := .none) rfl]
      simp
    | leaf w y => exact ⟨fun _ => ⟨[], w, y, by simp, .inl List.nil_prefix⟩, fun _ => rfl⟩
    | internal w l r =>
      simp only [slotLive, Bool.and_eq_true] at hl
      simp only [insertCode]
      cases b
      · simp only [Bool.false_eq_true, if_false, Option.map_eq_none_iff, ih hl.1.2]
        constructor
        · rintro ⟨d, w, y, h, hp⟩
          exact ⟨false :: d, w, y, by simpa [followPath_internal_cons] using h, by simpa [List.cons_prefix_cons] using hp⟩
        · rintro ⟨d, w, y, h, hp⟩
          cases d with
          | nil => simp at h
          | cons e d =>
            simp only [List.cons_prefix_cons] at hp
            have he : e = false := by rcases hp with hp | hp <;> simp [hp.1]
            subst he
            exact ⟨d, w, y, by simpa [followPath_internal_cons] using h, by simpa using hp⟩
      · simp only [if_true, Option.map_eq_none_iff, ih hl.2]
        constructor
        · rintro ⟨d, w, y, h, hp⟩
          exact ⟨true :: d, w, y, by simpa [followPath_internal_cons] using h, by simpa [List.cons_prefix_cons] using hp⟩
        · rintro ⟨d, w, y, h, hp⟩
          cases d with
          | nil => simp at h
          | cons e d =>
            simp only [List.cons_prefix_cons] at hp
            have he : e = true := by rcases hp with hp | hp <;> simp [hp.1]
            subst he
            exact ⟨d, w, y, by simpa [followPath_internal_cons] using h, by simpa using hp⟩

/-! ## REBUILD's whole table -/

/-- Two different present symbols of a list, one's code a prefix of the other's. -/
def ConflictIn (t : Vector CodeEntry 256) (l : List Symbol) : Prop :=
  ∃ a ∈ l, ∃ b ∈ l, a ≠ b ∧ (entryAt t a).present = true ∧ (entryAt t b).present = true
    ∧ codeBits (entryAt t a) <+: codeBits (entryAt t b)

/-- The tree `n` holds exactly the codes of the present symbols of a list, and is one REBUILD can make. -/
structure TrieOf (t : Vector CodeEntry 256) (l : List Symbol) (n : Slot) : Prop where
  leaves : ∀ d w y, followPath n d = .leaf w y ↔
    (w = 0 ∧ y ∈ l ∧ (entryAt t y).present = true ∧ codeBits (entryAt t y) = d)
  live : slotLive n = true
  nodup : (leafSyms n).Nodup
  depth : slotDepth n ≤ 255
  weight : slotWeight n = 0

theorem TrieOf.nil (t : Vector CodeEntry 256) : TrieOf t [] .none :=
  ⟨by simp, rfl, by simp [leafSyms], by simp [slotDepth], rfl⟩

theorem codeBits_length_le (e : CodeEntry) : (codeBits e).length ≤ 255 := by
  have := e.cl.isLt
  simp only [codeBits, bitsOf_length]
  omega

/-- One present symbol more: the insertion succeeds exactly if its code conflicts with none before. -/
theorem TrieOf.insert {t : Vector CodeEntry 256} {l : List Symbol} {n : Slot} (h : TrieOf t l n) {x : Symbol}
    (hx : x ∉ l) (hp : (entryAt t x).present = true) :
    (insertCode x n (codeBits (entryAt t x)) = none →
      ∃ b ∈ l, (entryAt t b).present = true ∧ (codeBits (entryAt t b) <+: codeBits (entryAt t x)
        ∨ codeBits (entryAt t x) <+: codeBits (entryAt t b)))
    ∧ ∀ m, insertCode x n (codeBits (entryAt t x)) = some m → TrieOf t (l ++ [x]) m
      ∧ ∀ b ∈ l, (entryAt t b).present = true → ¬ (codeBits (entryAt t b) <+: codeBits (entryAt t x))
          ∧ ¬ (codeBits (entryAt t x) <+: codeBits (entryAt t b)) := by
  constructor
  · intro hn
    obtain ⟨d, w, y, hd, hpre⟩ := (insertCode_none h.live).1 hn
    obtain ⟨-, hy, hyp, rfl⟩ := (h.leaves d w y).1 hd
    exact ⟨y, hy, hyp, hpre⟩
  · intro m hm
    obtain ⟨h1, h2, h3, h4, h5, h6⟩ := insertCode_some hm
    refine ⟨⟨fun d w y => ?_, h6 h.live, ?_, ?_, h5 h.weight⟩, fun b hb hbp => ?_⟩
    · rw [h1, h.leaves]
      constructor
      · rintro (⟨rfl, hy, hyp, rfl⟩ | ⟨rfl, rfl, rfl⟩)
        · exact ⟨rfl, by simp [hy], hyp, rfl⟩
        · exact ⟨rfl, by simp, hp, rfl⟩
      · rintro ⟨rfl, hy, hyp, rfl⟩
        rcases List.mem_append.1 hy with hy | hy
        · exact .inl ⟨rfl, hy, hyp, rfl⟩
        · rw [List.mem_singleton] at hy
          subst hy
          exact .inr ⟨rfl, rfl, rfl⟩
    · rw [h4.nodup_iff, List.nodup_cons]
      refine ⟨fun hmem => ?_, h.nodup⟩
      obtain ⟨d, w, hd⟩ := mem_leafSyms.1 hmem
      exact hx ((h.leaves d w x).1 hd).2.1
    · rw [h3]
      exact Nat.max_le.2 ⟨h.depth, codeBits_length_le _⟩
    · have hb' : followPath n (codeBits (entryAt t b)) = .leaf 0 b := (h.leaves _ 0 b).2 ⟨rfl, hb, hbp, rfl⟩
      have hno : ¬ insertCode x n (codeBits (entryAt t x)) = none := by rw [hm]; simp
      rw [insertCode_none h.live] at hno
      exact ⟨fun hpre => hno ⟨_, _, _, hb', .inl hpre⟩, fun hpre => hno ⟨_, _, _, hb', .inr hpre⟩⟩

/-- An absent symbol more changes nothing. -/
theorem TrieOf.skip {t : Vector CodeEntry 256} {l : List Symbol} {n : Slot} (h : TrieOf t l n) {x : Symbol}
    (hp : (entryAt t x).present = false) : TrieOf t (l ++ [x]) n := by
  refine ⟨fun d w y => ?_, h.live, h.nodup, h.depth, h.weight⟩
  rw [h.leaves]
  constructor
  · rintro ⟨rfl, hy, hyp, rfl⟩
    exact ⟨rfl, by simp [hy], hyp, rfl⟩
  · rintro ⟨rfl, hy, hyp, rfl⟩
    rcases List.mem_append.1 hy with hy | hy
    · exact ⟨rfl, hy, hyp, rfl⟩
    · rw [List.mem_singleton] at hy
      subst hy
      simp [hp] at hyp

theorem not_conflict_snoc {t : Vector CodeEntry 256} {l : List Symbol} {x : Symbol} (h : ¬ ConflictIn t l)
    (hb : (entryAt t x).present = true → ∀ b ∈ l, (entryAt t b).present = true →
      ¬ (codeBits (entryAt t b) <+: codeBits (entryAt t x)) ∧ ¬ (codeBits (entryAt t x) <+: codeBits (entryAt t b))) :
    ¬ ConflictIn t (l ++ [x]) := by
  rintro ⟨a, ha, b, hb', hab, hpa, hpb, hpre⟩
  simp only [List.mem_append, List.mem_singleton] at ha hb'
  rcases ha with ha | rfl <;> rcases hb' with hb' | rfl
  · exact h ⟨a, ha, b, hb', hab, hpa, hpb, hpre⟩
  · exact (hb hpb a ha hpa).1 hpre
  · exact (hb hpa b hb' hpb).2 hpre
  · exact hab rfl

/-- All the insertions of REBUILD: the tree of all codes without a conflict, or the first symbol that makes one
(42_code_table.md R170, R171). -/
theorem insertCodes_spec {t : Vector CodeEntry 256} {l k : List Symbol} {n : Slot} (hn : TrieOf t l n)
    (hc : ¬ ConflictIn t l) (hd : (l ++ k).Nodup) :
    (∀ m, insertCodes t k n = .ok m → TrieOf t (l ++ k) m ∧ ¬ ConflictIn t (l ++ k))
    ∧ ∀ x, insertCodes t k n = .error x → ∃ k₁ k₂, k = k₁ ++ x :: k₂ ∧ ¬ ConflictIn t (l ++ k₁)
        ∧ ConflictIn t (l ++ k₁ ++ [x]) := by
  induction k generalizing l n with
  | nil =>
    simp only [insertCodes, List.append_nil]
    exact ⟨fun m h => by cases h; exact ⟨hn, hc⟩, fun x h => by cases h⟩
  | cons y k ih =>
    have hd' : (l ++ [y] ++ k).Nodup := by simpa using hd
    have hy : y ∉ l := fun hy => (List.nodup_append.1 hd).2.2 y hy y (by simp) rfl
    have lift : ∀ {n' : Slot}, TrieOf t (l ++ [y]) n' → ¬ ConflictIn t (l ++ [y]) →
        (∀ m, insertCodes t k n' = .ok m → TrieOf t (l ++ y :: k) m ∧ ¬ ConflictIn t (l ++ y :: k))
        ∧ ∀ x, insertCodes t k n' = .error x → ∃ k₁ k₂, y :: k = k₁ ++ x :: k₂ ∧ ¬ ConflictIn t (l ++ k₁)
            ∧ ConflictIn t (l ++ k₁ ++ [x]) := by
      intro n' h1 h2
      obtain ⟨ih1, ih2⟩ := ih h1 h2 hd'
      refine ⟨fun m hm => by simpa using ih1 m hm, fun x hx => ?_⟩
      obtain ⟨k₁, k₂, rfl, h3, h4⟩ := ih2 x hx
      exact ⟨y :: k₁, k₂, rfl, by simpa using h3, by simpa using h4⟩
    simp only [insertCodes]
    by_cases hp : (entryAt t y).present = true
    · obtain ⟨hi1, hi2⟩ := hn.insert hy hp
      rw [if_pos hp]
      cases hins : insertCode y n (codeBits (entryAt t y)) with
      | none =>
        simp only [reduceCtorEq, false_implies, implies_true, true_and, Except.error.injEq]
        rintro x rfl
        obtain ⟨b, hb, hbp, hpre⟩ := hi1 hins
        have hby : b ≠ y := fun e => hy (e ▸ hb)
        refine ⟨[], k, rfl, by simpa using hc, ?_⟩
        rcases hpre with hpre | hpre
        · exact ⟨b, by simp [hb], y, by simp, hby, hbp, hp, hpre⟩
        · exact ⟨y, by simp, b, by simp [hb], fun e => hby e.symm, hp, hbp, hpre⟩
      | some n' =>
        obtain ⟨h1, h2⟩ := hi2 n' hins
        exact lift h1 (not_conflict_snoc hc fun _ => h2)
    · rw [if_neg hp]
      exact lift (hn.skip (by simpa using hp)) (not_conflict_snoc hc fun h => absurd h hp)

end Sys2Proof.Machine
end

