-- ==== Sys2Proof/Laws/Commands.lean ====
section
/-! SUPPORT. Every command as one body and one end; the loops of ENCODE and DECODE step by step and over a whole run of
good symbols; what the bodies leave unchanged. -/

namespace Sys2Proof.Machine

/-- The body of each command, before completion. -/
def runOf : Instr → State → Run
  | .nop, s => .ok s
  | .clrfreq, s => .ok (clearFreq s)
  | .build, s => .ok (setCodes emptyCodes (setTree (builtTree s) (treeWeight (builtTree s)) s))
  | .derive, s => runDerive s
  | .clrcode, s => .ok (setTree .invalid 0 (setCodes emptyCodes s))
  | .ldcode x len, s => runLdcode x len s
  | .rebuild, s => runRebuild s
  | .putb b, s => runPutb b s
  | .putcode x, s => runPutcode x s
  | .flush, s => .ok { s with obp := BitVec.ofNat 32 (up8 s.obp.toNat) }
  | .encode, s => runEncode s
  | .getb, s => runGetb s
  | .align, s => .ok { s with ibp := BitVec.ofNat 32 (up8 s.ibp.toNat) }
  | .decode, s => runDecode s

/-- exec is the body and then completion, and always answers a next state. -/
theorem exec_eq (i : Instr) (s : State) : exec i s = .next (finish (runOf i s)) := by cases i <;> rfl

/-- The state a body has written when it ends. -/
def Run.state : Run → State
  | .ok s => s
  | .raised _ _ s => s

/-- The error a body raises, `none` if it returns. -/
def Run.error : Run → ErrorCode
  | .ok _ => .none
  | .raised e _ _ => e

@[simp] theorem Run.state_ok (s : State) : (Run.ok s).state = s := rfl
@[simp] theorem Run.state_raised (e : ErrorCode) (v : Word) (s : State) : (Run.raised e v s).state = s := rfl
@[simp] theorem finish_ok (s : State) : finish (.ok s) = { s with busy := false, done := true } := rfl
@[simp] theorem finish_raised (e : ErrorCode) (v : Word) (s : State) :
    finish (.raised e v s) = { s with err := true, errcode := e, errinfo := v, busy := false, done := true } := rfl

/-- The end of a command writes BUSY, DONE and the error record alone. -/
theorem finish_eq (r : Run) : finish r = { r.state with
    err := (finish r).err, errcode := (finish r).errcode, errinfo := (finish r).errinfo, busy := false, done := true } := by
  cases r <;> rfl

/-! ## LDCODE's entry -/

/-- The entry LDCODE loads is legal and holds the input bits, first bit most significant (42_code_table.md R165). -/
theorem loadedEntry_spec (len : BitVec 8) (s : State) : entryOk (loadedEntry len s) ∧ ∀ i, i < len.toNat →
    (loadedEntry len s).cw.getLsbD (len.toNat - 1 - i) = storedBit s (s.ibp.toNat + i) := by
  have hl := len.isLt
  have hv := codeVal_lt (storedBits s s.ibp.toNat len.toNat)
  rw [storedBits_length] at hv
  constructor
  · refine ⟨?_, by simp [loadedEntry]⟩
    simp only [loadedEntry, BitVec.toNat_ofNat]
    exact Nat.lt_of_le_of_lt (Nat.mod_le _ _) hv
  · intro i hi
    simp only [loadedEntry, BitVec.getLsbD_ofNat, codeVal_testBit, storedBits_length]
    rw [show len.toNat - 1 - (len.toNat - 1 - i) = i by omega, storedBits_getD hi, decide_eq_true (show len.toNat - 1 - i < len.toNat by omega),
      decide_eq_true (show len.toNat - 1 - i < 255 by omega), Bool.true_and, Bool.true_and]

/-! ## ENCODE's loop -/

/-- One whole symbol of ENCODE changes IBP, OBP, CNT and OUT. -/
theorem encodeOne_eq (x : Symbol) (s : State) : encodeOne x s =
    { appendBits (codeBits (codeOf s x)) s with
      ibp := (appendBits (codeBits (codeOf s x)) s).ibp + 8, cnt := (appendBits (codeBits (codeOf s x)) s).cnt + 1 } := rfl

/-- One whole symbol of ENCODE, field by field. -/
theorem encodeOne_frame (x : Symbol) (s : State) : encodeOne x s =
    { s with ibp := s.ibp + 8, obp := s.obp + BitVec.ofNat 32 (codeOf s x).cl.toNat, cnt := s.cnt + 1,
             outBuf := (appendBits (codeBits (codeOf s x)) s).outBuf } := by
  rw [encodeOne_eq]
  conv_lhs => rw [appendBits_eq]
  simp [codeBits]

/-- The state after ENCODE has done its first `n` input bytes. -/
def encoded (s : State) (n : Nat) : State :=
  { appendBits (payload s n) s with ibp := s.ibp + BitVec.ofNat 32 (8 * n), cnt := s.cnt + BitVec.ofNat 32 n }

theorem payload_length_succ (s : State) (n : Nat) :
    (payload s (n + 1)).length = (payload s n).length + (codeOf s (inputAt s n)).cl.toNat := by
  simp [payload, codeBits]

theorem payload_length_mono (s : State) {n m : Nat} (h : n ≤ m) : (payload s n).length ≤ (payload s m).length := by
  induction h with
  | refl => exact Nat.le_refl _
  | step _ ih => rw [payload_length_succ]; omega

theorem ofNat_add_ofNat (a b : Nat) : BitVec.ofNat 32 a + BitVec.ofNat 32 b = BitVec.ofNat 32 (a + b) :=
  (BitVec.ofNat_add a b).symm

/-- `encoded` one symbol further. -/
theorem encoded_succ (s : State) (n : Nat) : encodeOne (inputAt s n) (encoded s n) = encoded s (n + 1) := by
  have hc : codeOf (encoded s n) (inputAt s n) = codeOf s (inputAt s n) := by
    simp only [codeOf_eq, encoded, appendBits_codes, appendBits_cfg, appendBits_inLen, appendBits_inBuf, appendBits_draws]
  have e1 : BitVec.ofNat 32 (8 * n) + 8#32 = BitVec.ofNat 32 (8 * (n + 1)) := by
    exact ofNat_add_ofNat (8 * n) 8
  have e2 : BitVec.ofNat 32 n + 1#32 = BitVec.ofNat 32 (n + 1) := (ofNat_add_ofNat n 1)
  have ha : ∀ (c : List Bool) (t : State) (u v : Word),
      appendBits c { t with ibp := u, cnt := v } = { appendBits c t with ibp := u, cnt := v } := by
    intro c
    induction c with
    | nil => intros; rfl
    | cons b c ih =>
      intro t u v
      simp only [appendBits]
      rw [← ih]
      congr 1
      unfold putBit
      split <;> rfl
  rw [encodeOne_eq, hc, encoded, ha, encoded, payload, appendBits_append]
  rw [← e1, ← e2, ← BitVec.add_assoc, ← BitVec.add_assoc]
  rfl

/-- ENCODE over its first `n` good bytes. -/
theorem encodeLoop_encoded {s : State} {n : Nat} (hc : s.cfg.legal = true) (hp : pointersOk s) (h : encodable s n)
    (m : Nat) : encodeLoop (n + m) s = encodeLoop m (encoded s n) := by
  have hs : s.cfg.outSize ≤ 65536 ∧ s.cfg.inSize ≤ 65536 := by
    simp only [Params.legal, legalSize, Bool.and_eq_true, decide_eq_true_eq] at hc
    omega
  induction n generalizing m with
  | zero =>
    have : encoded s 0 = s := by simp [encoded, payload, appendBits]
    rw [this, Nat.zero_add]
  | succ n ih =>
    obtain ⟨h1, h2, h3⟩ := h
    have hl := payload_length_succ s n
    have hle : encodable s n := ⟨h1, fun k hk => h2 k (by omega), by omega⟩
    rw [show n + 1 + m = n + (m + 1) by omega, ih hle (m + 1)]
    obtain ⟨hin, hpr⟩ := h2 n (by omega)
    obtain ⟨hp1, hp2, hp3⟩ := hp
    have hi : (encoded s n).ibp.toNat = s.ibp.toNat + 8 * n := toNat_add_ofNat (by omega)
    have ho : (encoded s n).obp.toNat = s.obp.toNat + (payload s n).length :=
      appendBits_obp_toNat (by omega)
    have hli : (encoded s n).inLen = s.inLen := by simp only [encoded, appendBits_codes, appendBits_cfg, appendBits_inLen, appendBits_inBuf, appendBits_draws]
    have hby : inByte (encoded s n) ((encoded s n).ibp.toNat / 8) = inputAt s n := by
      rw [hi, inputAt, show (s.ibp.toNat + 8 * n) / 8 = s.ibp.toNat / 8 + n by omega]
      simp only [inByte, encoded, appendBits_codes, appendBits_cfg, appendBits_inLen, appendBits_inBuf, appendBits_draws]
    have hco : ∀ x, codeOf (encoded s n) x = codeOf s x := fun x => by
      simp only [codeOf_eq, encoded, appendBits_codes, appendBits_cfg, appendBits_inLen, appendBits_inBuf, appendBits_draws]
    have hcf : (encoded s n).cfg = s.cfg := by simp only [encoded, appendBits_codes, appendBits_cfg, appendBits_inLen, appendBits_inBuf, appendBits_draws]
    rw [encodeLoop, if_neg (by rw [hi, hli]; omega)]
    simp only [hby, hco, hpr]
    rw [if_neg (by simp), if_neg, encoded_succ]
    simp only [fits, ho, hcf, decide_eq_false_iff_not, not_not]
    omega

/-- ENCODE's loop changes IBP, OBP, CNT and OUT alone. -/
theorem encodeLoop_frame (n : Nat) (s : State) : ∃ i o c m,
    (encodeLoop n s).state = { s with ibp := i, obp := o, cnt := c, outBuf := m } := by
  induction n generalizing s with
  | zero => exact ⟨s.ibp, s.obp, s.cnt, s.outBuf, rfl⟩
  | succ n ih =>
    have hs : ∃ i o c m, s = { s with ibp := i, obp := o, cnt := c, outBuf := m } := ⟨s.ibp, s.obp, s.cnt, s.outBuf, rfl⟩
    rw [encodeLoop]
    split
    · exact hs
    · dsimp only
      split
      · exact hs
      · split
        · exact hs
        · obtain ⟨i, o, c, m, h⟩ := ih (encodeOne (inByte s (s.ibp.toNat / 8)) s)
          refine ⟨i, o, c, m, h.trans ?_⟩
          rw [encodeOne_frame]

/-- What holds at the start of ENCODE's loop and is kept by a whole symbol that fits holds at its end. -/
theorem encodeLoop_invariant (I : State → Prop)
    (step : ∀ s x, I s → s.ibp.toNat / 8 < s.inLen.toNat → fits s (codeOf s x).cl.toNat = true → I (encodeOne x s))
    {n : Nat} {s : State} (h : I s) : I (encodeLoop n s).state := by
  induction n generalizing s with
  | zero => exact h
  | succ n ih =>
    rw [encodeLoop]
    split
    · exact h
    · next hin =>
      dsimp only
      split
      · exact h
      · split
        · exact h
        · next hf => exact ih (step s _ h (by omega) (by simpa using hf))

/-! ## DECODE's loop -/

/-- The walk along a path that stands in the input (44_bit_unpacker.md R210). -/
theorem walkBits_append {s : State} {n : Slot} {c : List Bool} {p : Nat} (hb : inputBits s p c)
    (hi : ∀ k, k < c.length → ∃ w l r, followPath n (c.take k) = .internal w l r) :
    walkBits s n p = walkBits s (followPath n c) (p + c.length) := by
  induction c generalizing n p with
  | nil => simp [followPath]
  | cons b c ih =>
    obtain ⟨w, l, r, h0⟩ := hi 0 (by simp)
    rw [List.take_zero, followPath_nil] at h0
    have hn : n = .internal w l r := h0
    subst hn
    obtain ⟨h1, h2⟩ := hb 0 (by simp)
    have hin : inBit s p = some b := by
      simp only [Nat.add_zero] at h1 h2
      unfold inBit
      rw [if_neg (by omega)]
      exact congrArg some h2
    have hb' : inputBits s (p + 1) c := fun i hi => by
      have := hb (i + 1) (by simpa using hi)
      rwa [show p + (i + 1) = p + 1 + i by omega, List.getD_cons_succ] at this
    have hi' : ∀ k, k < c.length → ∃ w' l' r', followPath (if b then r else l) (c.take k) = .internal w' l' r' := by
      intro k hk
      obtain ⟨w', l', r', h⟩ := hi (k + 1) (by simpa using hk)
      refine ⟨w', l', r', ?_⟩
      rw [← h]
      cases b <;> rfl
    rw [walkBits, hin, List.length_cons, show p + (c.length + 1) = p + 1 + c.length by omega]
    cases b
    · exact ih hb' hi'
    · exact ih hb' hi'

/-- Above a node, and above the empty slot below an internal node, all is internal. -/
theorem internal_above {n : Slot} {c : List Bool} (h : followPath n c ≠ .none) (k : Nat) (hk : k < c.length) :
    ∃ w l r, followPath n (c.take k) = .internal w l r := by
  induction c generalizing n k with
  | nil => simp at hk
  | cons b c ih =>
    cases n with
    | none => simp at h
    | leaf w x => simp [followPath] at h
    | internal w l r =>
      cases k with
      | zero => exact ⟨w, l, r, by simp⟩
      | succ k =>
        simp only [List.length_cons] at hk
        cases b
        · exact ih (n := l) h k (by omega)
        · exact ih (n := r) h k (by omega)

/-- The walk to a leaf whose path stands in the input. -/
theorem walkBits_leaf {s : State} {n : Slot} {c : List Bool} {p : Nat} {w : Weight} {x : Symbol}
    (hc : followPath n c = .leaf w x) (hb : inputBits s p c) : walkBits s n p = .symbol x (p + c.length) := by
  rw [walkBits_append hb (internal_above (by simp [hc])), hc]
  rfl

/-- The walk that runs out of input at an internal node. -/
theorem walkBits_trunc {s : State} {n : Slot} {c : List Bool} {p : Nat} {w : Weight} {l r : Slot}
    (hc : followPath n c = .internal w l r) (hb : inputBits s p c) (h : (p + c.length) / 8 ≥ s.inLen.toNat) :
    walkBits s n p = .trunc (p + c.length) := by
  rw [walkBits_append hb (internal_above (by simp [hc])), hc, walkBits, inBit, if_pos h]

/-- The walk that a bit leads to a missing child. -/
theorem walkBits_missing {s : State} {n : Slot} {c : List Bool} {b : Bool} {p : Nat} {w : Weight} {l r : Slot}
    (hc : followPath n c = .internal w l r) (hm : followPath n (c ++ [b]) = .none) (hb : inputBits s p (c ++ [b])) :
    walkBits s n p = .missing (p + c.length) := by
  rw [walkBits_append hb, hm]
  · simp [walkBits]
  · intro k hk
    simp only [List.length_append, List.length_singleton] at hk
    rcases Nat.lt_or_ge k c.length with h | h
    · rw [List.take_append_of_le_length (by omega)]
      exact internal_above (by simp [hc]) k h
    · have : k = c.length := by omega
      subst this
      exact ⟨w, l, r, by simpa using hc⟩

/-- A walk ends at most at the first bit past IN_LEN, or where it began. -/
theorem walkBits_bound {s : State} {n : Slot} {p : Nat} {x : Symbol} {q : Nat} (h : walkBits s n p = .symbol x q) :
    q ≤ max p (8 * s.inLen.toNat) := by
  induction n generalizing p with
  | none => simp [walkBits] at h
  | leaf w y =>
    simp only [walkBits, WalkEnd.symbol.injEq] at h
    omega
  | internal w l r ihl ihr =>
    rw [walkBits] at h
    have hb : ∀ b, inBit s p = some b → p + 1 ≤ 8 * s.inLen.toNat := by
      intro b hb
      unfold inBit at hb
      split at hb
      · simp at hb
      · omega
    split at h
    · simp at h
    · next he =>
      have := ihl h
      have := hb _ he
      omega
    · next he =>
      have := ihr h
      have := hb _ he
      omega

/-- The walk reads IN and IN_LEN alone. -/
theorem walkBits_congr {s t : State} (hb : t.inBuf = s.inBuf) (hd : t.draws = s.draws) (hl : t.inLen = s.inLen)
    (n : Slot) (p : Nat) : walkBits t n p = walkBits s n p := by
  induction n generalizing p with
  | none => rfl
  | leaf w x => rfl
  | internal w l r ihl ihr => simp only [walkBits, inBit_congr hb hd hl, ihl, ihr]

/-- The state after DECODE has done the symbols `ys`, whose codes are `cs`. -/
def decoded : List Symbol → List (List Bool) → State → State
  | x :: ys, c :: cs, s => decoded ys cs (decodeOne x (s.ibp.toNat + c.length) s)
  | [], _, s => s
  | _ :: _, [], s => s

/-- The symbols `ys` stand in the tree at the paths `cs`. -/
abbrev AtPaths (n : Slot) (ys : List Symbol) (cs : List (List Bool)) : Prop :=
  List.Forall₂ (fun y c => ∃ w, followPath n c = .leaf w y) ys cs

theorem inputBits_append {s : State} {p : Nat} {c d : List Bool} (h : inputBits s p (c ++ d)) :
    inputBits s p c ∧ inputBits s (p + c.length) d := by
  constructor
  · intro i hi
    have := h i (by simp; omega)
    rwa [List.getD_append _ _ _ _ hi] at this
  · intro i hi
    have := h (c.length + i) (by simp; omega)
    rwa [List.getD_append_right _ _ _ _ (by omega), Nat.add_sub_cancel_left, ← Nat.add_assoc] at this

theorem inputBits_congr {s t : State} (hb : t.inBuf = s.inBuf) (hd : t.draws = s.draws) (hl : t.inLen = s.inLen)
    {p : Nat} {c : List Bool} (h : inputBits s p c) : inputBits t p c := by
  intro i hi
  have := h i hi
  rw [inStreamBit] at *
  rwa [inByte_congr hb hd, hl]

/-- An input bit-string ends inside IN_LEN, or where it began. -/
theorem inputBits_bound {s : State} {p : Nat} {c : List Bool} (h : inputBits s p c) :
    p + c.length ≤ max p (8 * s.inLen.toNat) := by
  rcases Nat.eq_zero_or_pos c.length with h0 | h0
  · omega
  · have := (h (c.length - 1) (by omega)).1
    omega

/-- DECODE over good symbols: the loop, the pointers and the bytes written (44_bit_unpacker.md R210). -/
theorem decodeLoop_decoded {n : Slot} {ys : List Symbol} {cs : List (List Bool)} (hp : AtPaths n ys cs) {s : State}
    (hc : s.cfg.legal = true) (hl : s.inLen.toNat ≤ s.cfg.inSize) (hi : s.ibp.toNat ≤ 8 * s.cfg.inSize)
    (hts : s.ts = .root n) (h8 : s.obp.toNat % 8 = 0) (ho : s.obp.toNat / 8 + ys.length ≤ s.cfg.outSize)
    (hb : inputBits s s.ibp.toNat cs.flatten) :
    (∀ m, decodeLoop (ys.length + m) s = decodeLoop m (decoded ys cs s))
      ∧ decoded ys cs s = { s with ibp := (decoded ys cs s).ibp, obp := (decoded ys cs s).obp,
                                   cnt := s.cnt + BitVec.ofNat 32 ys.length, outBuf := (decoded ys cs s).outBuf }
      ∧ (decoded ys cs s).ibp.toNat = s.ibp.toNat + cs.flatten.length
      ∧ (decoded ys cs s).obp.toNat = s.obp.toNat + 8 * ys.length
      ∧ (∀ k, k < ys.length → outByte (decoded ys cs s) (s.obp.toNat / 8 + k) = ys.getD k 0)
      ∧ ∀ a, (a < s.obp.toNat / 8 ∨ s.obp.toNat / 8 + ys.length ≤ a) → outByte (decoded ys cs s) a = outByte s a := by
  have hs : s.cfg.outSize ≤ 65536 ∧ s.cfg.inSize ≤ 65536 := by
    simp only [Params.legal, legalSize, Bool.and_eq_true, decide_eq_true_eq] at hc
    omega
  induction hp generalizing s with
  | nil => exact ⟨fun m => by simp [decoded], by simp [decoded], by simp [decoded], by simp [decoded], by simp, fun _ _ => rfl⟩
  | @cons y c ys cs hyc _ ih =>
    obtain ⟨w, hyc⟩ := hyc
    rw [List.flatten_cons] at hb
    have hbound := inputBits_bound hb
    obtain ⟨hb1, hb2⟩ := inputBits_append hb
    simp only [List.length_cons, List.length_append] at *
    have hib : (decodeOne y (s.ibp.toNat + c.length) s).ibp.toNat = s.ibp.toNat + c.length := by
      show (BitVec.ofNat 32 _).toNat = _
      rw [BitVec.toNat_ofNat]
      exact Nat.mod_eq_of_lt (by omega)
    have hob : (decodeOne y (s.ibp.toNat + c.length) s).obp.toNat = s.obp.toNat + 8 :=
      toNat_add_ofNat (x := s.obp) (n := 8) (by omega)
    have hout : ∀ a, outByte (decodeOne y (s.ibp.toNat + c.length) s) a
        = if a = s.obp.toNat / 8 then y else outByte s a := fun a => outByte_writeOut s _ a _
    have hd : decoded (y :: ys) (c :: cs) s = decoded ys cs (decodeOne y (s.ibp.toNat + c.length) s) := rfl
    obtain ⟨h1, h2, h3, h4, h5, h6⟩ := ih (s := decodeOne y (s.ibp.toNat + c.length) s) hc hl
      (by rw [hib]; show _ ≤ 8 * s.cfg.inSize; omega) hts (by rw [hob]; omega)
      (by rw [hob]; show _ ≤ s.cfg.outSize; omega)
      (by rw [hib]; exact inputBits_congr rfl rfl rfl hb2) hs
    rw [hd]
    rw [hob, show (s.obp.toNat + 8) / 8 = s.obp.toNat / 8 + 1 by omega] at h5 h6
    refine ⟨fun m => ?_, ?_, by rw [h3, hib, List.flatten_cons, List.length_append]; omega,
      by rw [h4, hob]; omega, fun k hk => ?_, fun a ha => ?_⟩
    · rw [show ys.length + 1 + m = (ys.length + m) + 1 by omega, decodeLoop, if_neg (by omega), hts]
      simp only [walkBits_leaf hyc hb1]
      exact h1 m
    · rw [h2]
      simp only [decodeOne, advanceObp, writeOut, BitVec.add_assoc]
      congr 2
      exact (ofNat_add_ofNat 1 _).trans (by rw [Nat.add_comm])
    · rcases k with _ | k
      · rw [h6 _ (by omega), hout, if_pos (by omega)]
        rfl
      · rw [List.getD_cons_succ, ← h5 k (by omega)]
        congr 1
        omega
    · rw [h6 a (by omega), hout, if_neg (by omega)]

/-- DECODE's loop changes IBP, OBP, CNT and OUT alone. -/
theorem decodeLoop_frame (n : Nat) (s : State) : ∃ i o c m,
    (decodeLoop n s).state = { s with ibp := i, obp := o, cnt := c, outBuf := m } := by
  induction n generalizing s with
  | zero => exact ⟨s.ibp, s.obp, s.cnt, s.outBuf, rfl⟩
  | succ n ih =>
    have hs : ∃ i o c m, s = { s with ibp := i, obp := o, cnt := c, outBuf := m } := ⟨s.ibp, s.obp, s.cnt, s.outBuf, rfl⟩
    rw [decodeLoop]
    split
    · exact hs
    · split
      · exact hs
      · exact hs
      · split
        · next x p _ =>
          obtain ⟨i, o, c, m, h⟩ := ih (decodeOne x p s)
          exact ⟨i, o, c, m, h⟩
        · exact hs
        · exact hs

/-- What holds at the start of DECODE's loop and is kept by a whole symbol holds at its end. -/
theorem decodeLoop_invariant (I : State → Prop)
    (step : ∀ s x p, I s → s.obp.toNat / 8 < s.cfg.outSize → p ≤ max s.ibp.toNat (8 * s.inLen.toNat) →
      I (decodeOne x p s)) {n : Nat} {s : State} (h : I s) : I (decodeLoop n s).state := by
  induction n generalizing s with
  | zero => exact h
  | succ n ih =>
    rw [decodeLoop]
    split
    · exact h
    · next ho =>
      split
      · exact h
      · exact h
      · split
        · next hw => exact ih (step s _ _ h (by omega) (walkBits_bound hw))
        · exact h
        · exact h

/-! ## Bodies -/

/-- An ENCODE loop that raises, raises one of its three errors. -/
theorem encodeLoop_raised {n : Nat} {s t : State} {e : ErrorCode} {v : Word} (h : encodeLoop n s = .raised e v t) :
    e = .trunc ∨ e = .nocode ∨ e = .outovf := by
  induction n generalizing s with
  | zero => simp [encodeLoop] at h
  | succ n ih =>
    rw [encodeLoop] at h
    dsimp only at h
    split at h
    · simp only [Run.raised.injEq] at h
      exact .inl h.1.symm
    · split at h
      · simp only [Run.raised.injEq] at h
        exact .inr (.inl h.1.symm)
      · split at h
        · simp only [Run.raised.injEq] at h
          exact .inr (.inr h.1.symm)
        · exact ih h

/-- A DECODE loop that raises, raises one of its four errors. -/
theorem decodeLoop_raised {n : Nat} {s t : State} {e : ErrorCode} {v : Word} (h : decodeLoop n s = .raised e v t) :
    e = .outovf ∨ e = .seq ∨ e = .badcode ∨ e = .trunc := by
  induction n generalizing s with
  | zero => simp [decodeLoop] at h
  | succ n ih =>
    rw [decodeLoop] at h
    split at h
    · simp only [Run.raised.injEq] at h
      simp [← h.1]
    · split at h
      · simp only [Run.raised.injEq] at h
        simp [← h.1]
      · simp only [Run.raised.injEq] at h
        simp [← h.1]
      · split at h
        · exact ih h
        · simp only [Run.raised.injEq] at h
          simp [← h.1]
        · simp only [Run.raised.injEq] at h
          simp [← h.1]

/-- No body raises NONE. -/
theorem runOf_raised {i : Instr} {s t : State} {e : ErrorCode} {v : Word} (h : runOf i s = .raised e v t) :
    e ≠ .none := by
  cases i <;> simp only [runOf, reduceCtorEq] at h
  case derive =>
    unfold runDerive at h
    split at h <;> simp_all
    simp [← h.1]
  case ldcode =>
    unfold runLdcode at h
    repeat' split at h
    all_goals simp at h
    all_goals simp [← h.1]
  case rebuild =>
    unfold runRebuild at h
    split at h <;> simp at h
    simp [← h.1]
  case putb =>
    unfold runPutb at h
    repeat' split at h
    all_goals simp at h
    all_goals simp [← h.1]
  case putcode =>
    unfold runPutcode at h
    repeat' split at h
    all_goals simp at h
    all_goals simp [← h.1]
  case encode =>
    unfold runEncode at h
    split at h
    · simp only [Run.raised.injEq] at h
      simp [← h.1]
    · rcases encodeLoop_raised h with rfl | rfl | rfl <;> simp
  case getb =>
    unfold runGetb at h
    repeat' split at h
    all_goals simp at h
    all_goals simp [← h.1]
  case decode =>
    unfold runDecode at h
    repeat' split at h
    · simp only [Run.raised.injEq] at h
      simp [← h.1]
    · simp only [Run.raised.injEq] at h
      simp [← h.1]
    · rcases decodeLoop_raised h with rfl | rfl | rfl | rfl <;> simp

/-- The fields no body writes: the parameters, CTRL, STATUS, the latch, ARG0, IN_LEN, CODE_SEL, IN and the model's own. -/
theorem runOf_frame (i : Instr) (s : State) : ∃ fr re cn co tr tw ib ob ou, (runOf i s).state = { s with
    freq := fr, res := re, cnt := cn, codes := co, ts := tr, total := tw, ibp := ib, obp := ob, outBuf := ou } := by
  cases i with
  | nop => exact ⟨_, _, _, _, _, _, _, _, _, rfl⟩
  | clrfreq => exact ⟨_, _, _, _, _, _, _, _, _, rfl⟩
  | build => exact ⟨_, _, _, _, _, _, _, _, _, rfl⟩
  | clrcode => exact ⟨_, _, _, _, _, _, _, _, _, rfl⟩
  | flush => exact ⟨_, _, _, _, _, _, _, _, _, rfl⟩
  | align => exact ⟨_, _, _, _, _, _, _, _, _, rfl⟩
  | derive =>
    simp only [runOf, runDerive]
    split <;> exact ⟨_, _, _, _, _, _, _, _, _, rfl⟩
  | ldcode x len =>
    simp only [runOf, runLdcode]
    repeat' split
    all_goals exact ⟨_, _, _, _, _, _, _, _, _, rfl⟩
  | rebuild =>
    simp only [runOf, runRebuild]
    split <;> exact ⟨_, _, _, _, _, _, _, _, _, rfl⟩
  | putb b =>
    simp only [runOf, runPutb]
    repeat' split
    all_goals exact ⟨_, _, _, _, _, _, _, _, _, rfl⟩
  | putcode x =>
    simp only [runOf, runPutcode, appendCode]
    repeat' split
    · exact ⟨_, _, _, _, _, _, _, _, _, rfl⟩
    · exact ⟨_, _, _, _, _, _, _, _, _, rfl⟩
    · exact ⟨_, _, _, _, _, _, _, _, _, appendBits_eq _ _⟩
  | encode =>
    simp only [runOf, runEncode]
    split
    · exact ⟨_, _, _, _, _, _, _, _, _, rfl⟩
    · obtain ⟨a, b, c, d, h⟩ := encodeLoop_frame s.arg0.toNat (clearCnt s)
      exact ⟨_, _, _, _, _, _, _, _, _, h⟩
  | getb =>
    simp only [runOf, runGetb]
    repeat' split
    all_goals exact ⟨_, _, _, _, _, _, _, _, _, rfl⟩
  | decode =>
    simp only [runOf, runDecode]
    repeat' split
    · exact ⟨_, _, _, _, _, _, _, _, _, rfl⟩
    · exact ⟨_, _, _, _, _, _, _, _, _, rfl⟩
    · obtain ⟨a, b, c, d, h⟩ := decodeLoop_frame s.arg0.toNat (clearCnt s)
      exact ⟨_, _, _, _, _, _, _, _, _, h⟩

/-- The end of a command: BUSY falls, DONE rises, and an error sets its record. -/
theorem finish_cases (i : Instr) (s : State) :
    (finish (runOf i s) = { (runOf i s).state with busy := false, done := true })
    ∨ ∃ e v, e ≠ .none ∧ finish (runOf i s)
        = { (runOf i s).state with err := true, errcode := e, errinfo := v, busy := false, done := true } := by
  cases h : runOf i s with
  | ok t => exact .inl rfl
  | raised e v t => exact .inr ⟨e, v, runOf_raised h, rfl⟩

/-! ## OUT between the OBP before and after -/

/-- OUT reads as before below the OBP before and above the OBP after. -/
def OutKept (s t : State) : Prop :=
  t.cfg = s.cfg ∧ s.obp.toNat ≤ t.obp.toNat
    ∧ ∀ a, (a < s.obp.toNat / 8 ∨ (t.obp.toNat + 7) / 8 ≤ a) → outByte t a = outByte s a

theorem OutKept.refl (s : State) : OutKept s s := ⟨rfl, Nat.le_refl _, fun _ _ => rfl⟩

theorem OutKept.trans {s t u : State} (h : OutKept s t) (k : OutKept t u) : OutKept s u := by
  obtain ⟨h1, h2, h3⟩ := h
  obtain ⟨k1, k2, k3⟩ := k
  exact ⟨k1.trans h1, by omega, fun a ha => (k3 a (by omega)).trans (h3 a (by omega))⟩

/-- An append that fits. -/
theorem outKept_appendCode {s : State} {x : Symbol} (hc : s.cfg.legal = true) (hf : fits s (codeOf s x).cl.toNat = true) :
    OutKept s (appendCode x s) := by
  have hs : s.cfg.outSize ≤ 65536 := by
    simp only [Params.legal, legalSize, Bool.and_eq_true, decide_eq_true_eq] at hc
    omega
  simp only [fits, decide_eq_true_eq] at hf
  have hx := s.obp.isLt
  have hlen : (codeBits (codeOf s x)).length = (codeOf s x).cl.toNat := by simp [codeBits]
  have hlt : s.obp.toNat + (codeBits (codeOf s x)).length < 2 ^ 32 := by omega
  have ho := appendBits_obp_toNat hlt
  exact ⟨appendBits_cfg _ _, by rw [appendCode, ho]; omega, fun a ha => by
    rw [appendCode, ho] at ha
    exact outByte_appendBits hlt fun i hi => by omega⟩

/-- A byte written at OBP inside OUT. -/
theorem outKept_byte {s : State} {x : Byte} (hc : s.cfg.legal = true) (ho : s.obp.toNat / 8 < s.cfg.outSize) :
    OutKept s (advanceObp 8 (writeOut (s.obp.toNat / 8) x s)) := by
  have hs : s.cfg.outSize ≤ 65536 := by
    simp only [Params.legal, legalSize, Bool.and_eq_true, decide_eq_true_eq] at hc
    omega
  have h8 : (advanceObp 8 (writeOut (s.obp.toNat / 8) x s)).obp.toNat = s.obp.toNat + 8 :=
    toNat_add_ofNat (x := s.obp) (n := 8) (by omega)
  exact ⟨rfl, by omega, fun a ha => (outByte_writeOut s _ a x).trans (if_neg (by omega))⟩

/-- ENCODE's loop keeps OUT outside the bits it appends. -/
theorem encodeLoop_outKept {n : Nat} {s : State} (hc : s.cfg.legal = true) : OutKept s (encodeLoop n s).state :=
  encodeLoop_invariant (OutKept s) (fun _ _ h _ hf => h.trans (outKept_appendCode (h.1 ▸ hc) hf)) (OutKept.refl s)

/-- DECODE's loop keeps OUT outside the bytes it writes. -/
theorem decodeLoop_outKept {n : Nat} {s : State} (hc : s.cfg.legal = true) : OutKept s (decodeLoop n s).state :=
  decodeLoop_invariant (OutKept s) (fun _ _ _ h ho _ => h.trans (outKept_byte (h.1 ▸ hc) ho)) (OutKept.refl s)

end Sys2Proof.Machine
end

