-- ==== Sys2Proof/Laws/Encoding.lean ====
section
/-! SUPPORT. The fields of a command word (30_encoding.md R90): what the encoder puts in, the accessors read. -/

namespace Sys2Proof.Laws

/-- A command word as a number: OP, A and B at their places, RSV 0. -/
theorem commandWord_toNat (op a b : BitVec 8) :
    (commandWord op a b).toNat = op.toNat + 0x100 * a.toNat + 0x10000 * b.toNat := by
  have ho := op.isLt
  have ha := a.isLt
  have hb := b.isLt
  simp only [commandWord, BitVec.toNat_append, Nat.shiftLeft_eq]
  rw [Nat.mul_comm _ (2 ^ 8), ← Nat.two_pow_add_eq_or_of_lt ho,
    Nat.mul_comm _ (2 ^ 8), ← Nat.two_pow_add_eq_or_of_lt ha]
  simp
  omega

theorem fieldOP_toNat (w : Word) : (fieldOP w).toNat = w.toNat % 0x100 := by
  simp [fieldOP, BitVec.extractLsb'_toNat]

theorem fieldA_toNat (w : Word) : (fieldA w).toNat = w.toNat / 0x100 % 0x100 := by
  simp [fieldA, BitVec.extractLsb'_toNat, Nat.shiftRight_eq_div_pow]

theorem fieldB_toNat (w : Word) : (fieldB w).toNat = w.toNat / 0x10000 % 0x100 := by
  simp [fieldB, BitVec.extractLsb'_toNat, Nat.shiftRight_eq_div_pow]

theorem fieldRSV_toNat (w : Word) : (fieldRSV w).toNat = w.toNat / 0x1000000 := by
  have := w.isLt
  simp only [fieldRSV, BitVec.extractLsb'_toNat, Nat.shiftRight_eq_div_pow]
  omega

@[simp] theorem fieldOP_commandWord (op a b : BitVec 8) : fieldOP (commandWord op a b) = op := by
  apply BitVec.eq_of_toNat_eq
  rw [fieldOP_toNat, commandWord_toNat]
  omega

@[simp] theorem fieldA_commandWord (op a b : BitVec 8) : fieldA (commandWord op a b) = a := by
  apply BitVec.eq_of_toNat_eq
  rw [fieldA_toNat, commandWord_toNat]
  omega

@[simp] theorem fieldB_commandWord (op a b : BitVec 8) : fieldB (commandWord op a b) = b := by
  apply BitVec.eq_of_toNat_eq
  rw [fieldB_toNat, commandWord_toNat]
  omega

@[simp] theorem fieldRSV_commandWord (op a b : BitVec 8) : fieldRSV (commandWord op a b) = 0 := by
  apply BitVec.eq_of_toNat_eq
  rw [fieldRSV_toNat, commandWord_toNat]
  simp
  omega

/-- A word is its four fields. -/
theorem word_eq_of_fields {v w : Word} (ho : fieldOP v = fieldOP w) (ha : fieldA v = fieldA w)
    (hb : fieldB v = fieldB w) (hr : fieldRSV v = fieldRSV w) : v = w := by
  apply BitVec.eq_of_toNat_eq
  replace ho := congrArg BitVec.toNat ho
  replace ha := congrArg BitVec.toNat ha
  replace hb := congrArg BitVec.toNat hb
  replace hr := congrArg BitVec.toNat hr
  rw [fieldOP_toNat, fieldOP_toNat] at ho
  rw [fieldA_toNat, fieldA_toNat] at ha
  rw [fieldB_toNat, fieldB_toNat] at hb
  rw [fieldRSV_toNat, fieldRSV_toNat] at hr
  omega

end Sys2Proof.Laws
end

