-- ==== Sys2Proof/Laws/Optimal.lean ====
section
/-! SUPPORT. Why the tree of BUILD is a best one (41_tree_builder.md R135): Kraft's inequality for prefix codes, and the
exchange argument for always merging the two least weights. -/

namespace Sys2Proof.Machine

/-! ## Kraft's inequality -/

/-- `Σ 2^(-length)` over a list of lengths. -/
def kraftSum (l : List Nat) : ℚ := (l.map (fun n => (1 / 2 : ℚ) ^ n)).sum

@[simp] theorem kraftSum_nil : kraftSum [] = 0 := rfl
@[simp] theorem kraftSum_cons (n : Nat) (l : List Nat) : kraftSum (n :: l) = (1 / 2 : ℚ) ^ n + kraftSum l := by
  simp [kraftSum]

theorem kraftSum_perm {l m : List Nat} (h : l.Perm m) : kraftSum l = kraftSum m := (h.map _).sum_eq

theorem kraftSum_nonneg (l : List Nat) : 0 ≤ kraftSum l := by
  induction l with
  | nil => simp
  | cons n l ih => rw [kraftSum_cons]; positivity

/-- No element is the beginning of another. -/
abbrev PrefixFree (cs : List (List Bool)) : Prop := cs.Pairwise (fun a b => ¬ a <+: b ∧ ¬ b <+: a)

/-- The codes that begin with `b`, without that bit. -/
def tailsAt (b : Bool) (cs : List (List Bool)) : List (List Bool) :=
  cs.filterMap (fun c => match c with
    | [] => none
    | a :: t => if a = b then some t else none)

theorem tailsAt_prefixFree {b : Bool} {cs : List (List Bool)} (h : PrefixFree cs) : PrefixFree (tailsAt b cs) := by
  refine List.Pairwise.filterMap _ ?_ h
  intro c d hcd t ht u hu
  match c, d with
  | [], _ => simp at ht
  | _ :: _, [] => simp at hu
  | a :: c, e :: d =>
    simp only [Option.ite_none_right_eq_some, Option.some.injEq] at ht hu
    obtain ⟨rfl, rfl⟩ := ht
    obtain ⟨rfl, rfl⟩ := hu
    simpa [List.cons_prefix_cons] using hcd

theorem tailsAt_length_lt {b : Bool} {cs : List (List Bool)} {k : Nat} (h : ∀ c ∈ cs, c.length ≤ k + 1) :
    ∀ c ∈ tailsAt b cs, c.length ≤ k := by
  intro t ht
  obtain ⟨c, hc, he⟩ := List.mem_filterMap.1 ht
  match c with
  | [] => simp at he
  | a :: c =>
    simp only [Option.ite_none_right_eq_some, Option.some.injEq] at he
    have := h _ hc
    rw [← he.2]
    simpa using this

/-- Without the empty code the sum halves over the two first bits. -/
theorem kraftSum_tails {cs : List (List Bool)} (h : [] ∉ cs) : kraftSum (cs.map List.length)
    = (kraftSum ((tailsAt false cs).map List.length) + kraftSum ((tailsAt true cs).map List.length)) / 2 := by
  induction cs with
  | nil => simp [tailsAt]
  | cons c cs ih =>
    simp only [List.mem_cons, not_or] at h
    have ih := ih h.2
    match c, h.1 with
    | false :: c, _ =>
      simp only [tailsAt, List.filterMap_cons, List.map_cons, kraftSum_cons, List.length_cons, ih, if_true,
        Bool.false_eq_true, if_false, pow_succ]
      ring
    | true :: c, _ =>
      simp only [tailsAt, List.filterMap_cons, List.map_cons, kraftSum_cons, List.length_cons, ih, if_true,
        Bool.true_eq_false, if_false, pow_succ]
      ring

/-- Kraft's inequality for a prefix code. -/
theorem kraft_le_one {cs : List (List Bool)} (h : PrefixFree cs) : kraftSum (cs.map List.length) ≤ 1 := by
  have hk : ∀ k, ∀ cs : List (List Bool), PrefixFree cs → (∀ c ∈ cs, c.length ≤ k) →
      kraftSum (cs.map List.length) ≤ 1 := by
    intro k
    have hnil : ∀ cs : List (List Bool), PrefixFree cs → [] ∈ cs → kraftSum (cs.map List.length) ≤ 1 := by
      intro cs hp hm
      match cs, hp, hm with
      | [c], _, hm =>
        obtain rfl : [] = c := by simpa using hm
        simp
      | c :: d :: cs, hp, hm =>
        exfalso
        rw [PrefixFree, List.pairwise_cons] at hp
        rcases List.mem_cons.1 hm with rfl | hm
        · exact (hp.1 d (by simp)).1 List.nil_prefix
        · exact (hp.1 [] hm).2 List.nil_prefix
    induction k with
    | zero =>
      intro cs hp hl
      match cs, hp with
      | [], _ => simp
      | c :: cs, hp =>
        exact hnil _ hp (List.mem_cons.2 (.inl (List.length_eq_zero_iff.1 (Nat.le_zero.1 (hl c (by simp)))).symm))
    | succ k ih =>
      intro cs hp hl
      by_cases hm : [] ∈ cs
      · exact hnil cs hp hm
      · rw [kraftSum_tails hm]
        have h0 := ih (tailsAt false cs) (tailsAt_prefixFree hp) (tailsAt_length_lt hl)
        have h1 := ih (tailsAt true cs) (tailsAt_prefixFree hp) (tailsAt_length_lt hl)
        linarith
  refine hk (cs.map List.length).sum cs h fun c hc => ?_
  exact List.single_le_sum (by simp) _ (List.mem_map_of_mem hc)

/-! ## Merging the two least weights -/

/-- `Σ weight · length` over pairs. -/
def pairCost (p : List (Nat × Nat)) : Nat := (p.map (fun e => e.1 * e.2)).sum

@[simp] theorem pairCost_cons (e : Nat × Nat) (p : List (Nat × Nat)) : pairCost (e :: p) = e.1 * e.2 + pairCost p := by
  simp [pairCost]

theorem pairCost_perm {p q : List (Nat × Nat)} (h : p.Perm q) : pairCost p = pairCost q := (h.map _).sum_eq

/-- Merging always the two least weights of `q` until one is left; the sum of the merged weights is `c`. -/
inductive Merges : List Nat → Nat → Prop where
  | one (w : Nat) : Merges [w] 0
  | merge {q r : List Nat} {x y c : Nat} : q.Perm (x :: y :: r) → x ≤ y → (∀ z ∈ r, y ≤ z) →
      Merges ((x + y) :: r) c → Merges q (c + (x + y))

theorem merges_perm {q q' : List Nat} {c : Nat} (hp : q'.Perm q) (h : Merges q' c) : Merges q c := by
  cases h with
  | one w =>
    rw [List.perm_singleton.1 hp.symm]
    exact .one w
  | merge hq hxy hy h => exact .merge (hp.symm.trans hq) hxy hy h

/-- If one length is greater than all others, it can be one less (the sum of the others is a multiple of twice its
term). -/
theorem kraft_shorten {l : List Nat} {k : Nat} (hl : ∀ n ∈ l, n ≤ k) (h : kraftSum ((k + 1) :: l) ≤ 1) :
    kraftSum (k :: l) ≤ 1 := by
  have hn : ∀ l : List Nat, (∀ n ∈ l, n ≤ k) → ∃ m : Nat, kraftSum l = m * (1 / 2 : ℚ) ^ k := by
    intro l
    induction l with
    | nil => exact fun _ => ⟨0, by simp⟩
    | cons n l ih =>
      intro hl
      obtain ⟨m, hm⟩ := ih fun x hx => hl x (by simp [hx])
      have hnk := hl n (by simp)
      refine ⟨2 ^ (k - n) + m, ?_⟩
      have : (1 / 2 : ℚ) ^ n = 2 ^ (k - n) * (1 / 2) ^ k := by
        conv_rhs => rw [show k = (k - n) + n by omega, pow_add]
        rw [Nat.add_sub_cancel, ← mul_assoc, ← mul_pow]
        norm_num
      rw [kraftSum_cons, hm, this]
      push_cast
      ring
  obtain ⟨m, hm⟩ := hn l hl
  rw [kraftSum_cons, hm] at h ⊢
  have hp : (1 / 2 : ℚ) ^ k * 2 ^ k = 1 := by rw [← mul_pow]; norm_num
  have h2 : ((2 * m + 1 : Nat) : ℚ) ≤ (2 ^ (k + 1) : Nat) := by
    have := mul_le_mul_of_nonneg_right h (show (0 : ℚ) ≤ 2 ^ (k + 1) by positivity)
    push_cast
    calc (2 * (m : ℚ) + 1) = ((1 / 2) ^ (k + 1) + m * (1 / 2) ^ k) * 2 ^ (k + 1) := by
          rw [pow_succ, pow_succ]; linear_combination (-(1 + 2 * (m : ℚ))) * hp
      _ ≤ 1 * 2 ^ (k + 1) := this
      _ = 2 ^ (k + 1) := one_mul _
  have h3 : m + 1 ≤ 2 ^ k := by
    have := (Nat.cast_le (α := ℚ)).1 h2
    rw [pow_succ] at this
    omega
  have h4 : ((m + 1 : Nat) : ℚ) ≤ 2 ^ k := by exact_mod_cast h3
  calc (1 / 2 : ℚ) ^ k + m * (1 / 2) ^ k = ((m + 1 : Nat) : ℚ) * (1 / 2) ^ k := by push_cast; ring
    _ ≤ 2 ^ k * (1 / 2) ^ k := mul_le_mul_of_nonneg_right h4 (by positivity)
    _ = 1 := by rw [mul_comm]; exact hp

/-- Give the least weight `x` a greatest length: the cost does not rise. -/
theorem swap_least {a x m : Nat} {p : List (Nat × Nat)} (hm : ∀ e ∈ p, e.2 ≤ m) (hx : x ∈ a :: p.map Prod.fst)
    (hmin : x ≤ a) :
    ∃ p' : List (Nat × Nat), (x :: p'.map Prod.fst).Perm (a :: p.map Prod.fst) ∧ (p'.map Prod.snd).Perm (p.map Prod.snd)
      ∧ x * m + pairCost p' ≤ a * m + pairCost p := by
  rcases List.mem_cons.1 hx with rfl | hx
  · exact ⟨p, List.Perm.refl _, List.Perm.refl _, le_refl _⟩
  · obtain ⟨⟨x', l⟩, he, rfl⟩ := List.mem_map.1 hx
    obtain ⟨p1, p2, rfl⟩ := List.append_of_mem he
    have hperm : (p1 ++ (x', l) :: p2).Perm ((x', l) :: (p1 ++ p2)) := List.perm_middle
    refine ⟨(a, l) :: (p1 ++ p2), ?_, ((hperm.map Prod.snd).symm), ?_⟩
    · exact (List.Perm.swap a x' _).trans ((hperm.map Prod.fst).symm.cons a)
    · rw [pairCost_perm hperm, pairCost_cons, pairCost_cons]
      have hlm : l ≤ m := hm _ he
      have : (a - x') * l ≤ (a - x') * m := Nat.mul_le_mul_left _ hlm
      obtain ⟨d, rfl⟩ := Nat.exists_eq_add_of_le hmin
      simp only [Nat.add_sub_cancel_left] at this
      simp only [Nat.add_mul]
      omega

/-- Some assignment of no greater cost gives the two least weights one length, a greatest one. -/
theorem deepest_two {x y : Nat} {r : List Nat} (hxy : x ≤ y) (hy : ∀ z ∈ r, y ≤ z) :
    ∀ (k : Nat) (p : List (Nat × Nat)), (p.map Prod.snd).sum = k → (p.map Prod.fst).Perm (x :: y :: r) →
      kraftSum (p.map Prod.snd) ≤ 1 →
      ∃ (l : Nat) (p' : List (Nat × Nat)), (p'.map Prod.fst).Perm r ∧ kraftSum ((l + 1) :: (l + 1) :: p'.map Prod.snd) ≤ 1
        ∧ x * (l + 1) + (y * (l + 1) + pairCost p') ≤ pairCost p := by
  intro k
  induction k using Nat.strong_induction_on with
  | _ k ih =>
    intro p hk hw hkr
    have hne : p ≠ [] := by rintro rfl; simp at hw
    obtain ⟨⟨a, m⟩, hmem, hmax⟩ : ∃ e ∈ p, ∀ e' ∈ p, e'.2 ≤ e.2 := by
      obtain ⟨e, he⟩ := Option.ne_none_iff_exists'.1 (mt List.argmax_eq_none.1 hne : List.argmax Prod.snd p ≠ none)
      exact ⟨e, List.argmax_mem he, fun e' h' => List.le_of_mem_argmax h' he⟩
    obtain ⟨p1, hp1⟩ : ∃ p1, p.Perm ((a, m) :: p1) := by
      obtain ⟨u, v, rfl⟩ := List.append_of_mem hmem
      exact ⟨u ++ v, List.perm_middle⟩
    have hmax1 : ∀ e ∈ p1, e.2 ≤ m := fun e he => hmax e (hp1.mem_iff.2 (by simp [he]))
    have hw1 : (a :: p1.map Prod.fst).Perm (x :: y :: r) := ((hp1.map Prod.fst).symm).trans hw
    have hkr1 : kraftSum (m :: p1.map Prod.snd) ≤ 1 := by
      exact (kraftSum_perm (hp1.map Prod.snd)).symm.trans_le hkr
    have hmin : ∀ w ∈ x :: y :: r, x ≤ w := by
      intro w hwm
      rcases List.mem_cons.1 hwm with rfl | hwm
      · exact le_refl _
      · rcases List.mem_cons.1 hwm with rfl | hwm
        · exact hxy
        · exact hxy.trans (hy w hwm)
    by_cases hsecond : ∃ e ∈ p1, e.2 = m
    · obtain ⟨p2, h21, h22, h23⟩ := swap_least (x := x) hmax1 (hw1.mem_iff.2 (by simp))
        (hmin a (hw1.mem_iff.1 (by simp)))
      have hw2 : (p2.map Prod.fst).Perm (y :: r) := (h21.trans hw1).cons_inv
      obtain ⟨e, he, rfl⟩ := hsecond
      obtain ⟨⟨b, m⟩, hb, hbm⟩ := List.mem_map.1 (h22.mem_iff.2 (List.mem_map_of_mem (f := Prod.snd) he))
      simp only at hbm
      subst hbm
      obtain ⟨p3, hp3⟩ : ∃ p3, p2.Perm ((b, e.2) :: p3) := by
        obtain ⟨u, v, rfl⟩ := List.append_of_mem hb
        exact ⟨u ++ v, List.perm_middle⟩
      have hmax3 : ∀ e' ∈ p3, e'.2 ≤ e.2 := fun e' he' => by
        have : e'.2 ∈ p1.map Prod.snd := h22.mem_iff.1 (List.mem_map_of_mem (hp3.mem_iff.2 (by simp [he'])))
        obtain ⟨e'', h1, h2⟩ := List.mem_map.1 this
        rw [← h2]
        exact hmax1 e'' h1
      have hw3 : (b :: p3.map Prod.fst).Perm (y :: r) := ((hp3.map Prod.fst).symm).trans hw2
      have hyb : y ≤ b := by
        rcases List.mem_cons.1 (hw3.mem_iff.1 (List.mem_cons_self)) with rfl | hb
        · exact le_refl _
        · exact hy b hb
      obtain ⟨p4, h41, h42, h43⟩ := swap_least (x := y) hmax3 (hw3.mem_iff.2 (by simp)) hyb
      have hlen : (p1.map Prod.snd).Perm (e.2 :: p4.map Prod.snd) :=
        h22.symm.trans ((hp3.map Prod.snd).trans (h42.symm.cons _))
      have hkr4 : kraftSum (e.2 :: e.2 :: p4.map Prod.snd) ≤ 1 := by
        rw [← kraftSum_perm (hlen.cons _)]; exact hkr1
      have hpos : e.2 ≠ 0 := by
        intro h0
        rw [h0, kraftSum_cons, kraftSum_cons] at hkr4
        have := kraftSum_nonneg (p4.map Prod.snd)
        norm_num at hkr4
        linarith
      obtain ⟨l, hl⟩ := Nat.exists_eq_succ_of_ne_zero hpos
      refine ⟨l, p4, (h41.trans hw3).cons_inv, by rw [← Nat.succ_eq_add_one, ← hl]; exact hkr4, ?_⟩
      rw [← Nat.succ_eq_add_one, ← hl, pairCost_perm hp1, pairCost_cons]
      have h5 : pairCost p2 = b * e.2 + pairCost p3 := by rw [pairCost_perm hp3, pairCost_cons]
      simp only at *
      omega
    · have hlt : ∀ e ∈ p1, e.2 < m := fun e he => lt_of_le_of_ne (hmax1 e he) fun h => hsecond ⟨e, he, h⟩
      have hlen := hw1.length_eq
      obtain ⟨e, he⟩ : ∃ e, e ∈ p1 := by
        match p1, hlen with
        | [], h => simp at h
        | e :: _, _ => exact ⟨e, by simp⟩
      obtain ⟨m', rfl⟩ := Nat.exists_eq_succ_of_ne_zero (Nat.ne_of_gt (Nat.zero_lt_of_lt (hlt e he)))
      have hk1 : (p.map Prod.snd).sum = (m' + 1) + (p1.map Prod.snd).sum := by
        rw [(hp1.map Prod.snd).sum_eq]; simp
      obtain ⟨l, p', h1, h2, h3⟩ := ih (m' + (p1.map Prod.snd).sum) (by omega) ((a, m') :: p1) (by simp) hw1
        (kraft_shorten (k := m') (fun n hn => by
          obtain ⟨e, he, rfl⟩ := List.mem_map.1 hn
          exact Nat.le_of_lt_succ (hlt e he)) hkr1)
      refine ⟨l, p', h1, h2, h3.trans ?_⟩
      rw [pairCost_perm hp1, pairCost_cons, pairCost_cons]
      exact Nat.add_le_add_right (Nat.mul_le_mul_left _ (Nat.le_succ _)) _

/-- The merged weights are at most the cost of any lengths that Kraft's inequality allows. -/
theorem merges_le {q : List Nat} {c : Nat} (h : Merges q c) :
    ∀ p : List (Nat × Nat), (p.map Prod.fst).Perm q → kraftSum (p.map Prod.snd) ≤ 1 → c ≤ pairCost p := by
  induction h with
  | one w => exact fun _ _ _ => Nat.zero_le _
  | merge hq hxy hy _ ih =>
    intro p hp hk
    obtain ⟨l, p', h1, h2, h3⟩ := deepest_two hxy hy _ p rfl (hp.trans hq) hk
    have := ih ((_, l) :: p') (h1.cons _) (by
      refine le_trans (le_of_eq ?_) h2
      rw [List.map_cons, kraftSum_cons, kraftSum_cons, kraftSum_cons, pow_succ]
      ring)
    rw [pairCost_cons] at this
    simp only [Nat.add_mul, Nat.mul_add, Nat.mul_one] at *
    omega

/-! ## The tree of BUILD -/

/-- The sum of the weights of the internal nodes. -/
def innerWeight : Slot → Nat
  | .none => 0
  | .leaf _ _ => 0
  | .internal w l r => w.toNat + innerWeight l + innerWeight r

/-- The weighted lengths of the paths to the leaves add up to the internal weights. -/
theorem innerWeight_eq_paths {s : State} {len : Symbol → Nat} {n : Slot} (hs : weightsAreSums s n) {d : Nat}
    (h : ∀ c x w, followPath n c = .leaf w x → len x = c.length + d) :
    ((leafSyms n).map (fun x => (freqOf s x).toNat * len x)).sum = innerWeight n + d * freqSumOf s (leafSyms n) := by
  induction n generalizing d with
  | none => simp [leafSyms, innerWeight, freqSumOf]
  | leaf w x =>
    have := h [] x w rfl
    simp only [List.length_nil, Nat.zero_add] at this
    simp [leafSyms, innerWeight, freqSumOf, this, Nat.mul_comm]
  | internal w l r ihl ihr =>
    obtain ⟨hw, hl, hr⟩ := hs
    have h1 := ihl hl (d := d + 1) fun c x w' hc => by
      have := h (false :: c) x w' (by simpa [followPath] using hc)
      simp only [List.length_cons] at this
      omega
    have h2 := ihr hr (d := d + 1) fun c x w' hc => by
      have := h (true :: c) x w' (by simpa [followPath] using hc)
      simp only [List.length_cons] at this
      omega
    have hw' : w.toNat = freqSumOf s (leafSyms l) + freqSumOf s (leafSyms r) := by
      rw [hw, ← freqSumOf_append]; rfl
    simp only [leafSyms, List.map_append, List.sum_append, h1, h2, innerWeight, freqSumOf_append, hw', Nat.add_mul,
      Nat.mul_add, Nat.one_mul]
    omega

theorem mergeNodes_weight (x y : Slot) : slotWeight (mergeNodes x y) = slotWeight x + slotWeight y := rfl
theorem mergeNodes_syms (x y : Slot) : leafSyms (mergeNodes x y) = leafSyms x ++ leafSyms y := rfl

/-- The weights of a queue. -/
def queueWeights (q : List QueueItem) : List Nat := q.map (fun i => (slotWeight i.node).toNat)

/-- Merging a queue in key order merges the two least weights each time. -/
theorem mergeAll_merges {s : State} {f k : Nat} {q : List QueueItem} (hq : KeySorted q) (hk : ∀ i ∈ q, i.seq < k)
    (hg : (∀ i ∈ q, Grown s i.node) ∧ (queueSyms q).Perm (presentIn s allSymbols)) (hf : q.length ≤ f + 1)
    {i : QueueItem} (he : mergeAll f k q = [i]) :
    ∃ c, Merges (queueWeights q) c ∧ innerWeight i.node = c + (q.map (fun j => innerWeight j.node)).sum := by
  induction f generalizing k q with
  | zero =>
    obtain rfl : q = [i] := by simpa [mergeAll] using he
    exact ⟨0, .one _, by simp⟩
  | succ f ih =>
    match q, hq, hk, hg, hf, he with
    | [], _, _, _, _, he => simp [mergeAll] at he
    | [j], _, _, _, _, he =>
      obtain rfl : j = i := by simpa [mergeAll] using he
      exact ⟨0, .one _, by simp⟩
    | x :: y :: q, hq, hk, hg, hf, he =>
      have hi := insertItem_perm { node := mergeNodes x.node y.node, seq := k } q
      obtain ⟨hx, hq'⟩ := List.pairwise_cons.1 hq
      obtain ⟨hy, hq''⟩ := List.pairwise_cons.1 hq'
      have hgs := grown_step (k := k) hg
      obtain ⟨c, hc, hw⟩ := ih (k := k + 1) (q := insertItem { node := mergeNodes x.node y.node, seq := k } q)
        (insertItem_sorted hq'' fun z hz => Nat.ne_of_lt (hk z (by simp [hz])))
        (fun z hz => by
          rcases List.mem_cons.1 (hi.mem_iff.1 hz) with rfl | hz
          · exact Nat.lt_succ_self _
          · exact Nat.lt_succ_of_lt (hk z (by simp [hz])))
        hgs (by rw [insertItem_length]; simp only [List.length_cons] at hf; omega) he
      have hm : Grown s (mergeNodes x.node y.node) := hgs.1 _ (hi.mem_iff.2 List.mem_cons_self)
      have hxw := (hg.1 x (by simp)).2.2
      have hyw := (hg.1 y (by simp)).2.2
      have hsum : (slotWeight x.node + slotWeight y.node).toNat
          = (slotWeight x.node).toNat + (slotWeight y.node).toNat := by
        have := hm.2.2
        rw [mergeNodes_syms, freqSumOf_append, mergeNodes_weight] at this
        rw [this, hxw, hyw]
      have hle : ∀ {a b : QueueItem}, keyLt a b = true → (slotWeight a.node).toNat ≤ (slotWeight b.node).toNat :=
        fun h => by rw [keyLt_iff] at h; omega
      refine ⟨c + ((slotWeight x.node).toNat + (slotWeight y.node).toNat),
        .merge (r := queueWeights q) (List.Perm.refl _) (hle (hx y (by simp))) (fun z hz => ?_) ?_, ?_⟩
      · obtain ⟨j, hj, rfl⟩ := List.mem_map.1 hz
        exact hle (hy j hj)
      · have hp : (queueWeights (insertItem { node := mergeNodes x.node y.node, seq := k } q)).Perm
            (((slotWeight x.node).toNat + (slotWeight y.node).toNat) :: queueWeights q) := by
          refine (hi.map _).trans ?_
          rw [List.map_cons, mergeNodes_weight, hsum]
          exact List.Perm.refl _
        exact merges_perm hp hc
      · rw [hw, (hi.map _).sum_eq]
        simp only [List.map_cons, List.sum_cons, mergeNodes, innerWeight, hsum]
        omega

/-- The internal weights of BUILD's tree are at most the weighted length of any prefix code of the present symbols. -/
theorem built_inner_le {s : State} {i : QueueItem} (hb : builtQueue s = [i]) {code : Symbol → List Bool}
    (hc : ∀ x y, freqOf s x ≠ 0 → freqOf s y ≠ 0 → x ≠ y → ¬ code x <+: code y) :
    innerWeight i.node ≤ ((presentIn s allSymbols).map (fun x => (freqOf s x).toNat * (code x).length)).sum := by
  obtain ⟨h1, h2, h3⟩ := initialQueue_spec s
  obtain ⟨c, hm, hw⟩ := mergeAll_merges (f := (insertLeaves s allSymbols 0 []).1)
    (k := (insertLeaves s allSymbols 0 []).1) h2 (fun j hj => by
      have := leafItems_seq_le (h3.mem_iff.1 hj)
      omega) (initialQueue_grown s) (by
      rw [h1, h3.length_eq, ← List.length_map (f := (·.node)), leafItems_nodes, List.length_map]
      omega) hb
  have h0 : ((insertLeaves s allSymbols 0 []).2.map (fun j => innerWeight j.node)).sum = 0 := by
    refine List.sum_eq_zero fun n hn => ?_
    obtain ⟨j, hj, rfl⟩ := List.mem_map.1 hn
    have : j.node ∈ (presentIn s allSymbols).map (leafOf s) := by
      rw [← leafItems_nodes s 0]
      exact List.mem_map_of_mem (h3.mem_iff.1 hj)
    obtain ⟨x, -, hx⟩ := List.mem_map.1 this
    rw [← hx]
    rfl
  rw [hw, h0, Nat.add_zero]
  have hwts : (queueWeights (insertLeaves s allSymbols 0 []).2).Perm
      ((presentIn s allSymbols).map (fun x => (freqOf s x).toNat)) := by
    refine (h3.map _).trans (List.Perm.of_eq ?_)
    have := congrArg (List.map (fun n => (slotWeight n).toNat)) (leafItems_nodes s 0 (presentIn s allSymbols))
    rw [List.map_map, List.map_map] at this
    refine this.trans (List.map_congr_left fun x _ => leafOf_weight s x)
  have hle := merges_le (merges_perm hwts hm) ((presentIn s allSymbols).map fun x => ((freqOf s x).toNat, (code x).length))
    (by rw [List.map_map]; exact List.Perm.refl _) (by
      rw [List.map_map, show Prod.snd ∘ (fun x => ((freqOf s x).toNat, (code x).length)) = List.length ∘ code from rfl,
        ← List.map_map]
      refine kraft_le_one ?_
      rw [PrefixFree, List.pairwise_map]
      refine (List.Pairwise.and_mem.1 (presentIn_nodup s)).imp ?_
      rintro x y ⟨hx, hy, hne⟩
      rw [mem_presentIn] at hx hy
      exact ⟨hc x y hx hy hne, hc y x hy hx (Ne.symm hne)⟩)
  simpa [pairCost, List.map_map, Function.comp_def] using hle

end Sys2Proof.Machine
end

