-- ==== Sys2Proof/Laws/PerInstr.lean ====
section
/-! SUPPORT. Facts about every command as syntax, one lemma per constructor. -/

namespace Sys2Proof.Laws.EncodedWordLegal

/-- The encoder's word of a command is not one R93 calls illegal. -/
def Statement (i : Instr) : Prop := illegalWord (encode i) = false

/-- A command with no operands. -/
theorem of_bare {op : BitVec 8} (h : op.toNat < 0x0E) : illegalWord (commandWord op 0 0) = false := by
  simp [illegalWord, illegalOpcode, illegalReserved, illegalA, illegalB, commandWord_toNat]
  omega

/-- PUTB and PUTCODE: operand A alone. -/
theorem of_a {op : BitVec 8} (a : BitVec 8) (h : op.toNat = 0x07 ∨ op.toNat = 0x08) :
    illegalWord (commandWord op a 0) = false := by
  have := a.isLt
  simp [illegalWord, illegalOpcode, illegalReserved, illegalA, illegalB, commandWord_toNat]
  omega

theorem nop : Statement .nop := of_bare (by decide)
theorem clrfreq : Statement .clrfreq := of_bare (by decide)
theorem build : Statement .build := of_bare (by decide)
theorem derive : Statement .derive := of_bare (by decide)
theorem clrcode : Statement .clrcode := of_bare (by decide)
theorem ldcode (sym : Symbol) (len : BitVec 8) : Statement (.ldcode sym len) := by
  have := sym.isLt
  have := len.isLt
  simp [Statement, encode, illegalWord, illegalOpcode, illegalReserved, illegalA, illegalB, commandWord_toNat]
  omega
theorem rebuild : Statement .rebuild := of_bare (by decide)
theorem putb (byte : Byte) : Statement (.putb byte) := of_a byte (by decide)
theorem putcode (sym : Symbol) : Statement (.putcode sym) := of_a sym (by decide)
theorem flush : Statement .flush := of_bare (by decide)
theorem encode : Statement .encode := of_bare (by decide)
theorem getb : Statement .getb := of_bare (by decide)
theorem align : Statement .align := of_bare (by decide)
theorem decode : Statement .decode := of_bare (by decide)

end Sys2Proof.Laws.EncodedWordLegal
end

