-- ==== Sys2Proof/Laws/Step.lean ====
section
/-! SUPPORT. What a step and a host access can do, said once; later proofs cite these and unfold neither. -/

namespace Sys2Proof.Machine

/-! ## Turns -/

/-- A step that answers a next state is one of three turns, on legal parameters. -/
theorem step_cases {s t : State} (h : step s = .next t) : s.cfg.legal = true ∧
    ((nextTurn s = .engine ∧ engineTurn s = .next t)
      ∨ (∃ a rest, nextTurn s = .host a rest ∧ t = tick (hostTurn a rest s))
      ∨ (nextTurn s = .idle ∧ t = s)) := by
  unfold step at h
  split at h
  · next hl =>
    refine ⟨hl, ?_⟩
    split at h
    · next he => exact .inl ⟨he, h⟩
    · next a rest he =>
      simp only [Host.Outcome.next.injEq] at h
      exact .inr (.inl ⟨a, rest, he, h.symm⟩)
    · next he =>
      simp only [Host.Outcome.next.injEq] at h
      exact .inr (.inr ⟨he, h.symm⟩)
  · simp at h

/-- The engine's turn is a body, its end, and a new index of free values. -/
theorem engineTurn_eq (s : State) : engineTurn s = .next (tick (match decode (fetch s) with
    | .error _ => runIllegal s
    | .ok i => finish (runOf i s))) := by
  unfold engineTurn
  cases decode (fetch s) with
  | error r => rfl
  | ok i => simp only [exec_eq]

theorem step_engine {s : State} (hl : s.cfg.legal = true) (h : nextTurn s = .engine) : step s = engineTurn s := by
  simp [step, hl, h]

theorem step_host {s : State} {a : HostAction} {rest : List HostEvent} (hl : s.cfg.legal = true)
    (h : nextTurn s = .host a rest) : step s = .next (tick (hostTurn a rest s)) := by
  simp [step, hl, h]

theorem step_idle {s : State} (hl : s.cfg.legal = true) (h : nextTurn s = .idle) : step s = .next s := by
  simp [step, hl, h]

/-- The engine has its turn exactly when a command is accepted and no host action lands before it ends. -/
theorem nextTurn_engine {s : State} : nextTurn s = .engine ↔
    s.busy = true ∧ ∀ e rest, s.pending = e :: rest → e.waits = true := by
  unfold nextTurn
  cases s.pending with
  | nil => cases s.busy <;> simp
  | cons e rest => cases hb : s.busy <;> cases hw : e.waits <;> simp [hw]

/-- The host has its turn exactly when its next action lands now. -/
theorem nextTurn_host {s : State} {a : HostAction} {rest : List HostEvent} : nextTurn s = .host a rest ↔
    ∃ w, s.pending = ⟨w, a⟩ :: rest ∧ (s.busy = false ∨ w = false) := by
  unfold nextTurn
  cases hp : s.pending with
  | nil => cases s.busy <;> simp
  | cons e r =>
    obtain ⟨w, b⟩ := e
    cases hb : s.busy <;> cases w <;> simp [and_comm]

theorem nextTurn_idle {s : State} : nextTurn s = .idle ↔ s.busy = false ∧ s.pending = [] := by
  unfold nextTurn
  cases hp : s.pending with
  | nil => cases s.busy <;> simp
  | cons e r => cases hb : s.busy <;> cases he : e.waits <;> simp [he]

/-- An event that lands now has the next turn. -/
theorem step_event {s : State} {w : Bool} {a : HostAction} {rest : List HostEvent} (hl : s.cfg.legal = true)
    (hp : s.pending = ⟨w, a⟩ :: rest) (h : s.busy = false ∨ w = false) :
    step s = .next (tick (hostAct a { s with pending := rest })) :=
  step_host hl (nextTurn_host.2 ⟨w, hp, h⟩)

/-- The first of several steps. -/
theorem run_succ (M : Host.Core) {s t : M.State} (k : Nat) (h : M.step s = .next t) : M.run (k + 1) s = M.run k t := by
  rw [Host.Core.run, h]

/-! ## The address map -/

theorem legal_sizes {c : Params} (h : c.legal = true) :
    4 ≤ c.inSize ∧ c.inSize ≤ 65536 ∧ c.inSize % 4 = 0 ∧ 4 ≤ c.outSize ∧ c.outSize ≤ 65536 ∧ c.outSize % 4 = 0 := by
  simp only [Params.legal, legalSize, Bool.and_eq_true, decide_eq_true_eq] at h
  omega

theorem windowOffset_base (c : Params) {off : Nat} (h : off < 0x30000) : windowOffset c (c.base + off) = some off := by
  unfold windowOffset
  rw [if_pos (by omega)]
  simp

/-- The register at offset 0x00C, 0x004 and so on is the one R23 says. -/
theorem locationAt_reg {c : Params} {off : Nat} {r : Reg} (h : off < 0x68) (hm : regMap.lookup off = some r) :
    locationAt c off = some (.reg r) := by
  unfold locationAt
  rw [if_pos h, hm]
  rfl

theorem locationAt_cmd (c : Params) : locationAt c 0x00C = some (.reg .cmd) := locationAt_reg (by omega) (by decide)
theorem locationAt_ctrl (c : Params) : locationAt c 0x004 = some (.reg .ctrl) := locationAt_reg (by omega) (by decide)
theorem locationAt_status (c : Params) : locationAt c 0x008 = some (.reg .status) :=
  locationAt_reg (by omega) (by decide)

/-- CMD stands at one offset of the window only. -/
theorem locationAt_eq_cmd {c : Params} {off : Nat} : locationAt c off = some (.reg .cmd) ↔ off = 0x00C := by
  refine ⟨fun h => ?_, fun h => h ▸ locationAt_cmd c⟩
  unfold locationAt at h
  split at h
  · next hlt =>
    have : ∀ k : Fin 0x68, (regMap.lookup k.val).map Location.reg = some (.reg .cmd) → k.val = 0x00C := by decide
    exact this ⟨off, hlt⟩ h
  · repeat' (split at h)
    all_goals simp at h

/-- CTRL stands at one offset of the window only. -/
theorem locationAt_eq_ctrl {c : Params} {off : Nat} : locationAt c off = some (.reg .ctrl) ↔ off = 0x004 := by
  refine ⟨fun h => ?_, fun h => h ▸ locationAt_ctrl c⟩
  unfold locationAt at h
  split at h
  · next hlt =>
    have : ∀ k : Fin 0x68, (regMap.lookup k.val).map Location.reg = some (.reg .ctrl) → k.val = 0x004 := by decide
    exact this ⟨off, hlt⟩ h
  · repeat' (split at h)
    all_goals simp at h

/-- A host write does nothing, is answered with a bus error, or is performed at a location. -/
theorem busWrite_cases (addr bits : Nat) (v : Word) (s : State) :
    (windowOffset s.cfg addr = none ∧ busWrite addr bits v s = { s with resp := none })
    ∨ (∃ off, windowOffset s.cfg addr = some off ∧ performedAt s.cfg off bits = none
        ∧ busWrite addr bits v s = { s with resp := some (busErrorResponse s.cfg none) })
    ∨ ∃ off l, windowOffset s.cfg addr = some off ∧ performedAt s.cfg off bits = some l
        ∧ busWrite addr bits v s
          = { hostWrite l v s with resp := some { data := none, busError := false, hostFault := false } } := by
  unfold busWrite
  split
  · next h => exact .inl ⟨h, rfl⟩
  · next off h =>
    split
    · next h2 => exact .inr (.inl ⟨off, h, h2, rfl⟩)
    · next l h2 => exact .inr (.inr ⟨off, l, h, h2, rfl⟩)

/-- A host read changes the answer on the bus alone (20_memory.md R65). -/
theorem busRead_eq (addr bits : Nat) (s : State) : busRead addr bits s = { s with resp := (busRead addr bits s).resp } := by
  unfold busRead
  repeat' split
  all_goals rfl

/-- What is performed lies in the window. -/
theorem performedAt_lt {c : Params} (hc : c.legal = true) {off bits : Nat} {l : Location}
    (h : performedAt c off bits = some l) : off < 0x30000 := by
  have hs := legal_sizes hc
  unfold performedAt locationAt at h
  split at h
  · repeat' split at h
    all_goals first | omega | simp at h
  · simp at h

/-- The word of IN or OUT an access performs at lies in the buffer. -/
theorem performedAt_inside {c : Params} (hc : c.legal = true) {off bits : Nat} {l : Location}
    (h : performedAt c off bits = some l) :
    (∀ i, l = .inWord i → i + 3 < c.inSize) ∧ ∀ i, l = .outWord i → i + 3 < c.outSize := by
  have hs := legal_sizes hc
  unfold performedAt at h
  split at h
  · next hb =>
    unfold locationAt at h
    split at h
    · cases hm : regMap.lookup off <;> simp [hm] at h
      subst h
      simp
    · split at h
      · simp at h
        subst h
        simp
      · split at h
        · simp only [Option.some.injEq] at h
          subst h
          simp only [Location.inWord.injEq, reduceCtorEq, false_implies, implies_true, and_true]
          rintro i rfl
          omega
        · split at h
          · simp only [Option.some.injEq] at h
            subst h
            simp only [Location.outWord.injEq, reduceCtorEq, false_implies, implies_true, true_and]
            rintro i rfl
            omega
          · simp at h
  · simp at h

end Sys2Proof.Machine
end

