-- ==== Sys2Proof/Machine/HostProgram.lean ====
section
/-! DEFINITION. Host programs in the syntax of 30_encoding.md R94, run over the machine's step. The host's own state (its
named values and how it stopped) stands here and not in State. -/

namespace Sys2Proof.Machine

/-- A value in a line: a literal, or the name of a value an earlier RD has read (R94; used so in 95_test_vectors.md,
program P3). -/
inductive HostValue where
  | literal (w : Word)
  | name (n : String)
  deriving DecidableEq, Repr

/-- One line of a host program (R94); addresses are byte offsets relative to BASE. A comment is no line. -/
inductive HostLine where
  /-- `CMD <mnemonic> ...`: issue, wait for BUSY = 0, stop on ERR = 1. -/
  | cmd (i : Instr)
  /-- `WR <reg>, <value>`. -/
  | wr (off : Nat) (v : HostValue)
  /-- `RD <reg> -> <name>`. -/
  | rd (off : Nat) (name : String)
  /-- `BUF IN, <offset>, "<bytes>"`. -/
  | buf (off : Nat) (bytes : List Byte)
  /-- `CHECK <name> == <value>, "<message>"`. -/
  | check (name : String) (v : HostValue) (message : String)
  /-- `STOP`. -/
  | stop
  deriving DecidableEq, Repr

/-- How a host program has ended (R94). -/
inductive HostEnd where
  /-- `STOP`: success. -/
  | success
  /-- A command ended with STATUS.ERR = 1. -/
  | commandError
  /-- A CHECK failed; its message. -/
  | hostError (message : String)
  /-- A line uses a name that no earlier RD has read. DESIGN CHOICE: R94 speaks only of values read earlier and leaves
  such a line open; the model ends the program there (log 20). -/
  | unreadName
  /-- An access got a bus error on a platform that faults the host for it (BUS_ERROR_ACTION = fault, 00_scope.md R6).
  DESIGN CHOICE: R94 does not say how a program ends then (log 20). -/
  | hostFault
  /-- The machine's step was refused. -/
  | stepRefused
  deriving DecidableEq, Repr

/-- The host beside the machine. -/
structure HostRun where
  st     : State
  names  : List (String × Word)
  ending : Option HostEnd
  deriving DecidableEq, Repr

/-- One step of the machine. -/
def hostStep (h : HostRun) : HostRun :=
  match step h.st with
  | .next s => { h with st := s }
  | .fault _ => { h with ending := some .stepRefused }
  | .refused _ => { h with ending := some .stepRefused }

/-- Perform one host action at once: a line but CMD does not wait for BUSY = 0 (R94; log 20). A host that has ended
performs no more, and a fault of the platform at a bus error ends it (DESIGN CHOICE, log 20). -/
def hostPerform (a : HostAction) (h : HostRun) : HostRun :=
  if h.ending.isSome then h
  else
    let h' := hostStep { h with st := { h.st with pending := [{ waits := false, action := a }] } }
    if (h'.st.resp.map (·.hostFault)).getD false then { h' with ending := some .hostFault } else h'

/-- The word of the first four bytes of a list, 0 for bytes past its end (R94). -/
def headWord (bytes : List Byte) : Word := wordAt (fun i => bytes.getD i 0) 0

/-- Word writes of the bytes from IN offset `off` on, `n` words to go (R94). At an offset that is no multiple of 4, where
R94 does not say which word writes are made, each word is written at its misaligned offset: a bus error (R67), so that
no byte is written (DESIGN CHOICE, log 20). -/
def bufWrites : (n off : Nat) → List Byte → HostRun → HostRun
  | 0, _, _, h => h
  | n + 1, off, bytes, h =>
    bufWrites n (off + 4) (bytes.drop 4) (hostPerform (.write (h.st.cfg.base + 0x10000 + off) 32 (headWord bytes)) h)

/-- The value a line gives or names, `none` for a name no earlier RD has read. -/
def hostValue (h : HostRun) : HostValue → Option Word
  | .literal w => some w
  | .name n => h.names.lookup n

/-- The bytes of a BUF line at IN offset `off` that lie below offset 0x10000, where the IN region of the window ends. R94
says only that a BUF line writes bytes into IN: bytes past the region make no access (DESIGN CHOICE, log 20). -/
def bufBytes (off : Nat) (bytes : List Byte) : List Byte := bytes.take (0x10000 - off)

/-- Run one line (R94). A WR or CHECK with a name that no earlier RD has read, which R94 leaves open, ends the program
with `unreadName` (DESIGN CHOICE, log 20). -/
def runLine (l : HostLine) (h : HostRun) : HostRun :=
  match l with
  | .cmd i =>
    let h' := hostStep (hostPerform (.write (h.st.cfg.base + 0x00C) 32 (encode i)) h)
    if h'.st.err then { h' with ending := some .commandError } else h'
  | .wr off v =>
    match hostValue h v with
    | some w => hostPerform (.write (h.st.cfg.base + off) 32 w) h
    | none => { h with ending := some .unreadName }
  | .rd off name =>
    let h' := hostPerform (.read (h.st.cfg.base + off) 32) h
    { h' with names := (name, (h'.st.resp.bind (·.data)).getD 0) :: h'.names }
  | .buf off bytes => bufWrites (((bufBytes off bytes).length + 3) / 4) off (bufBytes off bytes) h
  | .check name v message =>
    match hostValue h (.name name), hostValue h v with
    | some x, some w => if x = w then h else { h with ending := some (.hostError message) }
    | _, _ => { h with ending := some .unreadName }
  | .stop => { h with ending := some .success }

/-- Run a program until it ends (R94). -/
def runProgram : List HostLine → HostRun → HostRun
  | [], h => h
  | l :: ls, h => if h.ending.isSome then h else runProgram ls (runLine l h)

end Sys2Proof.Machine
end

