-- ==== Sys2Proof/Tests/Slice0.lean ====
section
/-! SUPPORT. Tests. The words are those of 30_encoding.md R92 and R93; the expected results are the vectors of
95_test_vectors.md, each named; the witnesses meet the hypotheses of the statements. -/

open Sys2Proof Sys2Proof.Machine Sys2Proof.Claims

namespace Sys2Proof.Tests

set_option Elab.async false

/-! ## Helpers -/

/-- One step: the command word `w` run next. -/
def run1 (s : State) (w : Nat) : State :=
  match step (s.withFetchWord 32 w) with
  | .next t => t
  | .fault _ => s
  | .refused _ => s

/-- One step: the host does `a` next, whether or not a command runs. -/
def host1 (s : State) (a : HostAction) : State :=
  match step { s with pending := [⟨false, a⟩] } with
  | .next t => t
  | .fault _ => s
  | .refused _ => s

/-- `IN = [b0, b1, ...]` and IN_LEN their number. -/
def withIn (l : List Nat) (s : State) : State :=
  { s with inLen := BitVec.ofNat 32 l.length, inBuf := l.zipIdx.map (fun p => (p.2, BitVec.ofNat 8 p.1)) }

/-- A code table written as symbols and bit lists. -/
def withTable (l : List (Nat × List Bool)) (s : State) : State :=
  l.foldl (fun s p => setCodes (setEntry s.codes (BitVec.ofNat 8 p.1)
    { present := true, cl := BitVec.ofNat 8 p.2.length, cw := BitVec.ofNat 255 (codeVal p.2) }) s) s

/-- FREQ entries. -/
def withFreq (l : List (Nat × Nat)) (s : State) : State :=
  l.foldl (fun s p => setFreq (BitVec.ofNat 8 p.1) (BitVec.ofNat 32 p.2) s) s

/-- ERRCODE and ERRINFO. -/
def errorOf (s : State) : Nat × Nat := ((errorNumber s.errcode).toNat, s.errinfo.toNat)

/-- The first `n` bytes listed in OUT. -/
def outBytes (s : State) (n : Nat) : List (Option Byte) := (List.range n).map (Memory.read s.outBuf)

/-- Reset with 4-byte buffers. -/
def small : State := { State.reset with cfg := { Params.default with inSize := 4, outSize := 4 } }

/-- The tree of `{a: 0, b: 10}`, slot 11 empty (V-CD-29). -/
def treeAB : Slot := .internal 0 (.leaf 0 0x61) (.internal 0 (.leaf 0 0x62) .none)

/-- The frequencies of 95_test_vectors.md V-SRC-1. -/
def freqSrc1 : List (Nat × Nat) := [(0x61, 5), (0x62, 9), (0x63, 12), (0x64, 13), (0x65, 16), (0x66, 45)]

/-- The tree V-SRC-1 gives. -/
def treeSrc1 : Slot :=
  .internal 100 (.leaf 45 0x66) (.internal 55 (.internal 25 (.leaf 12 0x63) (.leaf 13 0x64))
    (.internal 30 (.internal 14 (.leaf 5 0x61) (.leaf 9 0x62)) (.leaf 16 0x65)))

/-- The table of V-PK-5: a 0, b 110, c 100, d 101, r 111. -/
def tablePk5 : List (Nat × List Bool) :=
  [(0x61, [false]), (0x62, [true, true, false]), (0x63, [true, false, false]), (0x64, [true, false, true]),
   (0x72, [true, true, true])]

/-- The tree REBUILD makes of it. -/
def treePk5 : Slot := .internal 0 (.leaf 0 0x61) (.internal 0 (.internal 0 (.leaf 0 0x63) (.leaf 0 0x64))
  (.internal 0 (.leaf 0 0x62) (.leaf 0 0x72)))

/-! ## Decoding: words written out from R90 to R93 -/

theorem test_decode_nop : decode 0x00000000 = .ok .nop := by decide
theorem test_decode_clrfreq : decode 0x00000001 = .ok .clrfreq := by decide
theorem test_decode_build : decode 0x00000002 = .ok .build := by decide
theorem test_decode_derive : decode 0x00000003 = .ok .derive := by decide
theorem test_decode_clrcode : decode 0x00000004 = .ok .clrcode := by decide
theorem test_decode_ldcode : decode 0x00036205 = .ok (.ldcode 0x62 3) := by decide
theorem test_decode_ldcode_max : decode 0x00FFFF05 = .ok (.ldcode 0xFF 255) := by decide
theorem test_decode_rebuild : decode 0x00000006 = .ok .rebuild := by decide
theorem test_decode_putb : decode 0x0000FF07 = .ok (.putb 0xFF) := by decide
theorem test_decode_putcode : decode 0x00006208 = .ok (.putcode 0x62) := by decide
theorem test_decode_flush : decode 0x00000009 = .ok .flush := by decide
theorem test_decode_encode : decode 0x0000000A = .ok .encode := by decide
theorem test_decode_getb : decode 0x0000000B = .ok .getb := by decide
theorem test_decode_align : decode 0x0000000C = .ok .align := by decide
theorem test_decode_decode : decode 0x0000000D = .ok .decode := by decide
theorem test_decode_first_unused : decode 0x0000000E = .error .opcode := by decide
theorem test_decode_last_unused : decode 0x000000FF = .error .opcode := by decide
theorem test_decode_reserved : decode 0x01000000 = .error .reserved := by decide
theorem test_decode_operandA : decode 0x00000102 = .error .operandA := by decide
theorem test_decode_operandB : decode 0x00010007 = .error .operandB := by decide
theorem test_decodeTableWord : decodeTableWord 32 0x00036205 = some (.ldcode 0x62 3) := by decide

/-! ## Well-formedness smoke: one ill-formed term for each check -/

theorem test_ill_opcode : illegalOpcode 0x0000000E = true ∧ illegalOpcode 0x0000000D = false := by decide
theorem test_ill_reserved : illegalReserved 0x01000000 = true ∧ illegalReserved 0x00FFFFFF = false := by decide
theorem test_ill_A : illegalA 0x00000102 = true ∧ illegalA 0x0000FF07 = false := by decide
theorem test_ill_B : illegalB 0x00010008 = true ∧ illegalB 0x00FFFF05 = false := by decide
theorem test_legal_word : illegalWord 0x00036205 = false := by decide
theorem test_params_default : Params.default.legal = true := by decide
theorem test_params_size_multiple : { Params.default with inSize := 6 }.legal = false := by decide
theorem test_params_size_low : { Params.default with outSize := 0 }.legal = false := by decide
theorem test_params_size_high : { Params.default with inSize := 65540 }.legal = false := by decide
theorem test_params_base : { Params.default with base := 0x20000 }.legal = false := by decide
theorem test_step_refuses_illegal_parameters :
    step { State.reset with cfg := { Params.default with inSize := 6 } } = .refused .illegalParameters := rfl

/-! ## One step of each command -/

/-- V-CT-1. -/
theorem test_nop : statusWord (run1 State.reset 0x00000000) = 0x00000002 := by decide +kernel
/-- V-CT-11: the error record of an earlier command is cleared at acceptance. -/
theorem test_nop_clears_record : statusWord (run1 (run1 State.reset 0x0E) 0x00000000) = 0x00000002 := by decide +kernel
/-- V-CT-3. -/
theorem test_illegal : errorOf (run1 State.reset 0x0000000E) = (1, 0x0E) := by decide +kernel
/-- V-CT-7: the BUILD does not run. -/
theorem test_illegal_does_not_run :
    errorOf (run1 State.reset 0x00000102) = (1, 0x102) ∧ (run1 State.reset 0x00000102).ts = .invalid := by decide +kernel
/-- V-CT-2. -/
theorem test_clrfreq :
    freqOf (run1 (withFreq [(0x61, 5), (0xFF, 7)] State.reset) 0x00000001) 0xFF = 0 := by decide +kernel
/-- V-SRC-1. -/
theorem test_build : (run1 (withFreq freqSrc1 State.reset) 0x00000002).ts = .root treeSrc1 := by decide +kernel
/-- V-TB-5: the leaf before the merged node of the same weight. -/
theorem test_build_tie : (run1 (withFreq [(0x61, 1), (0x62, 1), (0x63, 2)] State.reset) 0x00000002).ts
    = .root (.internal 4 (.leaf 2 0x63) (.internal 2 (.leaf 1 0x61) (.leaf 1 0x62))) := by decide +kernel
/-- V-SRC-1: a is 1100 and f is 0. -/
theorem test_derive :
    codeOf (run1 { State.reset with ts := .root treeSrc1 } 0x00000003) 0x61 = ⟨true, 4, 0xC⟩
    ∧ codeOf (run1 { State.reset with ts := .root treeSrc1 } 0x00000003) 0x66 = ⟨true, 1, 0⟩ := by decide +kernel
/-- V-CD-1. -/
theorem test_derive_seq : errorOf (run1 State.reset 0x00000003) = (2, 0) := by decide +kernel
/-- V-CD-4. -/
theorem test_clrcode : ncode (run1 (withTable tablePk5 State.reset) 0x00000004) = 0
    ∧ (run1 { State.reset with ts := .root treeSrc1, total := 100 } 0x00000004).total = 0 := by decide +kernel
/-- V-CD-10: nine bits, the pad bits not checked. -/
theorem test_ldcode : codeOf (run1 (withIn [0xAB, 0x80] State.reset) 0x00094105) 0x41 = ⟨true, 9, 0x157⟩
    ∧ (run1 (withIn [0xAB, 0x80] State.reset) 0x00094105).ibp = 16 := by decide +kernel
/-- V-CD-8: DUP before TRUNC. -/
theorem test_ldcode_dup : errorOf (run1 (withTable [(0x62, [true])] { State.reset with ibp := 48, inLen := 7 }) 0x00036205)
    = (7, 0x62) := by decide +kernel
/-- V-CD-29. -/
theorem test_rebuild : (run1 (withTable [(0x61, [false]), (0x62, [true, false])] State.reset) 0x00000006).ts
    = .root treeAB := by decide +kernel
/-- V-CD-21: the later symbol is named, also when its code is the shorter one. -/
theorem test_rebuild_prefix : errorOf (run1 (withTable [(0x61, [false, true]), (0x62, [false])] State.reset) 0x00000006)
    = (8, 0x62) := by decide +kernel
/-- V-PK-1. -/
theorem test_putb : outBytes (run1 State.reset 0x0000FF07) 2 = [some 0xFF, none]
    ∧ (run1 State.reset 0x0000FF07).obp = 8 := by decide +kernel
/-- V-PK-3. -/
theorem test_putb_full : errorOf (run1 { small with obp := 32 } 0x00000107) = (5, 0x20) := by decide +kernel
/-- V-PK-7: the old bits of the first byte are kept. -/
theorem test_putcode : outBytes (run1 (withTable [(0x41, [true, false, true, false, true, false, true, true, true])]
    { State.reset with obp := 5, outBuf := [(0, 0xF8)] }) 0x00004108) 3 = [some 0xFD, some 0x5C, none] := by decide +kernel
/-- V-PK-9: whole or not at all. -/
theorem test_putcode_full : errorOf (run1 (withTable [(0x41, [true, false, true, false, true, false, true, true, true])]
    { small with obp := 24 }) 0x00004108) = (5, 0x18) := by decide +kernel
/-- V-PK-12. -/
theorem test_flush : (run1 { State.reset with obp := 43 } 0x00000009).obp = 48
    ∧ (run1 { State.reset with obp := 48 } 0x00000009).obp = 48 := by decide +kernel
/-- V-PK-5: "abracadabra" is 6E 8A DC, 23 bits. -/
theorem test_encode : outBytes (run1 (withTable tablePk5 (withIn [0x61, 0x62, 0x72, 0x61, 0x63, 0x61, 0x64, 0x61, 0x62,
    0x72, 0x61] { State.reset with arg0 := 11 })) 0x0000000A) 4 = [some 0x6E, some 0x8A, some 0xDC, none] := by
  decide +kernel
/-- V-PK-20: a byte without a code ends the run before it. -/
theorem test_encode_nocode :
    errorOf (run1 (withTable tablePk5 (withIn [0x61, 0x62, 0x78, 0x61] { State.reset with arg0 := 4 })) 0x0000000A)
      = (6, 0x78)
    ∧ (run1 (withTable tablePk5 (withIn [0x61, 0x62, 0x78, 0x61] { State.reset with arg0 := 4 })) 0x0000000A).cnt = 2 := by
  decide +kernel
/-- V-UP-1. -/
theorem test_getb : (run1 (withIn [0, 0, 0, 5] { State.reset with ibp := 24 }) 0x0000000B).res = 5 := by decide +kernel
/-- V-UP-2. -/
theorem test_getb_trunc : errorOf (run1 (withIn [0, 0, 0, 5] { State.reset with ibp := 32 }) 0x0000000B) = (4, 0x20) := by
  decide +kernel
/-- V-UP-5. -/
theorem test_align : (run1 { State.reset with ibp := 227 } 0x0000000C).ibp = 232
    ∧ (run1 { State.reset with ibp := 1 } 0x0000000C).ibp = 8 := by decide +kernel
/-- V-UP-20, from an unaligned IBP, over the tree of V-UP-4. -/
theorem test_decode :
    outBytes (run1 (withIn [0x6E, 0x8A, 0xDC] { State.reset with ibp := 1, arg0 := 3, ts := .root treePk5 }) 0x0000000D) 4
      = [some 0x62, some 0x72, some 0x61, none] := by
  decide +kernel
/-- V-UP-13: a missing child at the second symbol. -/
theorem test_decode_badcode :
    errorOf (run1 (withIn [0x40] { State.reset with arg0 := 3, ts := .root (.internal 0 (.leaf 0 0x61) .none) }) 0x0000000D)
      = (9, 1)
    ∧ (run1 (withIn [0x40] { State.reset with arg0 := 3, ts := .root (.internal 0 (.leaf 0 0x61) .none) }) 0x0000000D).cnt
      = 1 := by decide +kernel

/-! ## The host's accesses -/

/-- V-MM-1. -/
theorem test_read_id : (host1 State.reset (.read 0 32)).resp = some ⟨some 0x48554631, false, false⟩ := by decide +kernel
/-- V-MM-2: the most significant byte at the lowest index. -/
theorem test_write_in : (host1 State.reset (.write 0x10000 32 0x61627261)).inBuf
    = [(0, 0x61), (1, 0x62), (2, 0x72), (3, 0x61)] := by decide +kernel
/-- V-MM-4. -/
theorem test_narrow_read : (host1 State.reset (.read 0x10001 8)).resp = some ⟨some 0, true, false⟩ := by decide +kernel
/-- V-MM-6. -/
theorem test_reserved_write : (host1 State.reset (.write 0x800 32 5)).resp = some ⟨none, true, false⟩ := by decide +kernel
/-- V-MM-9. -/
theorem test_obp_clamped : (host1 small (.write 0x28 32 33)).obp = 32 := by decide +kernel
/-- V-CT-16. -/
theorem test_cmd_while_busy : (host1 { State.reset with busy := true, cmdw := 2 } (.write 0x0C 32 0)).haz = true
    ∧ (host1 { State.reset with busy := true, cmdw := 2 } (.write 0x0C 32 0)).cmdw = 2 := by decide +kernel
/-- V-MM-10: an RO register ignores a write, with no HAZ while BUSY = 0. -/
theorem test_ro_write : (host1 State.reset (.write 0x14 32 1)).res = 0 ∧ (host1 State.reset (.write 0x14 32 1)).haz = false
    ∧ (host1 State.reset (.write 0x14 32 1)).resp = some ⟨none, false, false⟩ := by decide +kernel
/-- As lines 522 and 525 of 95_test_vectors.md, program P3: a WR of a value an RD has named. -/
theorem test_wr_named : (runProgram [.rd 0x000 "w0", .wr 0x10000 (.name "w0")] ⟨State.reset, [], none⟩).st.inBuf
    = [(0, 0x48), (1, 0x55), (2, 0x46), (3, 0x31)] := by decide +kernel
/-- R6, U6: a bus error ends the program where the platform faults the host (log 20), and not where it ignores it. -/
theorem test_host_fault :
    (runProgram [.wr 0x800 (.literal 5), .stop]
      ⟨{ State.reset with cfg := { Params.default with busErrorAction := .fault } }, [], none⟩).ending = some .hostFault
    ∧ (runProgram [.wr 0x800 (.literal 5), .stop] ⟨State.reset, [], none⟩).ending = some .success := by decide +kernel
/-- As program P4: a CHECK of another value than the one read stops the program with its message. -/
theorem test_check_fails : (runProgram [.rd 0x014 "m1", .check "m1" (.literal 0xFF) "end marker mismatch", .stop]
    ⟨State.reset, [], none⟩).ending = some (.hostError "end marker mismatch") := by decide +kernel
/-- V-RS-3: IN is kept and OUT is not. -/
theorem test_soft_reset_while_busy :
    (host1 { State.reset with busy := true, inBuf := [(0, 1)], outBuf := [(0, 1)] } (.write 0x04 32 1)).inBuf = [(0, 1)]
    ∧ (host1 { State.reset with busy := true, inBuf := [(0, 1)], outBuf := [(0, 1)] } (.write 0x04 32 1)).outBuf = [] := by
  decide +kernel

/-! ## Witnesses: concrete states and operands that meet the hypotheses of the statements -/

/-- The command word `w` accepted after reset. -/
def accepted (w : Word) : State := accept w State.reset

/-- The same, while the host waits for BUSY = 0 to read STATUS. -/
def awaited (w : Word) : State := { accepted w with pending := [⟨true, .read 0x008 32⟩] }

/-- Reset, with one host event coming. -/
def withEvent (e : HostEvent) : State := { State.reset with pending := [e] }

/-- While a command runs, with one host event coming. -/
def busyWithEvent (e : HostEvent) : State := { accepted 0 with pending := [e] }

theorem engineNext_accepted (w : Word) : engineNext (accepted w) := ⟨rfl, by simp [accepted, accept, State.reset]⟩

theorem engineNext_awaited (w : Word) : engineNext (awaited w) := ⟨rfl, by
  intro e rest h
  simp only [awaited, List.cons.injEq] at h
  simp [← h.1]⟩

/-- Every exec answers a next state. -/
theorem exec_answers (i : Instr) (s : State) : ∃ t, exec i s = .next t := ⟨_, exec_eq i s⟩

theorem witness_DecodeInvertsEncode :
    decode 0x00FFFF05 = .ok (.ldcode 0xFF 0xFF) ∧ decode 0x00000000 = .ok .nop := by decide

theorem witness_IllegalWordsCompleteWithIllegal :
    State.reset.busy = false ∧ (accepted 0x0E).cfg.legal = true ∧ engineNext (accepted 0x0E) ∧ engineNext (awaited 0x0E)
    ∧ decode (accepted 0x0E).cmdw = .error .opcode ∧ decode (accepted 0x01000000).cmdw = .error .reserved :=
  ⟨rfl, by decide, engineNext_accepted _, engineNext_awaited _, by decide, by decide⟩

theorem witness_StepRunsTheAcceptedCommand : ∃ t, (accepted 0x02).cfg.legal = true ∧ engineNext (accepted 0x02)
    ∧ engineNext (awaited 0x02) ∧ decode (accepted 0x02).cmdw = .ok .build ∧ exec .build (accepted 0x02) = .next t :=
  ⟨_, by decide, engineNext_accepted _, engineNext_awaited _, by decide, exec_eq _ _⟩

theorem witness_CmdWriteAcceptsOrIsDropped :
    ((withEvent ⟨true, .write 0x00C 32 2⟩).cfg.legal = true
      ∧ (withEvent ⟨true, .write 0x00C 32 2⟩).pending = [⟨true, .write (Params.default.base + 0x00C) 32 2⟩]
      ∧ (withEvent ⟨true, .write 0x00C 32 2⟩).busy = false)
    ∧ (busyWithEvent ⟨false, .write 0x00C 32 2⟩).pending = [⟨false, .write (Params.default.base + 0x00C) 32 2⟩]
    ∧ (busyWithEvent ⟨false, .write 0x00C 32 2⟩).busy = true := ⟨⟨by decide, rfl, rfl⟩, rfl, rfl⟩

theorem witness_EveryCommandRunsToCompletion : (awaited 0x03).cfg.legal = true ∧ engineNext (awaited 0x03)
    ∧ (awaited 0x03).err = false ∧ (awaited 0x03).errcode = .none := ⟨by decide, engineNext_awaited _, rfl, rfl⟩

theorem witness_OnlyACmdWriteStartsACommand :
    (State.reset.cfg.legal = true ∧ State.reset.busy = false ∧ State.reset.pending = [])
    ∧ ∃ t, (withEvent ⟨true, .write 0x00C 32 2⟩).busy = false ∧ step (withEvent ⟨true, .write 0x00C 32 2⟩) = .next t
        ∧ t.busy = true :=
  ⟨⟨by decide, rfl, rfl⟩, _, rfl, step_event (by decide) rfl (.inl rfl), by decide +kernel⟩

theorem witness_StepIsTotalOnLegalParameters : State.reset.cfg.legal = true ∧ small.cfg.legal = true
    ∧ { Params.default with outSize := 65540 }.legal = false ∧ step State.reset = .next State.reset :=
  ⟨by decide, by decide, by decide, step_idle (by decide) (nextTurn_idle.2 ⟨rfl, rfl⟩)⟩

theorem witness_EveryAcceptedCommandEnds : (awaited 0x0A).cfg.legal = true ∧ (awaited 0x0A).busy = true := by decide

theorem witness_EachCommandWritesOnlyItsState : (accepted 0x0A).cfg.legal = true ∧ (∃ t, exec .nop (accepted 0) = .next t)
    ∧ (∃ t, exec .encode (accepted 0x0A) = .next t) ∧ ∃ t, exec (.putb 0xFF) (accepted 0x0000FF07) = .next t :=
  ⟨by decide, exec_answers _ _, exec_answers _ _, exec_answers _ _⟩

/-- The hypotheses of `illegalOutside`, for a command without operands, with A, and with A and B. -/
theorem witness_illegalOutside :
    (fieldOP 0x01000000 = 0x00 ∧ (0x01000000#32 &&& ~~~(0 ||| 0xFF#32)) ≠ 0)
    ∧ (fieldOP 0x00000102 = 0x02 ∧ (0x00000102#32 &&& ~~~(0 ||| 0xFF#32)) ≠ 0)
    ∧ (fieldOP 0x00010007 = 0x07 ∧ (0x00010007#32 &&& ~~~(0x0000FF00 ||| 0xFF#32)) ≠ 0)
    ∧ (fieldOP 0x80000005 = 0x05 ∧ (0x80000005#32 &&& ~~~(0x00FFFF00 ||| 0xFF#32)) ≠ 0) := by decide

theorem witness_BuiltTreeShape : ∃ t n, exec .build (withFreq [(0x61, 1)] State.reset) = .next t ∧ t.ts = .root n :=
  ⟨finish (runOf .build (withFreq [(0x61, 1)] State.reset)), .leaf 1 0x61, exec_eq _ _, by decide +kernel⟩

theorem witness_BuildReadsOnlyFreq : ∃ t u, State.reset.freq = small.freq ∧ exec .build State.reset = .next t
    ∧ exec .build small = .next u := ⟨_, _, rfl, exec_eq _ _, exec_eq _ _⟩

theorem witness_QueueHeadHasTheLeastKey :
    (([⟨.leaf 2 0x61, 0⟩, ⟨.leaf 2 0x62, 1⟩, ⟨.leaf 1 0x63, 2⟩] : List QueueItem).map (·.seq)).Nodup := by decide

/-- Two symbols and their two 1-bit codes. -/
theorem witness_DerivedCodesAreOptimal : ∃ t u, exec .build (withFreq [(0, 3), (0xFF, 3)] State.reset) = .next t
    ∧ exec .derive t = .next u
    ∧ (∀ x y, freqOf (withFreq [(0, 3), (0xFF, 3)] State.reset) x ≠ 0 →
        freqOf (withFreq [(0, 3), (0xFF, 3)] State.reset) y ≠ 0 → x ≠ y →
        ¬ (if x = 0 then [false] else [true]) <+: (if y = 0 then [false] else [true])) := by
  have h : ∀ x, freqOf (withFreq [(0, 3), (0xFF, 3)] State.reset) x ≠ 0 → x = 0 ∨ x = 0xFF := by
    intro x hx
    simp only [withFreq, List.foldl_cons, List.foldl_nil, freqOf_setFreq] at hx
    by_contra hne
    rw [not_or] at hne
    have h1 : ¬ x = 255#8 := hne.2
    have h2 : ¬ x = 0#8 := hne.1
    simp only [h1, h2, if_false] at hx
    exact hx (Vector.getElem_replicate _)
  refine ⟨_, _, exec_eq _ _, exec_eq _ _, fun x y hx hy hxy => ?_⟩
  rcases h x hx with rfl | rfl <;> rcases h y hy with rfl | rfl
  · exact absurd rfl hxy
  · decide
  · decide
  · exact absurd rfl hxy

theorem codeOf_reset (x : Symbol) : codeOf State.reset x = CodeEntry.absent := entryAt_emptyCodes x

theorem treeOk_treeAB : treeOk (.root treeAB) := ⟨by decide, by decide, by decide, by decide⟩

theorem witness_DeriveWritesTheLeafPaths : State.reset.ts = .invalid ∧ { State.reset with ts := .empty }.ts = .empty
    ∧ { State.reset with ts := .root treeAB }.ts = .root treeAB ∧ treeOk (.root treeAB) ∧ treeOk (.root (.leaf 3 0x7A)) :=
  ⟨rfl, rfl, rfl, treeOk_treeAB, ⟨by decide, by decide, by decide, by decide⟩⟩

theorem witness_DerivedCodesArePrefixFree : ∃ t, treeOk (.root treeAB) ∧ 2 ≤ leafCount treeAB
    ∧ exec .derive { State.reset with ts := .root treeAB } = .next t ∧ (0x61 : Symbol) ≠ 0x62
    ∧ (codeOf t 0x61).present = true ∧ (codeOf t 0x62).present = true :=
  ⟨finish (runOf .derive { State.reset with ts := .root treeAB }), treeOk_treeAB, by decide, exec_eq _ _, by decide,
    by decide +kernel, by decide +kernel⟩

/-- One state for each clause: ALIGN; DUP; TRUNC one byte short; success with all bytes; success with length 0 past
IN_LEN. -/
theorem witness_LdcodeLoadsOneEntry :
    (State.reset.cfg.legal = true ∧ pointersOk State.reset)
    ∧ (pointersOk { State.reset with ibp := 3 } ∧ ({ State.reset with ibp := 3 } : State).ibp.toNat % 8 ≠ 0)
    ∧ (codeOf (withTable [(0x62, [true])] State.reset) 0x62).present = true
    ∧ (pointersOk (withIn [0xAB] State.reset) ∧ (codeOf (withIn [0xAB] State.reset) 0x41).present = false
        ∧ (9 : BitVec 8) ≠ 0 ∧ (withIn [0xAB] State.reset).ibp.toNat / 8 + ((9 : BitVec 8).toNat + 7) / 8
          > (withIn [0xAB] State.reset).inLen.toNat)
    ∧ (withIn [0xAB, 0x80] State.reset).ibp.toNat / 8 + ((9 : BitVec 8).toNat + 7) / 8
          ≤ (withIn [0xAB, 0x80] State.reset).inLen.toNat
    ∧ (pointersOk { State.reset with ibp := 8 } ∧ ({ State.reset with ibp := 8 } : State).ibp.toNat % 8 = 0) := by
  unfold pointersOk
  decide +kernel

/-- Tables with a conflict that names 0x62: equal codes (V-CD-22), and the empty code (V-CD-23). -/
theorem conflict_only_at_b {s : State} (h : ∀ x, (codeOf s x).present = true → x = 0x61 ∨ x = 0x62)
    (y : Symbol) (hy : y.toNat < (0x62 : Symbol).toNat) : ¬ conflictUpTo s y := by
  rintro ⟨a, b, ha, hb, hab, pa, pb, -⟩
  have h62 : (0x62 : Symbol).toNat = 0x62 := rfl
  rcases h a pa with rfl | rfl <;> rcases h b pb with rfl | rfl
  · exact hab rfl
  · omega
  · omega
  · omega

theorem present_two {c d : List Bool} (x : Symbol)
    (h : (codeOf (withTable [(0x61, c), (0x62, d)] State.reset) x).present = true) : x = 0x61 ∨ x = 0x62 := by
  simp only [withTable, List.foldl_cons, List.foldl_nil, codeOf_setCodes, setCodes_codes, entryAt_setEntry] at h
  by_contra hne
  rw [not_or] at hne
  have h1 : ¬ x = 98#8 := hne.2
  have h2 : ¬ x = 97#8 := hne.1
  simp only [h1, h2, if_false, ← codeOf_eq, codeOf_reset] at h
  cases h

theorem present_one {c : List Bool} (x : Symbol)
    (h : (codeOf (withTable [(0x61, c)] State.reset) x).present = true) : x = 0x61 := by
  simp only [withTable, List.foldl_cons, List.foldl_nil, codeOf_setCodes, entryAt_setEntry] at h
  by_contra hne
  have h1 : ¬ x = 97#8 := hne
  simp only [h1, if_false, ← codeOf_eq, codeOf_reset] at h
  cases h

theorem witness_RebuildFailsExactlyOnPrefixConflicts :
    (conflictUpTo (withTable [(0x61, [true, false]), (0x62, [true, false])] State.reset) 0x62
      ∧ ∀ y : Symbol, y.toNat < (0x62 : Symbol).toNat →
        ¬ conflictUpTo (withTable [(0x61, [true, false]), (0x62, [true, false])] State.reset) y)
    ∧ (conflictUpTo (withTable [(0x61, []), (0x62, [true])] State.reset) 0x62
      ∧ ∀ y : Symbol, y.toNat < (0x62 : Symbol).toNat →
        ¬ conflictUpTo (withTable [(0x61, []), (0x62, [true])] State.reset) y)
    ∧ ¬ conflictUpTo State.reset 0xFF
    ∧ ¬ conflictUpTo (withTable [(0x61, [])] State.reset) 0xFF
    ∧ (codeOf (withTable [(0x61, [])] State.reset) 0x61).present = true := by
  refine ⟨⟨⟨0x61, 0x62, by decide, by decide, by decide, by decide +kernel, by decide +kernel, by decide +kernel⟩,
    conflict_only_at_b present_two⟩,
    ⟨⟨0x61, 0x62, by decide, by decide, by decide, by decide +kernel, by decide +kernel, by decide +kernel⟩,
    conflict_only_at_b present_two⟩, ?_, ?_, by decide +kernel⟩
  · rintro ⟨a, b, -, -, -, pa, -⟩
    rw [codeOf_reset] at pa
    cases pa
  · rintro ⟨a, b, -, -, hab, pa, pb, -⟩
    exact hab ((present_one a pa).trans (present_one b pb).symm)

/-- a 0, b 10. -/
def tableAB : List (Nat × List Bool) := [(0x61, [false]), (0x62, [true, false])]

theorem codesOk_tableAB : codesOk (withTable tableAB State.reset) := by
  intro x
  simp only [tableAB, withTable, List.foldl_cons, List.foldl_nil, codeOf_setCodes, setCodes_codes, entryAt_setEntry]
  unfold entryOk
  split
  · decide
  · split
    · decide
    · rw [← codeOf_eq, codeOf_reset]
      exact entryOk_absent

theorem witness_DeriveInvertsRebuild : ∃ t u, codesOk (withTable tableAB State.reset)
    ∧ (withTable tableAB State.reset).err = false ∧ exec .rebuild (withTable tableAB State.reset) = .next t
    ∧ t.err = false ∧ exec .derive t = .next u :=
  ⟨finish (runOf .rebuild (withTable tableAB State.reset)), _, codesOk_tableAB, by decide +kernel,
    exec_eq _ _, by decide +kernel, exec_eq _ _⟩

theorem witness_PutbAppendsOneByte : small.cfg.legal = true
    ∧ ({ small with obp := 3 } : State).obp.toNat % 8 ≠ 0
    ∧ (({ small with obp := 32 } : State).obp.toNat % 8 = 0 ∧ ({ small with obp := 32 } : State).obp.toNat / 8 ≥ 4)
    ∧ (({ small with obp := 24 } : State).obp.toNat % 8 = 0 ∧ ({ small with obp := 24 } : State).obp.toNat / 8 < 4) := by
  decide

/-- One state for each clause: absent; one bit too long (V-PK-9); an exact fit (V-PK-10); length 0 at the end
(V-PK-11). -/
theorem witness_PutcodeAppendsTheCode : (codeOf small 0x62).present = false
    ∧ ((codeOf (withTable [(0x41, List.replicate 9 true)] small) 0x41).present = true
      ∧ (codeOf (withTable [(0x41, List.replicate 9 true)] small) 0x41).cl ≠ 0
      ∧ (24 + (codeOf (withTable [(0x41, List.replicate 9 true)] small) 0x41).cl.toNat - 1) / 8 ≥ small.cfg.outSize)
    ∧ (24 + (codeOf (withTable [(0x41, List.replicate 8 true)] small) 0x41).cl.toNat - 1) / 8 < small.cfg.outSize
    ∧ (codeOf (withTable [(0x41, [])] small) 0x41).cl = 0 := by decide +kernel

theorem witness_FlushRoundsObpUp : small.cfg.legal = true
    ∧ ({ small with obp := 32 } : State).obp.toNat ≤ 8 * small.cfg.outSize
    ∧ ({ small with obp := 32 } : State).obp.toNat % 8 = 0 ∧ ({ small with obp := 1 } : State).obp.toNat ≤ 32 := by decide

/-- "ab" with the table of V-PK-5, ARG0 bytes of it asked for. -/
def encodeAB (n : Word) : State := withTable tablePk5 (withIn [0x61, 0x62] { State.reset with arg0 := n })

theorem witness_EncodeAppendsEveryCode : (encodeAB 2).cfg.legal = true ∧ pointersOk (encodeAB 2)
    ∧ encodable (encodeAB 2) (encodeAB 2).arg0.toNat ∧ encodable (encodeAB 0) (encodeAB 0).arg0.toNat := by
  unfold pointersOk encodable
  decide +kernel

/-- TRUNC past the last byte (V-PK-21), NOCODE (V-PK-20), OUTOVF in a 4-byte OUT. -/
theorem witness_EncodeErrorsKeepTheSymbolsBefore :
    ({ State.reset with ibp := 4 } : State).ibp.toNat % 8 ≠ 0
    ∧ (∃ t, 2 < (encodeAB 3).arg0.toNat ∧ pointersOk (encodeAB 3) ∧ encodable (encodeAB 3) 2
        ∧ exec .encode { encodeAB 3 with arg0 := BitVec.ofNat 32 2 } = .next t
        ∧ (encodeAB 3).ibp.toNat / 8 + 2 ≥ (encodeAB 3).inLen.toNat)
    ∧ (∃ t, encodable (withTable [(0x61, [false])] (encodeAB 3)) 1 ∧ exec .encode (encodeAB 1) = .next t)
    ∧ ((withIn [0x78] (encodeAB 1)).ibp.toNat / 8 < (withIn [0x78] (encodeAB 1)).inLen.toNat
        ∧ encodable (withIn [0x78] (encodeAB 1)) 0
        ∧ (codeOf (withIn [0x78] (encodeAB 1)) (inputAt (withIn [0x78] (encodeAB 1)) 0)).present = false)
    ∧ ∃ t, exec .encode { encodeAB 1 with cfg := small.cfg, obp := 32, arg0 := BitVec.ofNat 32 0 } = .next t
        ∧ encodable { encodeAB 1 with cfg := small.cfg, obp := 32 } 0
        ∧ t.obp.toNat + (codeOf (encodeAB 1) (inputAt (encodeAB 1) 0)).cl.toNat > 8 * small.cfg.outSize := by
  refine ⟨by decide, ⟨_, by decide +kernel, by unfold pointersOk; decide +kernel, by unfold encodable; decide +kernel,
    exec_eq _ _, by decide +kernel⟩, ⟨_, by unfold encodable; decide +kernel, exec_eq _ _⟩,
    ⟨by decide +kernel, by unfold encodable; decide +kernel, by decide +kernel⟩,
    finish (runOf .encode { encodeAB 1 with cfg := small.cfg, obp := 32, arg0 := BitVec.ofNat 32 0 }), exec_eq _ _,
    by unfold encodable; decide +kernel, by decide +kernel⟩

theorem witness_FlushedPayloadIsZeroPadded : ∃ t u v w, (encodeAB 2).cfg.legal = true ∧ pointersOk (encodeAB 2)
    ∧ (encodeAB 2).obp.toNat % 8 = 0 ∧ encodable (encodeAB 2) (encodeAB 2).arg0.toNat
    ∧ exec .encode (encodeAB 2) = .next t ∧ exec .flush t = .next u
    ∧ (codeOf (encodeAB 2) 0x62).present = true
    ∧ (encodeAB 2).obp.toNat + (codeOf (encodeAB 2) 0x62).cl.toNat ≤ 8 * (encodeAB 2).cfg.outSize
    ∧ exec (.putcode 0x62) (encodeAB 2) = .next v ∧ exec .flush v = .next w := by
  refine ⟨_, _, _, _, by decide +kernel, by unfold pointersOk; decide +kernel, by decide +kernel,
    by unfold encodable; decide +kernel, exec_eq _ _, exec_eq _ _, by decide +kernel, by decide +kernel, exec_eq _ _,
    exec_eq _ _⟩

theorem witness_GetbReadsOneByte : small.cfg.legal = true
    ∧ (pointersOk { small with ibp := 9 } ∧ ({ small with ibp := 9 } : State).ibp.toNat % 8 ≠ 0)
    ∧ (pointersOk { small with ibp := 32, inLen := 4 } ∧ ({ small with ibp := 32, inLen := 4 } : State).ibp.toNat / 8 ≥ 4)
    ∧ pointersOk { small with ibp := 24, inLen := 4 } ∧ ({ small with ibp := 24, inLen := 4 } : State).ibp.toNat / 8 < 4 := by
  unfold pointersOk
  decide

theorem witness_AlignRoundsIbpUp : small.cfg.legal = true
    ∧ ({ small with ibp := 32 } : State).ibp.toNat ≤ 8 * small.cfg.inSize
    ∧ ({ small with ibp := 32 } : State).ibp.toNat % 8 = 0 ∧ ({ small with ibp := 9 } : State).ibp.toNat ≤ 32 := by decide

/-- IN = A0, that is 1 0 1 0 ..., with the tree of V-CD-29: "b" and then a slot 11 that is empty needs other bits. -/
def decodeAB (b : Nat) (n : Word) : State := withIn [b] { State.reset with arg0 := n, ts := .root treeAB }

/-- "ba" from the bits 10 0; five times z from the one-leaf tree and no bits (V-UP-14); no symbols at all. -/
theorem witness_DecodeWalksTheTree :
    ((decodeAB 0x80 2).cfg.legal = true ∧ pointersOk (decodeAB 0x80 2) ∧ (decodeAB 0x80 2).ts = .root treeAB
      ∧ (decodeAB 0x80 2).obp.toNat % 8 = 0 ∧ (decodeAB 0x80 2).arg0.toNat = [(0x62 : Symbol), 0x61].length
      ∧ (decodeAB 0x80 2).obp.toNat / 8 + [(0x62 : Symbol), 0x61].length ≤ (decodeAB 0x80 2).cfg.outSize
      ∧ pathsOf treeAB [0x62, 0x61] [[true, false], [false]]
      ∧ inputBits (decodeAB 0x80 2) (decodeAB 0x80 2).ibp.toNat [[true, false], [false]].flatten)
    ∧ (pathsOf (.leaf 0 0x7A) (List.replicate 5 0x7A) (List.replicate 5 [])
      ∧ inputBits State.reset 0 (List.replicate 5 ([] : List Bool)).flatten)
    ∧ (pathsOf treeAB [] [] ∧ inputBits State.reset 0 ([] : List (List Bool)).flatten) := by
  refine ⟨⟨by decide, by unfold pointersOk; decide, rfl, rfl, rfl, by decide,
    .cons ⟨0, rfl⟩ (.cons ⟨0, rfl⟩ .nil), by unfold inputBits; decide +kernel⟩, ⟨?_, by unfold inputBits; decide⟩,
    .nil, by unfold inputBits; decide⟩
  exact .cons ⟨0, rfl⟩ (.cons ⟨0, rfl⟩ (.cons ⟨0, rfl⟩ (.cons ⟨0, rfl⟩ (.cons ⟨0, rfl⟩ .nil))))

theorem witness_DecodeChecksBeforeTheFirstSymbol : State.reset.ts = .invalid
    ∧ (TreeState.root treeAB ≠ .invalid ∧ ({ State.reset with obp := 4 } : State).obp.toNat % 8 ≠ 0)
    ∧ (TreeState.empty ≠ .invalid ∧ State.reset.obp.toNat % 8 = 0 ∧ State.reset.arg0 = 0)
    ∧ ({ small with obp := 32 } : State).obp.toNat / 8 ≥ small.cfg.outSize
    ∧ (({ small with obp := 24 } : State).obp.toNat / 8 < small.cfg.outSize ∧ (1 : Word) ≠ 0) := by decide

/-- After "b" from bits 10: OUTOVF in a full OUT; TRUNC past one byte; BADCODE at 1 1. -/
theorem witness_DecodeErrorsKeepTheSymbolsBefore :
    (∃ t, pathsOf treeAB [] [] ∧ 0 < (decodeAB 0x80 2).arg0.toNat
      ∧ exec .decode { { decodeAB 0x80 2 with cfg := small.cfg, obp := 32 } with arg0 := BitVec.ofNat 32 0 } = .next t
      ∧ t.obp.toNat / 8 ≥ small.cfg.outSize)
    ∧ (∃ t, pathsOf treeAB [] [] ∧ exec .decode { { decodeAB 0x80 2 with ibp := 7 } with arg0 := BitVec.ofNat 32 0 } = .next t
      ∧ t.obp.toNat / 8 < 65536 ∧ followPath treeAB [] = .internal 0 (.leaf 0 0x61) (.internal 0 (.leaf 0 0x62) .none)
      ∧ inputBits { decodeAB 0x81 2 with ibp := 7 } 7 [true] ∧ followPath treeAB [true] = .internal 0 (.leaf 0 0x62) .none
      ∧ (7 + 1) / 8 ≥ (decodeAB 0x81 2).inLen.toNat)
    ∧ ∃ t, pathsOf treeAB [0x62] [[true, false]] ∧ inputBits (decodeAB 0xB0 2) 0 [[true, false]].flatten
      ∧ [(0x62 : Symbol)].length < (decodeAB 0xB0 2).arg0.toNat
      ∧ exec .decode { decodeAB 0xB0 2 with arg0 := BitVec.ofNat 32 1 } = .next t ∧ t.ibp.toNat = 2
      ∧ t.obp.toNat / 8 < (decodeAB 0xB0 2).cfg.outSize
      ∧ followPath treeAB ([true] ++ [true]) = .none ∧ inputBits (decodeAB 0xB0 2) 2 ([true] ++ [true]) := by
  refine ⟨⟨finish (runOf .decode { { decodeAB 0x80 2 with cfg := small.cfg, obp := 32 } with arg0 := BitVec.ofNat 32 0 }),
    .nil, by decide, exec_eq _ _, by decide +kernel⟩,
    ⟨finish (runOf .decode { { decodeAB 0x80 2 with ibp := 7 } with arg0 := BitVec.ofNat 32 0 }), .nil, exec_eq _ _,
      by decide +kernel, rfl, by unfold inputBits; decide +kernel, rfl, by decide +kernel⟩,
    finish (runOf .decode { decodeAB 0xB0 2 with arg0 := BitVec.ofNat 32 1 }), .cons ⟨0, rfl⟩ .nil,
    by unfold inputBits; decide +kernel, by decide +kernel, exec_eq _ _, by decide +kernel, by decide +kernel, rfl,
    by unfold inputBits; decide +kernel⟩

/-- "ab" with FREQ of it. -/
def blockAB : State := withFreq [(0x61, 1), (0x62, 1)] (withIn [0x61, 0x62] { State.reset with arg0 := 2 })

/-- The state after BUILD and DERIVE of `blockAB`. -/
def derivedAB : State := finish (runOf .derive (finish (runOf .build blockAB)))

/-- Another block that holds the payload 0 1 of `blockAB` and its Code Table. -/
def receiverAB : State := withIn [0x40] { State.reset with arg0 := 2, codes := derivedAB.codes }

theorem witness_DecodeInvertsEncodeOfThePayload : ∃ s₁ s₂ s₃ d₁, blockAB.cfg.legal = true ∧ pointersOk blockAB
    ∧ exec .build blockAB = .next s₁ ∧ exec .derive s₁ = .next s₂ ∧ encodable s₂ blockAB.arg0.toNat
    ∧ exec .encode s₂ = .next s₃ ∧ receiverAB.cfg.legal = true ∧ pointersOk receiverAB
    ∧ receiverAB.codes = s₂.codes ∧ receiverAB.arg0 = blockAB.arg0 ∧ receiverAB.err = false
    ∧ receiverAB.obp.toNat % 8 = 0 ∧ receiverAB.obp.toNat / 8 + blockAB.arg0.toNat ≤ receiverAB.cfg.outSize
    ∧ (∀ j, j < (payload s₂ blockAB.arg0.toNat).length → (receiverAB.ibp.toNat + j) / 8 < receiverAB.inLen.toNat
      ∧ inStreamBit receiverAB (receiverAB.ibp.toNat + j) = outBit s₃ (blockAB.obp.toNat + j))
    ∧ exec .rebuild receiverAB = .next d₁ :=
  ⟨_, derivedAB, finish (runOf .encode derivedAB), _, by decide +kernel, by unfold pointersOk; decide +kernel,
    exec_eq _ _, exec_eq _ _, by unfold encodable; decide +kernel, exec_eq _ _, by decide +kernel,
    by unfold pointersOk; decide +kernel, by simp only [receiverAB, withIn], by decide +kernel, by decide +kernel,
    by decide +kernel, by decide +kernel, by decide +kernel, exec_eq _ _⟩

/-- An error record, with a read coming, which leaves it; a hard reset, an acceptance and a soft reset clear it. -/
theorem witness_ErrorRecordStaysUntilAcceptanceOrReset :
    (∀ a : HostAction, ∃ t, ({ State.reset with err := true, errcode := .seq, pending := [⟨true, a⟩] } : State).busy = false
      ∧ step { State.reset with err := true, errcode := .seq, pending := [⟨true, a⟩] } = .next t)
    ∧ (host1 { State.reset with err := true, errcode := .seq } (.read 0x008 32)).err = true
    ∧ (host1 { State.reset with err := true, errcode := .seq } .hardReset).err = false
    ∧ (host1 { State.reset with err := true, errcode := .seq } (.write 0x00C 32 0)).err = false
    ∧ (host1 { State.reset with err := true, errcode := .seq } (.write 0x004 32 1)).err = false
    ∧ (2 : Word).getLsbD 1 = true := by
  refine ⟨fun a => ⟨_, rfl, step_event (show Params.default.legal = true by decide) rfl (.inl rfl)⟩, ?_⟩
  decide +kernel

theorem witness_CommandsOutOfOrderRaise :
    (∃ t, exec .build (withIn [0x61] { State.reset with arg0 := 1 }) = .next t ∧ t.arg0 ≠ 0 ∧ t.ibp.toNat % 8 = 0
      ∧ t.ibp.toNat / 8 < t.inLen.toNat)
    ∧ ∃ t, (withIn [0xC0] State.reset).err = false ∧ exec (.ldcode 0x62 3) (withIn [0xC0] State.reset) = .next t
      ∧ t.err = false ∧ t.ibp.toNat % 8 = 0 :=
  ⟨⟨finish (runOf .build (withIn [0x61] { State.reset with arg0 := 1 })), exec_eq _ _, by decide +kernel,
      by decide +kernel, by decide +kernel⟩,
    finish (runOf (.ldcode 0x62 3) (withIn [0xC0] State.reset)), rfl, exec_eq _ _, by decide +kernel, by decide +kernel⟩

theorem witness_IrqFollowsEnableAndDone : ∃ t, (awaited 0).cfg.legal = true ∧ engineNext (awaited 0)
    ∧ step (awaited 0) = .next t ∧ State.reset.busy = false ∧ (2 : Word).getLsbD 1 = true ∧ (2 : Word).getLsbD 0 = false
    ∧ (3 : Word).getLsbD 0 = true :=
  ⟨_, by decide, engineNext_awaited _, (step_engine (by decide) (nextTurn_engine.2 (engineNext_awaited 0))).trans
    (engineTurn_eq _), rfl, by decide, by decide, by decide⟩

/-- SRST = 0 and SRST = 1 with IE asked for. -/
theorem witness_CtrlHoldsOnlyTheEnable : (2 : Word).getLsbD 0 = false ∧ (3 : Word).getLsbD 0 = true := by decide

/-- BUSY = 0 and BUSY = 1, for the register statements. -/
theorem witness_PlainRegistersReadBack : State.reset.busy = false ∧ (0xFF : Symbol) ≠ 0 ∧ readOnly .id
    ∧ readOnly (.codeWord 7) := ⟨rfl, by decide, .inl (by decide), .inr ⟨7, rfl⟩⟩
theorem witness_ReadBackWindowShowsTheEntry : State.reset.busy = false ∧ (accepted 0).busy = true := by decide
theorem witness_WritesWhileBusyAreDropped : (accepted 0).busy = true ∧ (2 : Word).getLsbD 0 = false
    ∧ (1 : Word).getLsbD 0 = true ∧ readOnly .codeInfo ∧ readOnly (.codeWord 0) :=
  ⟨rfl, by decide, by decide, .inl (by decide), .inr ⟨0, rfl⟩⟩
theorem witness_ReadsWhileBusyAreFree : (accepted 0).busy = true ∧ Reg.cnt ≠ .id ∧ Reg.cnt ≠ .ctrl ∧ Reg.cnt ≠ .status
    ∧ Reg.cnt ≠ .cmd := by decide
theorem witness_PointerWritesAreClamped : small.cfg.legal = true ∧ small.busy = false := by decide
theorem witness_HostWordsAreBigEndian : State.reset.busy = false ∧ ((4 : Nat) < 4 ∨ (0 : Nat) + 3 < 4) := by decide
theorem witness_ReadsAreSilentAndWritesIdempotent : Location.reg .ibp ≠ .reg .cmd ∧ Location.reg .ibp ≠ .reg .ctrl
    ∧ Location.reg .ibp ≠ .reg .status := by decide

theorem witness_CountRegistersCountTheTables : (codeOf (withTable tableAB State.reset) 0x62).present = true
    ∧ treeOk (.root treeAB) ∧ State.reset.busy = false ∧ State.reset.ts = .invalid
    ∧ { State.reset with ts := .empty }.ts = .empty ∧ { State.reset with ts := .root treeAB }.busy = false :=
  ⟨by decide +kernel, treeOk_treeAB, rfl, rfl, rfl, rfl⟩

/-- The first address above the window, with BUSY = 1, and the last below one that does not begin at 0. -/
theorem witness_outsideTheWindow :
    Params.default.base + 0x30000 ≤ 0x30000 ∧ (busyWithEvent ⟨false, .write 0x30000 32 5⟩).cfg.legal = true
    ∧ landsNow (busyWithEvent ⟨false, .write 0x30000 32 5⟩) ⟨false, .write 0x30000 32 5⟩
    ∧ { Params.default with base := 0x40000 }.legal = true ∧ 0x3FFFF < 0x40000 :=
  ⟨by decide, by decide, .inr rfl, by decide, by decide⟩

/-- The last words of IN and OUT when each holds one word. -/
theorem witness_AddressMapWords : small.cfg.legal = true ∧ 0 % 4 = 0 ∧ 0 < small.cfg.inSize ∧ ¬ 4 < small.cfg.inSize
    ∧ 0 < small.cfg.outSize ∧ ¬ 4 < small.cfg.outSize := by decide

/-- A read that lands while BUSY = 1, and a write that waits for BUSY = 0, at the last FREQ entry. -/
theorem witness_PerformedAccessesActAtTheirLocation :
    (busyWithEvent ⟨false, .read 0x7FC 32⟩).cfg.legal = true
    ∧ performedAt (busyWithEvent ⟨false, .read 0x7FC 32⟩).cfg 0x7FC 32 = some (.freq 0xFF)
    ∧ (busyWithEvent ⟨false, .read 0x7FC 32⟩).pending = [⟨false, .read (Params.default.base + 0x7FC) 32⟩]
    ∧ landsNow (busyWithEvent ⟨false, .read 0x7FC 32⟩) ⟨false, .read (Params.default.base + 0x7FC) 32⟩
    ∧ (withEvent ⟨true, .write 0x7FC 32 5⟩).pending = [⟨true, .write (Params.default.base + 0x7FC) 32 5⟩]
    ∧ landsNow (withEvent ⟨true, .write 0x7FC 32 5⟩) ⟨true, .write (Params.default.base + 0x7FC) 32 5⟩ :=
  ⟨by decide, by decide, rfl, .inr rfl, rfl, .inl rfl⟩

/-- The last offset of the window, and each way of being out of R61: width, alignment, the first and last reserved
offsets of each range. -/
theorem witness_AddressMapIsExact : small.cfg.legal = true ∧ (0x2FFFF : Nat) < 0x30000
    ∧ (∀ p ∈ ([(0x000, 8), (0x001, 32), (0x068, 32), (0x3FC, 32), (0x800, 32), (0xFFFC, 32), (0x10004, 32), (0x1FFFC, 32),
      (0x20004, 32), (0x2FFFC, 32)] : List (Nat × Nat)), notPerformed small.cfg p.1 p.2)
    ∧ ∀ p ∈ ([(0x000, 32), (0x064, 32), (0x400, 32), (0x7FC, 32), (0x10000, 32), (0x20000, 32)] : List (Nat × Nat)),
        ¬ notPerformed small.cfg p.1 p.2 := by
  unfold notPerformed reservedOffset
  decide

theorem witness_BusErrorsChangeNoState :
    (withEvent ⟨true, .read (Params.default.base + 0x068) 32⟩).cfg.legal = true
    ∧ notPerformed (withEvent ⟨true, .read (Params.default.base + 0x068) 32⟩).cfg 0x068 32
    ∧ landsNow (withEvent ⟨true, .read (Params.default.base + 0x068) 32⟩) ⟨true, .read (Params.default.base + 0x068) 32⟩
    ∧ landsNow (busyWithEvent ⟨false, .write (Params.default.base + 0x010) 8 0⟩)
        ⟨false, .write (Params.default.base + 0x010) 8 0⟩
    ∧ notPerformed (busyWithEvent ⟨false, .write (Params.default.base + 0x010) 8 0⟩).cfg 0x010 8 :=
  ⟨by decide, .inr (.inr (.inl (by decide))), .inl rfl, .inr rfl, .inl (by decide)⟩

theorem witness_HardResetValues : (busyWithEvent ⟨false, .hardReset⟩).cfg.legal = true
    ∧ (busyWithEvent ⟨false, .hardReset⟩).pending = [⟨false, .hardReset⟩]
    ∧ landsNow (busyWithEvent ⟨false, .hardReset⟩) ⟨false, .hardReset⟩
    ∧ Reg.totalHi ∈ [Reg.ctrl, .status, .arg0, .res, .cnt, .errinfo, .inLen, .ibp, .obp, .codeSel, .totalLo, .totalHi] :=
  ⟨by decide, rfl, .inr rfl, by decide⟩

/-- With BUSY = 0 and with BUSY = 1. -/
theorem witness_SoftResetPreservesTheBuffers :
    (withEvent ⟨true, .write 0x004 32 3⟩).cfg.legal = true
    ∧ (withEvent ⟨true, .write 0x004 32 3⟩).pending = [⟨true, .write (Params.default.base + 0x004) 32 3⟩]
    ∧ landsNow (withEvent ⟨true, .write 0x004 32 3⟩) ⟨true, .write (Params.default.base + 0x004) 32 3⟩
    ∧ landsNow (busyWithEvent ⟨false, .write 0x004 32 1⟩) ⟨false, .write (Params.default.base + 0x004) 32 1⟩
    ∧ (withEvent ⟨true, .write 0x004 32 3⟩).busy = false ∧ (busyWithEvent ⟨false, .write 0x004 32 1⟩).busy = true
    ∧ (3 : Word).getLsbD 0 = true := ⟨by decide, rfl, .inl rfl, .inr rfl, rfl, rfl, by decide⟩

/-- A state with a tree, a table, bytes in both buffers, and a DECODE accepted. -/
def rich : State := { withTable tableAB State.reset with
  cfg := small.cfg, busy := true, cmdw := 0x0D, arg0 := 2, inLen := 4, ibp := 3, obp := 24, ts := .root treeAB,
  inBuf := [(0, 0x16)], outBuf := [(3, 0xFF)] }

theorem rich_pointers : pointersOk rich := by
  unfold pointersOk
  decide

theorem rich_memory : memoryOk rich := by
  unfold memoryOk Memory.wf
  decide

theorem rich_tree : treeStateOk rich := ⟨treeOk_treeAB, rfl⟩

theorem rich_codes : codesOk rich := codesOk_tableAB

theorem rich_record : recordOk rich := ⟨by decide, fun _ => rfl, fun _ => ⟨rfl, rfl⟩⟩

theorem rich_inv : rich.Inv := ⟨by decide, rich_memory, rich_pointers, rich_codes, rich_tree, rich_record⟩

theorem rich_step : ∃ t, step rich = .next t :=
  ⟨_, (step_engine (by decide) (nextTurn_engine.2 ⟨rfl, by simp [rich, withTable, tableAB, setCodes, State.reset]⟩)).trans
    (engineTurn_eq _)⟩

theorem witness_PointersStayInRange : ∃ t, rich.cfg.legal = true ∧ pointersOk rich ∧ step rich = .next t :=
  rich_step.imp fun _ h => ⟨by decide, rich_pointers, h⟩
theorem witness_BuffersStayCanonical : ∃ t, rich.cfg.legal = true ∧ memoryOk rich ∧ step rich = .next t :=
  rich_step.imp fun _ h => ⟨by decide, rich_memory, h⟩
theorem witness_TreeAndTableStayLegal : ∃ t, treeStateOk rich ∧ codesOk rich ∧ step rich = .next t :=
  rich_step.imp fun _ h => ⟨rich_tree, rich_codes, h⟩
theorem witness_ErrorRecordStaysConsistent : ∃ t, recordOk rich ∧ step rich = .next t :=
  rich_step.imp fun _ h => ⟨rich_record, h⟩
theorem witness_EveryStepKeepsTheInvariant : ∃ t, rich.Inv ∧ step rich = .next t :=
  rich_step.imp fun _ h => ⟨rich_inv, h⟩

end Sys2Proof.Tests
end

section
/-! PROOFS. The CTRL register (10_state.md R25): what the host reads there and what a write of it does, for any BUSY. -/

namespace Sys2Proof.Machine

/-! ## Accesses that BUSY does not disturb (70_reset_and_hazards.md R260, R261) -/

/-- ID, CTRL, STATUS and CMD read their value whatever BUSY is. -/
theorem readValue_of_readableWhileBusy {r : Reg} (s : State) (h : readableWhileBusy r = true) :
    readValue s (.reg r) = regValue s r := by
  have hdef : readDefined s (.reg r) = true := by rw [readDefined, h, Bool.or_true]
  rw [readValue, if_pos hdef, locationValue]

/-- A write of CTRL or STATUS is performed whatever BUSY is. -/
theorem hostWrite_of_not_droppedWhileBusy {l : Location} (v : Word) (s : State) (h : droppedWhileBusy l = false) :
    hostWrite l v s = writeLocation l v s := by
  rw [hostWrite, h, Bool.and_false, if_neg Bool.false_ne_true]

/-! ## CTRL -/

theorem ctrlWord_eq_ite (s : State) : ctrlWord s = if s.ie then 0x00000002 else 0x00000000 := by
  unfold ctrlWord
  cases s.ie <;> rfl

@[simp] theorem readValue_ctrl (s : State) : readValue s (.reg .ctrl) = ctrlWord s :=
  readValue_of_readableWhileBusy s rfl

@[simp] theorem hostWrite_ctrl (v : Word) (s : State) : hostWrite (.reg .ctrl) v s = writeCtrl v s :=
  hostWrite_of_not_droppedWhileBusy v s rfl

/-- SRST = 0: the write moves IE and nothing else. -/
theorem writeCtrl_of_srst_eq_false {v : Word} (s : State) (h : v.getLsbD 0 = false) :
    writeCtrl v s = { s with ie := v.getLsbD 1 } := by
  rw [writeCtrl, h, if_neg Bool.false_ne_true]

/-- SRST = 1: the soft reset takes precedence over bit 1 (R252). -/
theorem writeCtrl_of_srst_eq_true {v : Word} (s : State) (h : v.getLsbD 0 = true) :
    writeCtrl v s = softReset s := by
  rw [writeCtrl, if_pos h]

@[simp] theorem softReset_ie (s : State) : (softReset s).ie = false := rfl

/-- Settles O40: CTRL is read and written whatever BUSY is, and a write is one of the two cases of SRST. -/
theorem ctrlHoldsOnlyTheEnable : Obligations.CtrlHoldsOnlyTheEnable := by
  unfold Obligations.CtrlHoldsOnlyTheEnable
  refine ⟨fun s => ?read, fun s v hv => ?enable, fun s v hv => ⟨?reset, softReset_ie s⟩, rfl⟩
  case read => rw [readValue_ctrl, ctrlWord_eq_ite]
  case enable => rw [hostWrite_ctrl, writeCtrl_of_srst_eq_false s hv]
  case reset => rw [hostWrite_ctrl, writeCtrl_of_srst_eq_true s hv]

end Sys2Proof.Machine
end

section
/-! PROOFS. The host's bus accesses (20_memory.md): a performed access acts at its location (R61), a bus error and an
address outside the window change no state (R60, R62), and a buffer word is big-endian (R63). -/

open Sys2Proof.Claims

namespace Sys2Proof.Machine

/-! ## The window and its reserved offsets (R60) -/

theorem windowOffset_outside {c : Params} {addr : Nat} (h : addr < c.base ∨ c.base + 0x30000 ≤ addr) :
    windowOffset c addr = none := by
  rw [windowOffset, if_neg (by omega)]

theorem locationAt_reservedOffset {c : Params} {off : Nat} (hc : c.legal = true) (h : reservedOffset c off) :
    locationAt c off = none := by
  have hs := legal_sizes hc
  unfold reservedOffset at h
  rw [locationAt, if_neg (by omega), if_neg (by omega), if_neg (by omega), if_neg (by omega)]

/-- Each way of being out of R61: the width, the alignment, a reserved offset. -/
theorem performedAt_notPerformed {c : Params} {off bits : Nat} (hc : c.legal = true) (h : notPerformed c off bits) :
    performedAt c off bits = none := by
  rcases h with hbits | halign | hres
  · rw [performedAt, if_neg fun hp => hbits hp.1]
  · rw [performedAt, if_neg fun hp => halign hp.2]
  · rw [performedAt, locationAt_reservedOffset hc hres, ite_self]

/-! ## What an access does, by the case of its address (R61, R62) -/

theorem busRead_outside {addr : Nat} (bits : Nat) {s : State} (hw : windowOffset s.cfg addr = none) :
    busRead addr bits s = { s with resp := none } := by
  simp only [busRead, hw]

theorem busWrite_outside {addr : Nat} (bits : Nat) (v : Word) {s : State} (hw : windowOffset s.cfg addr = none) :
    busWrite addr bits v s = { s with resp := none } := by
  simp only [busWrite, hw]

section
variable {addr off bits : Nat} {s : State} (hw : windowOffset s.cfg addr = some off)
include hw

theorem busRead_busError (hp : performedAt s.cfg off bits = none) :
    busRead addr bits s = { s with resp := some (busErrorResponse s.cfg (some 0)) } := by
  simp only [busRead, hw, hp]

theorem busWrite_busError (v : Word) (hp : performedAt s.cfg off bits = none) :
    busWrite addr bits v s = { s with resp := some (busErrorResponse s.cfg none) } := by
  simp only [busWrite, hw, hp]

theorem busRead_performed {l : Location} (hp : performedAt s.cfg off bits = some l) :
    busRead addr bits s = { s with resp := some ⟨some (readValue s l), false, false⟩ } := by
  simp only [busRead, hw, hp]

theorem busWrite_performed {l : Location} (v : Word) (hp : performedAt s.cfg off bits = some l) :
    busWrite addr bits v s = { hostWrite l v s with resp := some writeAnswer } := by
  simp only [busWrite, hw, hp, writeAnswer]

end

/-- Settles O46: an access that is not performed is a bus error, and one outside the window is not answered; in both
cases the step moves the answer and the model's own fields alone. -/
theorem busErrorsChangeNoState : Obligations.BusErrorsChangeNoState := by
  unfold Obligations.BusErrorsChangeNoState
  refine ⟨fun s waits off bits v rest hl hoff hnot => ?window,
    fun s waits addr bits v rest a hl hout ha hpend hland => ?outside⟩
  case window =>
    have hw := windowOffset_base s.cfg hoff
    have hp := performedAt_notPerformed hl hnot
    refine ⟨fun hpend hland => ?_, fun hpend hland => ?_⟩
    · rw [step_event hl hpend hland, hostAct, busRead_busError (s := { s with pending := rest }) hw hp]
      rfl
    · rw [step_event hl hpend hland, hostAct, busWrite_busError (s := { s with pending := rest }) hw v hp]
      rfl
  case outside =>
    have hw := windowOffset_outside hout
    rcases ha with rfl | rfl
    · rw [step_event hl hpend hland, hostAct, busRead_outside (s := { s with pending := rest }) bits hw]
      rfl
    · rw [step_event hl hpend hland, hostAct, busWrite_outside (s := { s with pending := rest }) bits v hw]
      rfl

/-! ## Performed accesses (R61) -/

/-- What the host still does is no state that a read looks at. -/
theorem readValue_pending (s : State) (rest : List HostEvent) (l : Location) :
    readValue { s with pending := rest } l = readValue s l := rfl

@[simp] theorem writeCtrl_draws (v : Word) (s : State) : (writeCtrl v s).draws = s.draws := by
  cases hv : v.getLsbD 0 with
  | false => rw [writeCtrl_of_srst_eq_false s hv]
  | true => rw [writeCtrl_of_srst_eq_true s hv]; rfl

@[simp] theorem writeLocation_draws (l : Location) (v : Word) (s : State) : (writeLocation l v s).draws = s.draws := by
  cases l with
  | freq x => rfl
  | inWord i => rfl
  | outWord i => rfl
  | reg r =>
    cases r
    case ctrl => exact writeCtrl_draws v s
    all_goals rfl

/-- No host write moves the index of the free values. -/
@[simp] theorem hostWrite_draws (l : Location) (v : Word) (s : State) : (hostWrite l v s).draws = s.draws := by
  unfold hostWrite
  split
  · rfl
  · exact writeLocation_draws l v s

/-- Settles O60: the offset of a performed access lies in the window, so the access acts at its location. -/
theorem performedAccessesActAtTheirLocation : Obligations.PerformedAccessesActAtTheirLocation := by
  unfold Obligations.PerformedAccessesActAtTheirLocation
  intro s waits off l v rest hl hp
  have hw := windowOffset_base s.cfg (performedAt_lt hl hp)
  refine ⟨fun hpend hland => ?read, fun hpend hland => ?write⟩
  case read =>
    rw [step_event hl hpend hland, hostAct, busRead_performed (s := { s with pending := rest }) hw hp,
      readValue_pending]
    rfl
  case write =>
    rw [step_event hl hpend hland, hostAct, busWrite_performed (s := { s with pending := rest }) hw v hp, tick,
      hostWrite_draws]

/-! ## Big-endian words (R63) -/

theorem readValue_of_idle {s : State} (l : Location) (hb : s.busy = false) : readValue s l = locationValue s l := by
  have hdef : readDefined s l = true := by cases l <;> simp [readDefined, hb]
  rw [readValue, if_pos hdef]

theorem hostWrite_of_idle {s : State} (l : Location) (v : Word) (hb : s.busy = false) :
    hostWrite l v s = writeLocation l v s := by
  rw [hostWrite, hb, Bool.false_and, if_neg Bool.false_ne_true]

theorem append_byte_toNat {n : Nat} (x : BitVec n) (y : Byte) : (x ++ y).toNat = x.toNat * 0x100 + y.toNat := by
  rw [BitVec.toNat_append, ← Nat.shiftLeft_add_eq_or_of_lt y.isLt, Nat.shiftLeft_eq]

/-- The first byte of a word is its most significant. -/
theorem wordAt_toNat (f : Nat → Byte) (i : Nat) : (wordAt f i).toNat
    = (f i).toNat * 0x1000000 + (f (i + 1)).toNat * 0x10000 + (f (i + 2)).toNat * 0x100 + (f (i + 3)).toNat := by
  simp only [wordAt, append_byte_toNat]
  omega

/-- The bytes `g` with the word `v` put in big-endian at index `i`: what a buffer reads as after a word write. -/
def spliceWord (g : Nat → Byte) (i : Nat) (v : Word) (a : Nat) : Byte :=
  if a = i + 3 then v.extractLsb' 0 8 else if a = i + 2 then v.extractLsb' 8 8
  else if a = i + 1 then v.extractLsb' 16 8 else if a = i then v.extractLsb' 24 8 else g a

theorem inByte_writeWord (s : State) (i : Nat) (v : Word) :
    inByte { s with inBuf := Memory.writeWord s.inBuf i v } = spliceWord (inByte s) i v := by
  funext a
  simp only [inByte, Memory.read_writeWord, spliceWord]
  repeat' split
  all_goals rfl

theorem outByte_writeWord (s : State) (i : Nat) (v : Word) :
    outByte { s with outBuf := Memory.writeWord s.outBuf i v } = spliceWord (outByte s) i v := by
  funext a
  simp only [outByte, Memory.read_writeWord, spliceWord]
  repeat' split
  all_goals rfl

/-- Byte `k` of a spliced word is eight bits of the word, the most significant for `k = 0`. -/
theorem spliceWord_toNat (g : Nat → Byte) (i : Nat) (v : Word) {k : Nat} (hk : k < 4) :
    (spliceWord g i v (i + k)).toNat = v.toNat / 2 ^ (24 - 8 * k) % 0x100 := by
  have hbyte : spliceWord g i v (i + k) = v.extractLsb' (24 - 8 * k) 8 := by
    interval_cases k <;> simp [spliceWord]
  rw [hbyte, BitVec.extractLsb'_toNat, Nat.shiftRight_eq_div_pow]

/-- The four bytes of a spliced word are its bits 31:24, 23:16, 15:8 and 7:0. -/
theorem spliceWord_bytes (g : Nat → Byte) (i : Nat) (v : Word) :
    (spliceWord g i v i).toNat = v.toNat / 0x1000000 ∧ (spliceWord g i v (i + 1)).toNat = v.toNat / 0x10000 % 0x100
    ∧ (spliceWord g i v (i + 2)).toNat = v.toNat / 0x100 % 0x100
    ∧ (spliceWord g i v (i + 3)).toNat = v.toNat % 0x100 := by
  have top : (spliceWord g i v i).toNat = v.toNat / 0x1000000 % 0x100 := spliceWord_toNat g i v (k := 0) (by omega)
  have low : (spliceWord g i v (i + 3)).toNat = v.toNat / 1 % 0x100 := spliceWord_toNat g i v (k := 3) (by omega)
  exact ⟨by omega, spliceWord_toNat g i v (by omega), spliceWord_toNat g i v (by omega), by omega⟩

theorem spliceWord_of_outside (g : Nat → Byte) {i a : Nat} (v : Word) (ha : a < i ∨ i + 3 < a) :
    spliceWord g i v a = g a := by
  rw [spliceWord, if_neg (by omega), if_neg (by omega), if_neg (by omega), if_neg (by omega)]

theorem wordAt_spliceWord (g : Nat → Byte) (i : Nat) (v : Word) : wordAt (spliceWord g i v) i = v := by
  obtain ⟨h0, h1, h2, h3⟩ := spliceWord_bytes g i v
  apply BitVec.eq_of_toNat_eq
  rw [wordAt_toNat, h0, h1, h2, h3]
  omega

/-- A word write reads back byte by byte and whole, and leaves every other byte. -/
theorem spliceWord_spec (g : Nat → Byte) (i : Nat) (v : Word) :
    (spliceWord g i v i).toNat = v.toNat / 0x1000000 ∧ (spliceWord g i v (i + 1)).toNat = v.toNat / 0x10000 % 0x100
    ∧ (spliceWord g i v (i + 2)).toNat = v.toNat / 0x100 % 0x100 ∧ (spliceWord g i v (i + 3)).toNat = v.toNat % 0x100
    ∧ (∀ a, (a < i ∨ i + 3 < a) → spliceWord g i v a = g a) ∧ wordAt (spliceWord g i v) i = v := by
  obtain ⟨h0, h1, h2, h3⟩ := spliceWord_bytes g i v
  exact ⟨h0, h1, h2, h3, fun _ => spliceWord_of_outside g v, wordAt_spliceWord g i v⟩

/-- Settles O47: with BUSY = 0 a read is `wordAt` and a write is `spliceWord`, in IN and in OUT. -/
theorem hostWordsAreBigEndian : Obligations.HostWordsAreBigEndian := by
  unfold Obligations.HostWordsAreBigEndian
  intro s i v hb
  refine ⟨?readIn, ?readOut, ⟨_, hostWrite_of_idle _ v hb, rfl, ?writeIn⟩, ⟨_, hostWrite_of_idle _ v hb, rfl, ?writeOut⟩⟩
  case readIn => rw [readValue_of_idle _ hb, locationValue, wordAt_toNat]
  case readOut => rw [readValue_of_idle _ hb, locationValue, wordAt_toNat]
  case writeIn =>
    rw [writeLocation, readValue_of_idle (.inWord i) (by exact hb), locationValue, inByte_writeWord]
    exact spliceWord_spec (inByte s) i v
  case writeOut =>
    rw [writeLocation, readValue_of_idle (.outWord i) (by exact hb), locationValue, outByte_writeWord]
    exact spliceWord_spec (outByte s) i v

end Sys2Proof.Machine
end

section
/-! PROOFS. Illegal command words (30_encoding.md R93): which arm of the decoder a word meets, when that arm rejects the
word, and what the engine does with a rejected word. -/

namespace Sys2Proof.Laws

/-! ## The arms of the decoder (R92) -/

theorem decode_of_reserved {w : Word} (hr : fieldRSV w ≠ 0) : decode w = .error .reserved := by
  rw [decode, if_pos hr]

theorem decode_of_unused_opcode {w : Word} (hr : fieldRSV w = 0) (ho : 0x0E ≤ (fieldOP w).toNat) :
    decode w = .error .opcode := by
  rw [decode, if_neg (not_not_intro hr)]
  split
  case h_15 => rfl
  all_goals omega

theorem decode_of_ldcode {w : Word} (hr : fieldRSV w = 0) (ho : (fieldOP w).toNat = 0x05) :
    decode w = .ok (.ldcode (fieldA w) (fieldB w)) := by
  simp only [decode, hr, ho]
  rfl

/-- PUTB and PUTCODE use A alone. -/
theorem decode_eq_decodeWithA {w : Word} (hr : fieldRSV w = 0)
    (ho : (fieldOP w).toNat = 0x07 ∨ (fieldOP w).toNat = 0x08) : ∃ i, decode w = decodeWithA w i := by
  rw [decode, if_neg (not_not_intro hr)]
  rcases ho with ho | ho <;> rw [ho] <;> exact ⟨_, rfl⟩

/-- The other eleven commands use neither operand. -/
theorem decode_eq_decodeBare {w : Word} (hr : fieldRSV w = 0) (ho : (fieldOP w).toNat < 0x0E)
    (hl : (fieldOP w).toNat ≠ 0x05) (hb : (fieldOP w).toNat ≠ 0x07) (hc : (fieldOP w).toNat ≠ 0x08) :
    ∃ i, decode w = decodeBare w i := by
  rw [decode, if_neg (not_not_intro hr)]
  generalize (fieldOP w).toNat = op at ho hl hb hc
  interval_cases op
  any_goals contradiction
  all_goals exact ⟨_, rfl⟩

/-! ## Which words are rejected (R93) -/

theorem decodeWithA_error_iff (w : Word) (i : Instr) : (∃ r, decodeWithA w i = .error r) ↔ fieldB w ≠ 0 := by
  by_cases hb : fieldB w = 0#8 <;> simp [decodeWithA, hb]

theorem decodeBare_error_iff (w : Word) (i : Instr) :
    (∃ r, decodeBare w i = .error r) ↔ fieldA w ≠ 0 ∨ fieldB w ≠ 0 := by
  by_cases ha : fieldA w = 0#8 <;> by_cases hb : fieldB w = 0#8 <;> simp [decodeBare, ha, hb]

/-- The decoder rejects a word exactly by (a) to (d), arm by arm. -/
theorem decode_error_iff (w : Word) : (∃ r, decode w = .error r) ↔
    ((fieldOP w).toNat ≥ 0x0E ∨ fieldRSV w ≠ 0
      ∨ (fieldA w ≠ 0 ∧ (fieldOP w).toNat ≠ 0x05 ∧ (fieldOP w).toNat ≠ 0x07 ∧ (fieldOP w).toNat ≠ 0x08)
      ∨ (fieldB w ≠ 0 ∧ (fieldOP w).toNat ≠ 0x05)) := by
  by_cases hr : fieldRSV w = 0
  case neg => exact iff_of_true ⟨_, decode_of_reserved hr⟩ (.inr (.inl hr))
  by_cases ho : 0x0E ≤ (fieldOP w).toNat
  case pos => exact iff_of_true ⟨_, decode_of_unused_opcode hr ho⟩ (.inl ho)
  by_cases hl : (fieldOP w).toNat = 0x05
  case pos => simp [decode_of_ldcode hr hl, hr, hl]
  by_cases ha : (fieldOP w).toNat = 0x07 ∨ (fieldOP w).toNat = 0x08
  case pos =>
    obtain ⟨i, hi⟩ := decode_eq_decodeWithA hr ha
    rw [hi, decodeWithA_error_iff]
    tauto
  case neg =>
    obtain ⟨i, hi⟩ := decode_eq_decodeBare hr (not_le.1 ho) hl (not_or.1 ha).1 (not_or.1 ha).2
    rw [hi, decodeBare_error_iff]
    tauto

end Sys2Proof.Laws

namespace Sys2Proof.Machine

open Sys2Proof.Claims Sys2Proof.Laws

/-! ## What becomes of an illegal word (R93, R111) -/

/-- The engine's step on a rejected word writes the error record ILLEGAL and the completion alone. -/
theorem step_of_illegal {s : State} {r : Reject} (hl : s.cfg.legal = true) (hn : engineNext s)
    (hd : decode s.cmdw = .error r) : step s = .next { failed .illegal s.cmdw s with draws := s.draws + 1 } := by
  rw [step_engine hl (nextTurn_engine.2 hn), engineTurn_eq, fetch, hd]
  rfl

/-- Settles O3: the fields of R93 read as numbers, the CMD write of an idle block, and the engine's step. -/
theorem illegalWordsCompleteWithIllegal : Obligations.IllegalWordsCompleteWithIllegal := by
  unfold Obligations.IllegalWordsCompleteWithIllegal
  refine ⟨fun w => ?rejected, fun s w hb => hostWrite_of_idle _ w hb, fun s r => step_of_illegal⟩
  case rejected =>
    simp only [decode_error_iff, ← BitVec.toNat_ne_iff_ne, BitVec.ofNat_eq_ofNat, BitVec.toNat_zero, fieldOP_toNat,
      fieldA_toNat, fieldB_toNat, fieldRSV_toNat]

end Sys2Proof.Machine
end

section
/-! PROOFS. Acceptance and completion of a command (40_control.md R111, R113), and the two control commands NOP and
CLRFREQ (R120, R121). -/

namespace Sys2Proof.Machine

open Sys2Proof.Claims Sys2Proof.Laws

/-! ## The engine's turn (R112, R113) -/

/-- The engine's step on a command is its body and then completion. -/
theorem step_of_command {s : State} {i : Instr} (hl : s.cfg.legal = true) (hn : engineNext s)
    (hd : decode s.cmdw = .ok i) : step s = .next (tick (finish (runOf i s))) := by
  rw [step_engine hl (nextTurn_engine.2 hn), engineTurn_eq, fetch, hd]

/-- The body of a command leaves the error record to its end. -/
theorem runOf_record (i : Instr) (s : State) :
    (runOf i s).state.err = s.err ∧ (runOf i s).state.errcode = s.errcode := by
  obtain ⟨_, _, _, _, _, _, _, _, _, hframe⟩ := runOf_frame i s
  rw [hframe]
  exact ⟨rfl, rfl⟩

@[simp] theorem finish_busy (r : Run) : (finish r).busy = false := by cases r <;> rfl

@[simp] theorem finish_done (r : Run) : (finish r).done = true := by cases r <;> rfl

/-- With no error before it, a command ends with ERR = 1 exactly when it raised an error, whose code is not NONE. -/
theorem finish_err_iff (i : Instr) {s : State} (he : s.err = false) (hc : s.errcode = .none) :
    (finish (runOf i s)).err = true ↔ (finish (runOf i s)).errcode ≠ .none := by
  obtain ⟨herr, hcode⟩ := runOf_record i s
  rcases finish_cases i s with hok | ⟨e, v, hne, hraised⟩
  · rw [hok]
    simp [herr, hcode, he, hc]
  · rw [hraised]
    simp [hne]

/-- Settles O6: the latch holds an illegal word, which completes with ILLEGAL, or a command, which completes with the
end of its body. -/
theorem everyCommandRunsToCompletion : Obligations.EveryCommandRunsToCompletion := by
  unfold Obligations.EveryCommandRunsToCompletion
  intro s hl hn
  cases hd : decode s.cmdw with
  | error r => exact ⟨_, step_of_illegal hl hn hd, rfl, rfl, fun _ _ => by simp [failed]⟩
  | ok i => exact ⟨_, step_of_command hl hn hd, finish_busy _, finish_done _, finish_err_iff i⟩

/-! ## Words of the commands without operands (30_encoding.md R92, R93) -/

/-- No bit of a word with OP alone lies outside the opcode byte. -/
theorem commandWord_and_not_opcodeByte (op : BitVec 8) : commandWord op 0 0 &&& ~~~(0 ||| 0xFF#32) = 0 := by
  have hmask : ~~~((0 : Word) ||| 0xFF#32) = 0xFF#8 ++ 0xFF#8 ++ 0xFF#8 ++ 0x00#8 := by decide
  rw [hmask, commandWord, BitVec.and_append, BitVec.and_append, BitVec.and_append, BitVec.and_zero]
  rfl

/-- A word with the opcode of a command without operands is legal only if all its other bits are 0. -/
theorem illegalOutside_of_bare {op : BitVec 8} (hldcode : op.toNat ≠ 0x05) (hputb : op.toNat ≠ 0x07)
    (hputcode : op.toNat ≠ 0x08) : illegalOutside op 0 := by
  rintro w rfl hbits
  rw [decode_error_iff]
  by_contra hlegal
  obtain ⟨hr, ha, hb⟩ : fieldRSV w = 0 ∧ fieldA w = 0 ∧ fieldB w = 0 := by tauto
  have hw : w = commandWord (fieldOP w) 0 0 :=
    word_eq_of_fields (by simp) (by simp [ha]) (by simp [hb]) (by simp [hr])
  rw [hw, commandWord_and_not_opcodeByte] at hbits
  exact hbits rfl

/-! ## CLRFREQ (R121) -/

/-- A tree of BUILD has a leaf for each present symbol and at least one leaf: with none present it is `Empty`. -/
theorem builtTree_of_freq_zero {s : State} (h : ∀ x, freqOf s x = 0) : builtTree s = .empty := by
  rcases builtTree_spec s with ⟨hempty, -⟩ | ⟨n, -, ⟨hfull, -⟩, -, hmem, -, -⟩
  · exact hempty
  · have hleaves : leafSyms n = [] := List.eq_nil_iff_forall_not_mem.2 fun x hx => (hmem x).1 hx (h x)
    have hcount := leafSyms_length n
    rw [hleaves, List.length_nil, ← full_internalCount hfull] at hcount
    omega

theorem finish_build_ts (s : State) : (finish (runOf .build s)).ts = builtTree s := rfl

/-- Completion leaves FREQ. -/
@[simp] theorem freqOf_finish_ok (s : State) (x : Symbol) : freqOf (finish (.ok s)) x = freqOf s x := rfl

/-- Settles O12: the body of CLRFREQ is `clearFreq`, and BUILD of a table of zeros makes no tree. -/
theorem clrfreqZeroesEveryEntry : Obligations.ClrfreqZeroesEveryEntry := by
  unfold Obligations.ClrfreqZeroesEveryEntry
  refine ⟨by decide, illegalOutside_of_bare (by decide) (by decide) (by decide), fun s => ?_⟩
  have hzero : ∀ x, freqOf (finish (runOf .clrfreq s)) x = 0 := fun x => by
    rw [runOf, freqOf_finish_ok, freqOf_clearFreq]
  exact ⟨_, exec_eq .clrfreq s, hzero, rfl, _, exec_eq .build _,
    (finish_build_ts _).trans (builtTree_of_freq_zero hzero)⟩

/-! ## Acceptance (R111) -/

theorem performedAt_cmd (c : Params) : performedAt c 0x00C 32 = some (.reg .cmd) := by
  rw [performedAt, if_pos (by decide), locationAt_cmd]

/-- While BUSY = 1 a dropped write sets HAZ alone (70_reset_and_hazards.md R260). -/
theorem hostWrite_of_busy {s : State} {l : Location} (v : Word) (hb : s.busy = true)
    (hd : droppedWhileBusy l = true) : hostWrite l v s = { s with haz := true } := by
  rw [hostWrite, hb, hd, Bool.and_self, if_pos rfl]

/-- Settles O5: the access is performed at CMD, where an idle block accepts the word and a busy one drops it. -/
theorem cmdWriteAcceptsOrIsDropped : Obligations.CmdWriteAcceptsOrIsDropped := by
  unfold Obligations.CmdWriteAcceptsOrIsDropped
  intro s waits v rest hl hpend
  obtain ⟨-, hstep⟩ :=
    performedAccessesActAtTheirLocation s waits 0x00C (.reg .cmd) v rest hl (performedAt_cmd s.cfg)
  refine ⟨fun hb => ⟨_, ?accepted, ?irq, rfl⟩, fun hb hw => ?dropped⟩
  case accepted => rw [hstep hpend (.inl hb), hostWrite_of_idle _ v (by exact hb), writeLocation, writeReg, accept]
  case irq => exact Bool.and_false s.ie
  case dropped => rw [hstep hpend (.inr hw), hostWrite_of_busy v (by exact hb) rfl]

/-! ## NOP (R120) -/

/-- Settles O11: the body of NOP writes nothing, and acceptance has cleared the error record. -/
theorem nopOnlyCompletes : Obligations.NopOnlyCompletes := by
  unfold Obligations.NopOnlyCompletes
  refine ⟨by decide, illegalOutside_of_bare (by decide) (by decide) (by decide), exec_eq .nop, fun s => ?_, ?_⟩
  · exact ⟨_, exec_eq .nop _, rfl, accept_err 0 s, accept_errcode 0 s, accept_errinfo 0 s⟩
  · exact ⟨_, exec_eq .nop _, rfl⟩

end Sys2Proof.Machine
end

section
/-! PROOFS. BUILD (41_tree_builder.md R130 to R132): the ordered queue and the unordered bag of the greedy merge hold the
same nodes, give them up in the same order, and so end with the same tree. -/

namespace Sys2Proof.Machine

open Sys2Proof.Claims

/-! ## The lightest node of a bag -/

@[simp] theorem takeLightest_eq_none {b : List Slot} : takeLightest b = none ↔ b = [] := by
  cases b with
  | nil => simp [takeLightest]
  | cons x b =>
    rw [takeLightest]
    split
    · simp
    · split <;> simp

theorem takeLightest_mem {b r : List Slot} {x : Slot} (h : takeLightest b = some (x, r)) : x ∈ b := by
  induction b generalizing r with
  | nil => simp [takeLightest] at h
  | cons z b ih =>
    rw [takeLightest] at h
    split at h
    · cases h
      exact List.mem_cons_self
    · next hy =>
      split at h <;> cases h
      · exact List.mem_cons_self
      · exact List.mem_cons_of_mem z (ih hy)

/-- The head is taken when no node is lighter: it is the earliest. -/
theorem takeLightest_cons_of_le {x : Slot} {b : List Slot} (h : ∀ y ∈ b, (slotWeight x).toNat ≤ (slotWeight y).toNat) :
    takeLightest (x :: b) = some (x, b) := by
  rw [takeLightest]
  split
  · next hnone => rw [takeLightest_eq_none.1 hnone]
  · next hy => rw [if_pos (h _ (takeLightest_mem hy))]

/-- The head stays when the node taken from behind it is lighter. -/
theorem takeLightest_cons_of_lt {x y : Slot} {b r : List Slot} (hb : takeLightest b = some (y, r))
    (hlt : (slotWeight y).toNat < (slotWeight x).toNat) : takeLightest (x :: b) = some (y, x :: r) := by
  rw [takeLightest, hb]
  exact if_neg (Nat.not_le.2 hlt)

/-- In a bag in insertion order the node of least key `(weight, seq)` is the earliest of the lightest (R131). -/
theorem takeLightest_of_least {b : List QueueItem} {x : QueueItem} (horder : b.Pairwise (fun i j => i.seq < j.seq))
    (hx : x ∈ b) (hleast : ∀ y ∈ b, y ≠ x → keyLt x y = true) :
    takeLightest (b.map (·.node)) = some (x.node, (b.erase x).map (·.node)) := by
  induction b with
  | nil => simp at hx
  | cons z b ih =>
    obtain ⟨hz, horder⟩ := List.pairwise_cons.1 horder
    by_cases hzx : z = x
    · subst hzx
      rw [List.map_cons, List.erase_cons_head]
      refine takeLightest_cons_of_le fun n hn => ?_
      obtain ⟨y, hy, rfl⟩ := List.mem_map.1 hn
      have hseq := hz y hy
      have hkey := keyLt_iff.1 (hleast y (by simp [hy]) (by rintro rfl; omega))
      omega
    · have hxb : x ∈ b := (List.mem_cons.1 hx).resolve_left (Ne.symm hzx)
      have hseq := hz x hxb
      have hkey := keyLt_iff.1 (hleast z (by simp) hzx)
      rw [List.map_cons, List.erase_cons_tail (by simpa using hzx), List.map_cons]
      exact takeLightest_cons_of_lt (ih horder hxb fun y hy => hleast y (by simp [hy])) (by omega)

/-! ## The queue and the bag -/

/-- The queue `q`, in key order, and the bag `b`, in insertion order, hold the same elements; the next seq is `k`. -/
structure QueueOfBag (k : Nat) (q b : List QueueItem) : Prop where
  sorted : KeySorted q
  perm : q.Perm b
  order : b.Pairwise (fun i j => i.seq < j.seq)
  below : ∀ i ∈ b, i.seq < k

/-- `RemoveMin` takes the node the bag gives up (R131). -/
theorem QueueOfBag.takeLightest_eq {k : Nat} {x : QueueItem} {q b : List QueueItem} (h : QueueOfBag k (x :: q) b) :
    takeLightest (b.map (·.node)) = some (x.node, (b.erase x).map (·.node)) := by
  obtain ⟨hx, -⟩ := List.pairwise_cons.1 h.sorted
  refine takeLightest_of_least h.order (h.perm.mem_iff.1 List.mem_cons_self) fun y hy hyx => hx y ?_
  exact (List.mem_cons.1 (h.perm.mem_iff.2 hy)).resolve_left hyx

theorem QueueOfBag.remove {k : Nat} {x : QueueItem} {q b : List QueueItem} (h : QueueOfBag k (x :: q) b) :
    QueueOfBag k q (b.erase x) where
  sorted := h.sorted.of_cons
  perm := (List.cons_perm_iff_perm_erase.1 h.perm).2
  order := h.order.sublist List.erase_sublist
  below i hi := h.below i (List.mem_of_mem_erase hi)

theorem QueueOfBag.insert {k : Nat} {q b : List QueueItem} (h : QueueOfBag k q b) (n : Slot) :
    QueueOfBag (k + 1) (insertItem { node := n, seq := k } q) (b ++ [{ node := n, seq := k }]) where
  sorted := insertItem_sorted h.sorted fun y hy => Nat.ne_of_lt (h.below y (h.perm.mem_iff.1 hy))
  perm := (insertItem_perm _ q).trans ((h.perm.cons _).trans (List.perm_append_singleton _ b).symm)
  order := List.pairwise_append.2 ⟨h.order, List.pairwise_singleton _ _, by simpa using h.below⟩
  below i hi := by
    rcases List.mem_append.1 hi with hi | hi
    · exact Nat.lt_succ_of_lt (h.below i hi)
    · simp [List.mem_singleton.1 hi]

/-- The leaves BUILD starts from (R130). -/
theorem initialQueue_queueOfBag (s : State) :
    QueueOfBag (insertLeaves s allSymbols 0 []).1 (insertLeaves s allSymbols 0 []).2
      (leafItems s 0 (presentIn s allSymbols)) := by
  obtain ⟨hnext, hsorted, hperm⟩ := initialQueue_spec s
  refine ⟨hsorted, hperm, leafItems_sorted s 0 _, fun i hi => ?_⟩
  have hseq := leafItems_seq_le hi
  omega

theorem presentLeaves_eq (s : State) : presentLeaves s = (leafItems s 0 (presentIn s allSymbols)).map (·.node) :=
  (leafItems_nodes s 0 _).symm

/-! ## Merging -/

/-- A bag with fewer than two nodes has nothing to merge. -/
theorem greedyMerge_of_length_le_one (f : Nat) {b : List Slot} (h : b.length ≤ 1) : greedyMerge f b = b := by
  match f, b, h with
  | 0, _, _ => rfl
  | _ + 1, [], _ => rfl
  | _ + 1, [_], _ => rfl

/-- One merge: first removed left, second removed right, the merged node inserted last (R130, R132). -/
theorem greedyMerge_succ {b c r : List Slot} {x y : Slot} (f : Nat) (hx : takeLightest b = some (x, c))
    (hy : takeLightest c = some (y, r)) : greedyMerge (f + 1) b = greedyMerge f (r ++ [mergeNodes x y]) := by
  rw [greedyMerge, hx]
  simp only [hy, mergeNodes]

/-- Queue and bag make the same merges. -/
theorem greedyMerge_queueOfBag (f : Nat) {k : Nat} {q b : List QueueItem} (h : QueueOfBag k q b) :
    ∃ j c, QueueOfBag j (mergeAll f k q) c ∧ greedyMerge f (b.map (·.node)) = c.map (·.node) := by
  induction f generalizing k q b with
  | zero => exact ⟨k, b, h, rfl⟩
  | succ f ih =>
    match q, h with
    | [], h => exact ⟨k, b, h, greedyMerge_of_length_le_one _ (by simp [← h.perm.length_eq])⟩
    | [x], h => exact ⟨k, b, h, greedyMerge_of_length_le_one _ (by simp [← h.perm.length_eq])⟩
    | x :: y :: q, h =>
      obtain ⟨j, c, hmerged, hgreedy⟩ := ih (h.remove.remove.insert (mergeNodes x.node y.node))
      refine ⟨j, c, hmerged, ?_⟩
      rw [greedyMerge_succ f h.takeLightest_eq h.remove.takeLightest_eq, ← hgreedy, List.map_append]
      rfl

/-- Merges beyond the number of nodes do nothing. -/
theorem mergeAll_fuel {f g : Nat} (k : Nat) {q : List QueueItem} (hf : q.length ≤ f) (hg : f ≤ g) :
    mergeAll g k q = mergeAll f k q := by
  induction f generalizing g k q with
  | zero =>
    obtain rfl : q = [] := List.eq_nil_of_length_eq_zero (by omega)
    cases g <;> rfl
  | succ f ih =>
    obtain ⟨g, rfl⟩ : ∃ g', g = g' + 1 := ⟨g - 1, by omega⟩
    match q, hf with
    | [], _ => rfl
    | [_], _ => rfl
    | x :: y :: q, hf =>
      simp only [List.length_cons] at hf
      exact ih (k + 1) (by rw [insertItem_length]; omega) (by omega)

/-- BUILD merges at most 256 leaves, so the fuel of the greedy merge serves it too. -/
theorem builtQueue_eq_mergeAll (s : State) : builtQueue s
    = mergeAll 256 (insertLeaves s allSymbols 0 []).1 (insertLeaves s allSymbols 0 []).2 := by
  obtain ⟨hnext, -, hperm⟩ := initialQueue_spec s
  have hlen : (insertLeaves s allSymbols 0 []).2.length = (presentIn s allSymbols).length := by
    rw [hperm.length_eq, ← List.length_map (f := (·.node)), leafItems_nodes, List.length_map]
  have hmost : (insertLeaves s allSymbols 0 []).1 ≤ 256 := hnext.trans_le (length_le_of_nodup (presentIn_nodup s))
  have hbuilt : builtQueue s = mergeAll (insertLeaves s allSymbols 0 []).1 (insertLeaves s allSymbols 0 []).1
      (insertLeaves s allSymbols 0 []).2 := rfl
  rw [hbuilt, mergeAll_fuel _ (hlen.trans hnext.symm).le hmost]

/-! ## The tree (R130, R131, R132) -/

/-- The one node the queue ends with is the one the bag ends with. -/
theorem builtTree_eq_greedyTree (s : State) : builtTree s = greedyTree s := by
  obtain ⟨j, c, hqueue, hgreedy⟩ := greedyMerge_queueOfBag 256 (initialQueue_queueOfBag s)
  rw [← builtQueue_eq_mergeAll] at hqueue
  rw [← presentLeaves_eq] at hgreedy
  have hsame : c = builtQueue s := by
    have hperm := hqueue.perm
    rcases builtQueue_spec s with ⟨-, hq⟩ | ⟨i, hq, -⟩
    · rw [hq] at hperm ⊢
      exact hperm.symm.eq_nil
    · rw [hq] at hperm ⊢
      exact hperm.symm.eq_singleton
  rw [greedyTree, hgreedy, hsame, builtTree]
  cases builtQueue s <;> rfl

/-- All that BUILD writes (R130): the tree and its weight, the empty Code Table, and the completion. -/
theorem finish_build_eq (s : State) : finish (runOf .build s) = { s with
    ts := builtTree s, total := treeWeight (builtTree s), codes := emptyCodes, busy := false, done := true } := by
  rw [runOf, setCodes, setTree, finish, complete]

/-- Settles O13: the tree BUILD writes is that of the greedy merge, and its weight is the sum of FREQ. -/
theorem buildMakesTheGreedyTree : Obligations.BuildMakesTheGreedyTree := by
  unfold Obligations.BuildMakesTheGreedyTree
  refine ⟨by decide, illegalOutside_of_bare (by decide) (by decide) (by decide), fun s => ?_⟩
  refine ⟨_, (exec_eq .build s).trans (congrArg _ (finish_build_eq s)), builtTree_eq_greedyTree s,
    builtTree_weight s, ?codes, rfl⟩
  case codes => exact fun x => entryAt_emptyCodes x

end Sys2Proof.Machine
end

section
/-! PROOFS. The code table commands CLRCODE, DERIVE and LDCODE (42_code_table.md R160, R150, R165). -/

namespace Sys2Proof.Machine

open Sys2Proof.Claims Sys2Proof.Laws

/-! ## The two ends of a command (40_control.md R113, R114) -/

theorem exec_of_ok {i : Instr} {s t : State} (h : runOf i s = .ok t) :
    exec i s = .next { t with busy := false, done := true } := by
  rw [exec_eq, h, finish_ok]

theorem exec_of_raised {i : Instr} {s t : State} {e : ErrorCode} {v : Word} (h : runOf i s = .raised e v t) :
    exec i s = .next (failed e v t) := by
  rw [exec_eq, h, finish_raised, failed]

/-! ## The registers that count the table (10_state.md R32) -/

section
variable {s : State} (habsent : ∀ x, (codeOf s x).present = false)
include habsent

theorem ncode_of_absent : ncode s = 0 := by
  have hfilter : allSymbols.filter (fun x => (codeOf s x).present) = [] :=
    List.filter_eq_nil_iff.2 fun x _ => by simp [habsent x]
  rw [ncode, hfilter, List.length_nil]

theorem maxlen_of_absent : maxlen s = 0 := by
  simp only [maxlen, habsent, Bool.false_eq_true, if_false, List.foldl_fixed]

end

/-! ## CLRCODE (R160) -/

/-- Settles O20: the body of CLRCODE writes the empty table and the invalid tree, whose counts are 0. -/
theorem clrcodeEmptiesTheTable : Obligations.ClrcodeEmptiesTheTable := by
  unfold Obligations.ClrcodeEmptiesTheTable
  refine ⟨by decide, illegalOutside_of_bare (by decide) (by decide) (by decide), fun s => ?_⟩
  have hempty : ∀ x, entryAt emptyCodes x = CodeEntry.absent := entryAt_emptyCodes
  have habsent : ∀ x, (entryAt emptyCodes x).present = false := fun x => congrArg CodeEntry.present (hempty x)
  exact ⟨_, exec_of_ok (i := .clrcode) rfl, hempty, rfl, ncode_of_absent habsent, maxlen_of_absent habsent, rfl⟩

/-! ## DERIVE (R150) -/

section
variable {s : State}

theorem runDerive_of_invalid (h : s.ts = .invalid) : runDerive s = .raised .seq 0 s := by
  simp only [runDerive, h]

theorem runDerive_of_empty (h : s.ts = .empty) : runDerive s = .ok (setCodes emptyCodes s) := by
  simp only [runDerive, h]

theorem runDerive_of_root {n : Slot} (h : s.ts = .root n) :
    runDerive s = .ok (setCodes (walkCodes n 0 0 emptyCodes) s) := by
  simp only [runDerive, h]

end

/-- Settles O18: one case of the body of DERIVE for each tree state; the walk from a root writes the paths of the
leaves. -/
theorem deriveWritesTheLeafPaths : Obligations.DeriveWritesTheLeafPaths := by
  unfold Obligations.DeriveWritesTheLeafPaths
  refine ⟨by decide, illegalOutside_of_bare (by decide) (by decide) (by decide), fun s hts => ?invalid,
    fun s hts => ?empty, fun s n hts hok => ?root⟩
  case invalid => exact exec_of_raised (i := .derive) (runDerive_of_invalid hts)
  case empty => exact ⟨_, exec_of_ok (i := .derive) (runDerive_of_empty hts), entryAt_emptyCodes, rfl⟩
  case root =>
    rw [hts] at hok
    obtain ⟨-, -, hnodup, hdepth⟩ := hok
    have hentry := derived_entry hnodup hdepth
    exact ⟨_, exec_of_ok (i := .derive) (runDerive_of_root hts), rfl, fun x => (hentry x).1,
      fun c x => (hentry x).2 c⟩

/-! ## The word of LDCODE (30_encoding.md R92, R93) -/

/-- A word with RSV = 0 has no bit outside OP, A and B. -/
theorem commandWord_and_reservedByte (op a b : BitVec 8) :
    commandWord op a b &&& ~~~(0x00FFFF00 ||| 0xFF#32) = 0 := by
  have hmask : ~~~((0x00FFFF00 : Word) ||| 0xFF#32) = 0xFF#8 ++ 0x00#8 ++ 0x00#8 ++ 0x00#8 := by decide
  rw [hmask, commandWord, BitVec.and_append, BitVec.and_append, BitVec.and_append, BitVec.zero_and, BitVec.and_zero,
    BitVec.and_zero, BitVec.and_zero]
  rfl

/-- A bit outside OP, A and B lies in RSV, and a nonzero RSV is illegal for every opcode. -/
theorem illegalOutside_operands (op : BitVec 8) : illegalOutside op 0x00FFFF00 := by
  rintro w rfl hbits
  refine ⟨_, decode_of_reserved fun hr => hbits ?_⟩
  have hw : w = commandWord (fieldOP w) (fieldA w) (fieldB w) :=
    word_eq_of_fields (by simp) (by simp) (by simp) (by simp [hr])
  rw [hw, commandWord_and_reservedByte]

theorem decode_ldcode (x : Symbol) (len : BitVec 8) : decode (commandWord 0x05 x len) = .ok (.ldcode x len) := by
  rw [decode_of_ldcode (by simp) (by simp), fieldA_commandWord, fieldB_commandWord]

/-! ## LDCODE (R165): its checks in order -/

section
variable {x : Symbol} {len : BitVec 8} {s : State}

theorem runLdcode_of_unaligned (h : s.ibp.toNat % 8 ≠ 0) : runLdcode x len s = .raised .align s.ibp s := by
  rw [runLdcode, if_pos h]

variable (haligned : s.ibp.toNat % 8 = 0)
include haligned

theorem runLdcode_of_present (h : (codeOf s x).present = true) :
    runLdcode x len s = .raised .dup (symbolInfo x) s := by
  rw [runLdcode, if_neg (not_not_intro haligned), if_pos h]

variable (habsent : (codeOf s x).present = false)
include habsent

theorem runLdcode_of_truncated (hlen : len ≠ 0) (h : s.ibp.toNat / 8 + cdiv8 len.toNat > s.inLen.toNat) :
    runLdcode x len s = .raised .trunc s.ibp s := by
  have hpos : 0 < len.toNat := Nat.pos_of_ne_zero fun h0 => hlen (BitVec.eq_of_toNat_eq h0)
  rw [runLdcode, if_neg (not_not_intro haligned), habsent, if_neg Bool.false_ne_true, if_pos ⟨hpos, h⟩]

theorem runLdcode_of_inside (h : len = 0 ∨ s.ibp.toNat / 8 + cdiv8 len.toNat ≤ s.inLen.toNat) :
    runLdcode x len s = .ok (setTree .invalid 0
      (advanceIbp (up8 len.toNat) (setCodes (setEntry s.codes x (loadedEntry len s)) s))) := by
  have hinside : ¬ (0 < len.toNat ∧ s.ibp.toNat / 8 + cdiv8 len.toNat > s.inLen.toNat) := by
    rintro ⟨hpos, hpast⟩
    rcases h with rfl | hle
    · exact Nat.lt_irrefl 0 hpos
    · exact Nat.not_lt.2 hle hpast
  rw [runLdcode, if_neg (not_not_intro haligned), habsent, if_neg Bool.false_ne_true, if_neg hinside]

end

/-- IBP inside its bound moves past the whole bytes of an entry without wrapping. -/
theorem ibp_add_up8_toNat (len : BitVec 8) {s : State} (hl : s.cfg.legal = true) (hp : pointersOk s) :
    (s.ibp + BitVec.ofNat 32 (up8 len.toNat)).toNat = s.ibp.toNat + up8 len.toNat := by
  have hsizes := legal_sizes hl
  obtain ⟨-, hibp, -⟩ := hp
  have hlen := len.isLt
  apply toNat_add_ofNat
  rw [up8, cdiv8]
  omega

/-- Settles O21: one case of the body of LDCODE for each check; an entry inside IN_LEN is loaded from the input bits and
the table keeps its others. -/
theorem ldcodeLoadsOneEntry : Obligations.LdcodeLoadsOneEntry := by
  unfold Obligations.LdcodeLoadsOneEntry
  refine ⟨decode_ldcode, illegalOutside_operands 0x05, fun x len s hl hp => ⟨fun ha => ?align, fun ha hd => ?dup,
    fun ha hd hlen hpast => ?trunc, fun ha hd hin => ?loaded⟩⟩
  case align => exact exec_of_raised (i := .ldcode x len) (runLdcode_of_unaligned ha)
  case dup => exact exec_of_raised (i := .ldcode x len) (runLdcode_of_present ha hd)
  case trunc => exact exec_of_raised (i := .ldcode x len) (runLdcode_of_truncated ha hd hlen hpast)
  case loaded =>
    obtain ⟨hok, hbits⟩ := loadedEntry_spec len s
    have hx : entryAt (setEntry s.codes x (loadedEntry len s)) x = loadedEntry len s := by
      rw [entryAt_setEntry, if_pos rfl]
    have hother : ∀ y, y ≠ x → entryAt (setEntry s.codes x (loadedEntry len s)) y = codeOf s y := fun y hy => by
      rw [entryAt_setEntry, if_neg hy, codeOf_eq]
    refine ⟨_, exec_of_ok (i := .ldcode x len) (runLdcode_of_inside ha hd hin), rfl, ibp_add_up8_toNat len hl hp,
      hother, ?entry⟩
    rw [codeOf_eq, setTree_codes, advanceIbp_codes, setCodes_codes, hx]
    exact ⟨rfl, rfl, hok, hbits⟩

end Sys2Proof.Machine
end

section
/-! PROOFS. The bit packer commands PUTB, PUTCODE and FLUSH (43_bit_packer.md R180, R184, R187). -/

namespace Sys2Proof.Machine

open Sys2Proof.Claims Sys2Proof.Laws

/-! ## Words of the commands with operand A (30_encoding.md R92, R93) -/

/-- The word of a command with operand A alone, its two high bytes written as one field. -/
theorem append_eq_commandWord (op a : BitVec 8) : 0#16 ++ a ++ op = commandWord op a 0 := by
  have hhigh : 0#16 = 0#8 ++ 0#8 := by decide
  rw [hhigh, commandWord]
  rfl

theorem decode_putb (b : Byte) : decode (0#16 ++ b ++ 0x07#8) = .ok (.putb b) := by
  rw [append_eq_commandWord]
  simp [decode, decodeWithA]

theorem decode_putcode (x : Symbol) : decode (0#16 ++ x ++ 0x08#8) = .ok (.putcode x) := by
  rw [append_eq_commandWord]
  simp [decode, decodeWithA]

/-- A word with RSV = B = 0 has no bit outside OP and A. -/
theorem commandWord_and_highBytes (op a : BitVec 8) : commandWord op a 0 &&& ~~~(0x0000FF00 ||| 0xFF#32) = 0 := by
  have hmask : ~~~((0x0000FF00 : Word) ||| 0xFF#32) = 0xFF#8 ++ 0xFF#8 ++ 0x00#8 ++ 0x00#8 := by decide
  rw [hmask, commandWord, BitVec.and_append, BitVec.and_append, BitVec.and_append, BitVec.and_zero, BitVec.and_zero]
  rfl

/-- A bit outside OP and A lies in RSV or in B; only LDCODE may have a nonzero B. -/
theorem illegalOutside_operandA {op : BitVec 8} (hldcode : op.toNat ≠ 0x05) : illegalOutside op 0x0000FF00 := by
  rintro w rfl hbits
  rw [decode_error_iff]
  by_contra hlegal
  obtain ⟨hr, hb⟩ : fieldRSV w = 0 ∧ fieldB w = 0 := by tauto
  have hw : w = commandWord (fieldOP w) (fieldA w) 0 :=
    word_eq_of_fields (by simp) (by simp) (by simp [hb]) (by simp [hr])
  rw [hw, commandWord_and_highBytes] at hbits
  exact hbits rfl

/-! ## PUTB (R180): its checks in order -/

section
variable {b : Byte} {s : State}

theorem runPutb_of_unaligned (h : s.obp.toNat % 8 ≠ 0) : runPutb b s = .raised .align s.obp s := by
  rw [runPutb, if_pos h]

variable (haligned : s.obp.toNat % 8 = 0)
include haligned

theorem runPutb_of_full (h : s.obp.toNat / 8 ≥ s.cfg.outSize) : runPutb b s = .raised .outovf s.obp s := by
  rw [runPutb, if_neg (not_not_intro haligned), if_pos h]

theorem runPutb_of_room (h : s.obp.toNat / 8 < s.cfg.outSize) :
    runPutb b s = .ok (advanceObp 8 (writeOut (s.obp.toNat / 8) b s)) := by
  rw [runPutb, if_neg (not_not_intro haligned), if_neg (Nat.not_le.2 h)]

end

/-- OBP inside OUT moves past one byte without wrapping. -/
theorem obp_add_byte_toNat {s : State} (hl : s.cfg.legal = true) (h : s.obp.toNat / 8 < s.cfg.outSize) :
    (s.obp + BitVec.ofNat 32 8).toNat = s.obp.toNat + 8 := by
  have hsizes := legal_sizes hl
  exact toNat_add_ofNat (by omega)

/-- Settles O24: one case of the body of PUTB for each check; a byte inside OUT is written at OBP alone. -/
theorem putbAppendsOneByte : Obligations.PutbAppendsOneByte := by
  unfold Obligations.PutbAppendsOneByte
  refine ⟨decode_putb, illegalOutside_operandA (by decide), fun b s hl => ⟨fun ha => ?align, fun ha hfull => ?outovf,
    fun ha hroom => ?written⟩⟩
  case align => exact exec_of_raised (i := .putb b) (runPutb_of_unaligned ha)
  case outovf => exact exec_of_raised (i := .putb b) (runPutb_of_full ha hfull)
  case written =>
    exact ⟨_, exec_of_ok (i := .putb b) (runPutb_of_room ha hroom), rfl, obp_add_byte_toNat hl hroom,
      (outByte_writeOut s _ _ b).trans (if_pos rfl), fun a hne => (outByte_writeOut s _ a b).trans (if_neg hne)⟩

/-! ## PUTCODE (R184): its checks in order -/

/-- The room a code asks for (20_memory.md R73), in terms of its entry. -/
theorem fits_cl_iff (s : State) (x : Symbol) : fits s (codeOf s x).cl.toNat = true ↔
    (codeOf s x).cl = 0 ∨ (s.obp.toNat + (codeOf s x).cl.toNat - 1) / 8 < s.cfg.outSize := by
  rw [fits, decide_eq_true_iff, ← BitVec.toNat_inj]
  rfl

section
variable {x : Symbol} {s : State}

theorem runPutcode_of_absent (h : (codeOf s x).present = false) :
    runPutcode x s = .raised .nocode (symbolInfo x) s := by
  rw [runPutcode, if_pos h]

variable (hpresent : (codeOf s x).present = true)
include hpresent

theorem runPutcode_of_overflow (h : ¬ fits s (codeOf s x).cl.toNat = true) :
    runPutcode x s = .raised .outovf s.obp s := by
  rw [runPutcode, if_neg (by simp [hpresent]), if_pos (Bool.eq_false_of_not_eq_true h)]

theorem runPutcode_of_fits (h : fits s (codeOf s x).cl.toNat = true) : runPutcode x s = .ok (appendCode x s) := by
  rw [runPutcode, if_neg (by simp [hpresent]), if_neg (by simp [h])]

end

theorem codeBits_length (e : CodeEntry) : (codeBits e).length = e.cl.toNat := bitsOf_length e.cw e.cl.toNat

/-- The first bit of a code is the most significant of its CL bits of CW (10_state.md R31). -/
theorem codeBits_getD (e : CodeEntry) {i : Nat} (h : i < (codeBits e).length) :
    (codeBits e).getD i false = e.cw.getLsbD ((codeBits e).length - 1 - i) := by
  rw [codeBits_length] at h ⊢
  exact bitsOf_getD h

/-- OBP moves past a code that fits without wrapping. -/
theorem obp_add_codeBits_lt {s : State} {x : Symbol} (hl : s.cfg.legal = true)
    (hf : fits s (codeOf s x).cl.toNat = true) : s.obp.toNat + (codeBits (codeOf s x)).length < 2 ^ 32 := by
  have hsizes := legal_sizes hl
  have hobp := s.obp.isLt
  rw [fits, decide_eq_true_iff] at hf
  rw [codeBits_length]
  omega

/-- `AppendCode` changes OBP and OUT alone. -/
theorem appendCode_eq (x : Symbol) (s : State) :
    appendCode x s = { s with obp := (appendCode x s).obp, outBuf := (appendCode x s).outBuf } := by
  rw [appendCode, appendBits_obp]
  exact appendBits_eq _ s

/-- Settles O25: one case of the body of PUTCODE for each check; a code that fits is appended whole. -/
theorem putcodeAppendsTheCode : Obligations.PutcodeAppendsTheCode := by
  unfold Obligations.PutcodeAppendsTheCode
  refine ⟨decode_putcode, illegalOutside_operandA (by decide), fun x s hl => ⟨fun ha => ?nocode,
    fun hp hlen hpast => ?outovf, fun hp hroom => ?appended⟩⟩
  case nocode => exact exec_of_raised (i := .putcode x) (runPutcode_of_absent ha)
  case outovf =>
    have hover : ¬ fits s (codeOf s x).cl.toNat = true := fun hf =>
      ((fits_cl_iff s x).1 hf).elim hlen (Nat.not_lt.2 hpast)
    exact exec_of_raised (i := .putcode x) (runPutcode_of_overflow hp hover)
  case appended =>
    have hf := (fits_cl_iff s x).2 hroom
    have hlt := obp_add_codeBits_lt hl hf
    have hobp : (appendCode x s).obp.toNat = s.obp.toNat + (codeOf s x).cl.toNat := by
      rw [appendCode, appendBits_obp_toNat hlt, codeBits_length]
    exact ⟨_, codeBits (codeOf s x), exec_of_ok (i := .putcode x) (runPutcode_of_fits hp hf),
      congrArg complete (appendCode_eq x s), hobp, codeBits_length _, fun _ => codeBits_getD _,
      appended_appendBits hlt⟩

/-! ## FLUSH (R187) -/

theorem up8_of_aligned {n : Nat} (h : n % 8 = 0) : up8 n = n := by
  rw [up8_eq]
  omega

/-- A bit pointer within the bound of its buffer is rounded up without wrapping. -/
theorem ofNat_up8_toNat {n size : Nat} (hsize : size ≤ 65536) (h : n ≤ 8 * size) :
    (BitVec.ofNat 32 (up8 n)).toNat = up8 n := by
  have hle := up8_le h
  rw [BitVec.toNat_ofNat, Nat.mod_eq_of_lt (by omega)]

/-- Settles O26: the body of FLUSH rounds OBP up, which its bound, a multiple of 8, allows. -/
theorem flushRoundsObpUp : Obligations.FlushRoundsObpUp := by
  unfold Obligations.FlushRoundsObpUp
  refine ⟨by decide, illegalOutside_of_bare (by decide) (by decide) (by decide), fun s hl hbound => ?_⟩
  obtain ⟨-, -, -, -, hout, -⟩ := legal_sizes hl
  have hround := ofNat_up8_toNat hout hbound
  refine ⟨_, exec_of_ok (i := .flush) rfl, rfl, hround, hround.trans_le (up8_le hbound), fun ha => ?aligned⟩
  case aligned => exact BitVec.eq_of_toNat_eq (hround.trans (up8_of_aligned ha))

end Sys2Proof.Machine
end

section
/-! PROOFS. The bit unpacker commands GETB and ALIGN (44_bit_unpacker.md R200, R205). -/

namespace Sys2Proof.Machine

open Sys2Proof.Claims Sys2Proof.Laws

/-! ## GETB (R200): its checks in order -/

section
variable {s : State}

theorem runGetb_of_unaligned (h : s.ibp.toNat % 8 ≠ 0) : runGetb s = .raised .align s.ibp s := by
  rw [runGetb, if_pos h]

variable (haligned : s.ibp.toNat % 8 = 0)
include haligned

theorem runGetb_of_truncated (h : s.ibp.toNat / 8 ≥ s.inLen.toNat) : runGetb s = .raised .trunc s.ibp s := by
  rw [runGetb, if_neg (not_not_intro haligned), if_pos h]

theorem runGetb_of_inside (h : s.ibp.toNat / 8 < s.inLen.toNat) :
    runGetb s = .ok (advanceIbp 8 { s with res := inByte s (s.ibp.toNat / 8) }) := by
  rw [runGetb, if_neg (not_not_intro haligned), if_neg (Nat.not_le.2 h)]

end

/-- IBP inside its bound moves past one byte without wrapping. -/
theorem ibp_add_byte_toNat {s : State} (hl : s.cfg.legal = true) (hp : pointersOk s) :
    (s.ibp + BitVec.ofNat 32 8).toNat = s.ibp.toNat + 8 := by
  have hsizes := legal_sizes hl
  obtain ⟨-, hibp, -⟩ := hp
  exact toNat_add_ofNat (by omega)

/-- Settles O30: one case of the body of GETB for each check; a byte inside IN_LEN goes to RES. -/
theorem getbReadsOneByte : Obligations.GetbReadsOneByte := by
  unfold Obligations.GetbReadsOneByte
  refine ⟨by decide, illegalOutside_of_bare (by decide) (by decide) (by decide), fun s hl hp => ⟨fun ha => ?align,
    fun ha hpast => ?trunc, fun ha hin => ?read⟩⟩
  case align => exact exec_of_raised (i := .getb) (runGetb_of_unaligned ha)
  case trunc => exact exec_of_raised (i := .getb) (runGetb_of_truncated ha hpast)
  case read => exact ⟨_, exec_of_ok (i := .getb) (runGetb_of_inside ha hin), rfl, ibp_add_byte_toNat hl hp⟩

/-! ## ALIGN (R205) -/

/-- Settles O31: the body of ALIGN rounds IBP up, which its bound, a multiple of 8, allows; it has no check that
IN_LEN could fail. -/
theorem alignRoundsIbpUp : Obligations.AlignRoundsIbpUp := by
  unfold Obligations.AlignRoundsIbpUp
  refine ⟨by decide, illegalOutside_of_bare (by decide) (by decide) (by decide), fun s hl hbound => ?_⟩
  obtain ⟨-, hin, -⟩ := legal_sizes hl
  have hround := ofNat_up8_toNat hin hbound
  refine ⟨_, exec_of_ok (i := .align) rfl, rfl, hround, hround.trans_le (up8_le hbound), fun ha => ?aligned⟩
  case aligned => exact BitVec.eq_of_toNat_eq (hround.trans (up8_of_aligned ha))

end Sys2Proof.Machine
end

section
/-! PROOFS. The start of a command, the error record and the interrupt (60_exceptions.md R227, R230, R240): what one
step of an idle block can do to BUSY and to the record, and the level of IRQ after each event of its life cycle. -/

namespace Sys2Proof.Machine

open Sys2Proof.Claims

/-! ## Which accesses are performed at CMD and at CTRL (20_memory.md R60, R61) -/

theorem addr_of_windowOffset {c : Params} {addr off : Nat} (h : windowOffset c addr = some off) :
    addr = c.base + off := by
  unfold windowOffset at h
  split at h
  · cases h
    omega
  · cases h

/-- A performed access is 32 bits wide and acts at the location of its offset. -/
theorem performedAt_some {c : Params} {off bits : Nat} {l : Location} (h : performedAt c off bits = some l) :
    bits = 32 ∧ locationAt c off = some l := by
  unfold performedAt at h
  split at h
  · next hwidth => exact ⟨hwidth.1, h⟩
  · cases h

/-! ## BUSY and the error record -/

/-- BUSY, ERR, ERRCODE and ERRINFO are the same in both states. -/
def SameBusyAndRecord (s t : State) : Prop :=
  t.busy = s.busy ∧ t.err = s.err ∧ t.errcode = s.errcode ∧ t.errinfo = s.errinfo

theorem SameBusyAndRecord.refl (s : State) : SameBusyAndRecord s s := ⟨rfl, rfl, rfl, rfl⟩

/-- Only CMD, and CTRL with SRST = 1, are locations whose write moves BUSY or the error record. -/
theorem writeLocation_record (l : Location) (v : Word) (s : State) :
    SameBusyAndRecord s (writeLocation l v s) ∨ l = .reg .cmd ∨ l = .reg .ctrl ∧ v.getLsbD 0 = true := by
  cases l with
  | freq x => exact .inl (.refl s)
  | inWord i => exact .inl (.refl s)
  | outWord i => exact .inl (.refl s)
  | reg r =>
    cases r
    case cmd => exact .inr (.inl rfl)
    case ctrl =>
      cases hv : v.getLsbD 0 with
      | true => exact .inr (.inr ⟨rfl, rfl⟩)
      | false =>
        refine .inl ?_
        rw [writeLocation, writeReg, writeCtrl_of_srst_eq_false s hv]
        exact .refl s
    all_goals exact .inl (.refl s)

/-- The host actions that touch BUSY or the error record of an idle block, and what each leaves in the state `t` after
it: BUSY = 0 for a hard reset and for a CTRL write with SRST = 1, the word in the latch for a CMD write. -/
inductive BusyOrRecordEvent (c : Params) (t : State) : HostAction → Prop
  | hardReset (hbusy : t.busy = false) : BusyOrRecordEvent c t .hardReset
  | cmdWrite (v : Word) (hlatch : t.cmdw = v) : BusyOrRecordEvent c t (.write (c.base + 0x00C) 32 v)
  | softReset (v : Word) (hsrst : v.getLsbD 0 = true) (hbusy : t.busy = false) :
      BusyOrRecordEvent c t (.write (c.base + 0x004) 32 v)

theorem BusyOrRecordEvent.tick {c : Params} {t : State} {a : HostAction} (h : BusyOrRecordEvent c t a) :
    BusyOrRecordEvent c (tick t) a := by
  cases h with
  | hardReset hbusy => exact .hardReset hbusy
  | cmdWrite v hlatch => exact .cmdWrite v hlatch
  | softReset v hsrst hbusy => exact .softReset v hsrst hbusy

theorem busWrite_record (addr bits : Nat) (v : Word) {s : State} (hb : s.busy = false) :
    SameBusyAndRecord s (busWrite addr bits v s)
      ∨ BusyOrRecordEvent s.cfg (busWrite addr bits v s) (.write addr bits v) := by
  rcases busWrite_cases addr bits v s with ⟨-, heq⟩ | ⟨off, -, -, heq⟩ | ⟨off, l, hwin, hperf, heq⟩
  · rw [heq]
    exact .inl (.refl s)
  · rw [heq]
    exact .inl (.refl s)
  · rw [heq, hostWrite_of_idle l v hb]
    obtain ⟨rfl, hloc⟩ := performedAt_some hperf
    obtain rfl := addr_of_windowOffset hwin
    rcases writeLocation_record l v s with hsame | rfl | ⟨rfl, hsrst⟩
    · exact .inl hsame
    · obtain rfl := locationAt_eq_cmd.1 hloc
      exact .inr (.cmdWrite v rfl)
    · obtain rfl := locationAt_eq_ctrl.1 hloc
      rw [writeLocation, writeReg, writeCtrl_of_srst_eq_true s hsrst]
      exact .inr (.softReset v hsrst rfl)

theorem hostAct_record (a : HostAction) {s : State} (hb : s.busy = false) :
    SameBusyAndRecord s (hostAct a s) ∨ BusyOrRecordEvent s.cfg (hostAct a s) a := by
  cases a with
  | read addr bits =>
    rw [hostAct, busRead_eq]
    exact .inl (.refl s)
  | write addr bits v => exact busWrite_record addr bits v hb
  | hardReset => exact .inr (.hardReset rfl)

/-- A step of an idle block leaves BUSY and the error record, or it is one of the three host actions that do not. -/
theorem step_of_idle_record {s t : State} (hb : s.busy = false) (h : step s = .next t) :
    SameBusyAndRecord s t ∨ ∃ waits a rest, s.pending = ⟨waits, a⟩ :: rest ∧ BusyOrRecordEvent s.cfg t a := by
  obtain ⟨-, ⟨hturn, -⟩ | ⟨a, rest, hturn, rfl⟩ | ⟨-, rfl⟩⟩ := step_cases h
  · rw [(nextTurn_engine.1 hturn).1] at hb
    cases hb
  · obtain ⟨waits, hpend, -⟩ := nextTurn_host.1 hturn
    rcases hostAct_record a (s := { s with pending := rest }) hb with hsame | hevent
    · exact .inl hsame
    · exact .inr ⟨waits, a, rest, hpend, hevent.tick⟩
  · exact .inl (.refl t)

/-- Settles O7: with nothing pending the turn is the idle one; of the three actions that touch BUSY only the CMD write
leaves it 1. -/
theorem onlyACmdWriteStartsACommand : Obligations.OnlyACmdWriteStartsACommand := by
  unfold Obligations.OnlyACmdWriteStartsACommand
  refine ⟨fun s hl hb hpend => step_idle hl (nextTurn_idle.2 ⟨hb, hpend⟩), fun s t hb hstep hbusy => ?start⟩
  case start =>
    rcases step_of_idle_record hb hstep with ⟨hkept, -⟩ | ⟨waits, a, rest, hpend, hevent⟩
    · simp [hkept, hb] at hbusy
    · cases hevent with
      | hardReset hidle => simp [hidle] at hbusy
      | cmdWrite v hlatch => exact ⟨waits, v, rest, hpend, hlatch⟩
      | softReset v _ hidle => simp [hidle] at hbusy

/-! ## STATUS.DONE and IRQ -/

@[simp] theorem hostWrite_status (v : Word) (s : State) : hostWrite (.reg .status) v s = writeStatus v s :=
  hostWrite_of_not_droppedWhileBusy v s rfl

/-- A 1 written to bit 1 clears DONE (10_state.md R26). -/
theorem writeStatus_done_of_clear {v : Word} (s : State) (h : v.getLsbD 1 = true) : (writeStatus v s).done = false := by
  simp [writeStatus, h]

theorem irq_of_done_eq_false {s : State} (h : s.done = false) : irq s = false := by
  rw [irq, h, Bool.and_false]

theorem irq_of_ie_eq_false {s : State} (h : s.ie = false) : irq s = false := by
  rw [irq, h, Bool.false_and]

/-- Settles O36: the three actions that touch the record are the ones the statement allows; a write of STATUS has DONE
and HAZ alone to write. -/
theorem errorRecordStaysUntilAcceptanceOrReset : Obligations.ErrorRecordStaysUntilAcceptanceOrReset := by
  unfold Obligations.ErrorRecordStaysUntilAcceptanceOrReset
  refine ⟨fun s t hb hstep => ?stays, fun s v hv => ?clearDone⟩
  case stays =>
    rcases step_of_idle_record hb hstep with ⟨-, hrecord⟩ | ⟨waits, a, rest, hpend, hevent⟩
    · exact .inl hrecord
    · refine .inr ⟨waits, a, rest, hpend, ?_⟩
      cases hevent with
      | hardReset _ => exact .inl rfl
      | cmdWrite v _ => exact .inr (.inl ⟨v, rfl⟩)
      | softReset v hsrst _ => exact .inr (.inr ⟨v, rfl, hsrst⟩)
  case clearDone =>
    have hdone := writeStatus_done_of_clear s hv
    exact ⟨_, hostWrite_status v s, hdone, irq_of_done_eq_false hdone, rfl, rfl, rfl⟩

/-- No command writes CTRL.IE. -/
@[simp] theorem finish_runOf_ie (i : Instr) (s : State) : (finish (runOf i s)).ie = s.ie := by
  obtain ⟨_, _, _, _, _, _, _, _, _, hframe⟩ := runOf_frame i s
  rw [finish_eq, hframe]

/-- The engine's step completes: DONE is 1, also with IE = 0, and IRQ is IE (60_exceptions.md R230). -/
theorem irq_of_completion {s t : State} (hl : s.cfg.legal = true) (hn : engineNext s) (h : step s = .next t) :
    irq t = s.ie ∧ t.done = true := by
  have hends : t.ie = s.ie ∧ t.done = true := by
    cases hd : decode s.cmdw with
    | error r =>
      rw [step_of_illegal hl hn hd] at h
      cases h
      exact ⟨rfl, rfl⟩
    | ok i =>
      rw [step_of_command hl hn hd] at h
      cases h
      exact ⟨finish_runOf_ie i s, finish_done _⟩
  obtain ⟨hie, hdone⟩ := hends
  exact ⟨by rw [irq, hie, hdone, Bool.and_true], hdone⟩

/-- Settles O38: IRQ rises by a completion or by IE, and falls with DONE or with IE. -/
theorem irqFollowsEnableAndDone : Obligations.IrqFollowsEnableAndDone := by
  unfold Obligations.IrqFollowsEnableAndDone
  refine ⟨fun s => ?level, fun s t => irq_of_completion, fun s v hb => ?accept, fun s v hv => ?clear,
    fun s v hv => ?enable, fun s v hv => ?softReset, fun s => irq_of_ie_eq_false rfl⟩
  case level => rw [irq, Bool.and_eq_true]
  case accept =>
    rw [hostWrite_of_idle _ v hb, writeLocation, writeReg]
    exact irq_of_done_eq_false (accept_done v s)
  case clear =>
    rw [hostWrite_status]
    exact irq_of_done_eq_false (writeStatus_done_of_clear s hv)
  case enable => rw [hostWrite_ctrl, writeCtrl_of_srst_eq_false s hv, irq]
  case softReset =>
    rw [hostWrite_ctrl, writeCtrl_of_srst_eq_true s hv]
    exact irq_of_ie_eq_false (softReset_ie s)

end Sys2Proof.Machine
end

section
/-! PROOFS. Commands out of order (70_reset_and_hazards.md R262): what BUILD and a successful LDCODE leave, and the check
of each later command that this fails. -/

namespace Sys2Proof.Machine

/-! ## ENCODE and DECODE at their first check -/

/-- ENCODE of at least one byte, the first of them inside IN_LEN and without a code, stops there (43_bit_packer.md
R190). -/
theorem runEncode_of_first_absent {s : State} (hcount : s.arg0 ≠ 0) (haligned : s.ibp.toNat % 8 = 0)
    (hinside : s.ibp.toNat / 8 < s.inLen.toNat)
    (habsent : (codeOf s (inByte s (s.ibp.toNat / 8))).present = false) :
    runEncode s = .raised .nocode (symbolInfo (inByte s (s.ibp.toNat / 8))) (clearCnt s) := by
  obtain ⟨n, hn⟩ : ∃ n, s.arg0.toNat = n + 1 :=
    Nat.exists_eq_succ_of_ne_zero fun h0 => hcount (BitVec.eq_of_toNat_eq h0)
  have hloop : (clearCnt s).ibp.toNat / 8 < (clearCnt s).inLen.toNat := hinside
  rw [runEncode, if_neg (not_not_intro haligned), hn, encodeLoop, if_neg (Nat.not_le.2 hloop)]
  exact if_pos habsent

/-- DECODE without a tree stops before its other checks (44_bit_unpacker.md R210). -/
theorem runDecode_of_invalid {s : State} (h : s.ts = .invalid) : runDecode s = .raised .seq 0 (clearCnt s) := by
  have hvalid : treeValid s = false := by rw [treeValid, h]
  rw [runDecode, hvalid, Bool.not_false, if_pos rfl]

/-! ## The states that BUILD and LDCODE leave -/

/-- BUILD clears the Code Table (41_tree_builder.md R130). -/
theorem absent_of_exec_build {s t : State} (h : exec .build s = .next t) (x : Symbol) :
    (codeOf t x).present = false := by
  rw [exec_eq, finish_build_eq] at h
  cases h
  rw [codeOf_eq, entryAt_emptyCodes]
  rfl

/-- LDCODE raises with nothing written, or loads the entry, moves IBP past it and makes the tree invalid
(42_code_table.md R165). -/
theorem runLdcode_cases (x : Symbol) (len : BitVec 8) (s : State) : (∃ e v, runLdcode x len s = .raised e v s)
    ∨ runLdcode x len s = .ok (setTree .invalid 0
        (advanceIbp (up8 len.toNat) (setCodes (setEntry s.codes x (loadedEntry len s)) s))) := by
  unfold runLdcode
  split
  · exact .inl ⟨_, _, rfl⟩
  · split
    · exact .inl ⟨_, _, rfl⟩
    · split
      · exact .inl ⟨_, _, rfl⟩
      · exact .inr rfl

/-- A LDCODE that ends without error leaves no tree and a code for its symbol. -/
theorem exec_ldcode_success {x : Symbol} {len : BitVec 8} {s t : State} (h : exec (.ldcode x len) s = .next t)
    (herr : t.err = false) : t.ts = .invalid ∧ (codeOf t x).present = true := by
  rcases runLdcode_cases x len s with ⟨e, v, hraised⟩ | hloaded
  · rw [exec_of_raised (i := .ldcode x len) hraised] at h
    cases h
    cases herr
  · rw [exec_of_ok (i := .ldcode x len) hloaded] at h
    cases h
    refine ⟨rfl, ?_⟩
    rw [codeOf_eq, setTree_codes, advanceIbp_codes, setCodes_codes, entryAt_setEntry, if_pos rfl, loadedEntry]

/-- Settles O37: the table that BUILD leaves has no code for any symbol; the state a successful LDCODE leaves has no
tree and a code for its symbol. -/
theorem commandsOutOfOrderRaise : Obligations.CommandsOutOfOrderRaise := by
  unfold Obligations.CommandsOutOfOrderRaise
  refine ⟨fun s t hbuild => ⟨fun x => ?putcode, fun hcount haligned hinside => ?encode⟩, fun x len s t _ hload herr => ?_⟩
  case putcode => exact exec_of_raised (i := .putcode x) (runPutcode_of_absent (absent_of_exec_build hbuild x))
  case encode =>
    exact exec_of_raised (i := .encode)
      (runEncode_of_first_absent hcount haligned hinside (absent_of_exec_build hbuild _))
  obtain ⟨hts, hpresent⟩ := exec_ldcode_success hload herr
  refine ⟨?decode, ?derive, fun haligned l => ?reload⟩
  case decode => exact exec_of_raised (i := .decode) (runDecode_of_invalid hts)
  case derive => exact exec_of_raised (i := .derive) (runDerive_of_invalid hts)
  case reload => exact exec_of_raised (i := .ldcode x l) (runLdcode_of_present haligned hpresent)

end Sys2Proof.Machine
end

section
/-! PROOFS. Host accesses while BUSY = 1 (70_reset_and_hazards.md R260, R261). -/

namespace Sys2Proof.Machine

open Sys2Proof.Claims

/-! ## Writes (R260) -/

/-- A write of an RO register is dropped like one of an RW register (log 9). -/
theorem droppedWhileBusy_of_readOnly {r : Reg} (h : readOnly r) : droppedWhileBusy (.reg r) = true := by
  cases r
  case ctrl => simp [readOnly] at h
  case status => simp [readOnly] at h
  all_goals rfl

/-- Settles O49: CTRL and STATUS are the two locations whose writes are performed; all others are dropped. -/
theorem writesWhileBusyAreDropped : Obligations.WritesWhileBusyAreDropped := by
  unfold Obligations.WritesWhileBusyAreDropped
  intro s v hb
  have hdropped : ∀ l, droppedWhileBusy l = true → hostWrite l v s = { s with haz := true } :=
    fun _ => hostWrite_of_busy v hb
  refine ⟨hdropped _ rfl, hdropped _ rfl, hdropped _ rfl, hdropped _ rfl, hdropped _ rfl, hdropped _ rfl,
    fun x => hdropped _ rfl, fun i => hdropped _ rfl, fun i => hdropped _ rfl, fun hv => ?enable, fun hv => ?softReset,
    ?status, fun r hro => hdropped _ (droppedWhileBusy_of_readOnly hro)⟩
  case enable => rw [hostWrite_ctrl, writeCtrl_of_srst_eq_false s hv]
  case softReset => rw [hostWrite_ctrl, writeCtrl_of_srst_eq_true s hv]
  case status => rw [hostWrite_status, writeStatus]

/-! ## Reads (R261) -/

/-- The registers that R261 does not name as defined at all times. -/
theorem readableWhileBusy_eq_false {r : Reg} (hid : r ≠ .id) (hctrl : r ≠ .ctrl) (hstatus : r ≠ .status)
    (hcmd : r ≠ .cmd) : readableWhileBusy r = false := by
  cases r
  case id => exact absurd rfl hid
  case ctrl => exact absurd rfl hctrl
  case status => exact absurd rfl hstatus
  case cmd => exact absurd rfl hcmd
  all_goals rfl

/-- Where R261 leaves a read open it gives the free value of this step. -/
theorem readValue_of_undefined {s : State} {l : Location} (h : readDefined s l = false) :
    readValue s l = Config.busyRead s.draws := by
  rw [readValue, h, if_neg Bool.false_ne_true]

/-- Settles O50: ID, CTRL, STATUS and CMD are the four locations whose reads BUSY leaves defined. -/
theorem readsWhileBusyAreFree : Obligations.ReadsWhileBusyAreFree := by
  unfold Obligations.ReadsWhileBusyAreFree
  intro s hb
  have hbusy : (!s.busy) = false := by rw [hb, Bool.not_true]
  refine ⟨readValue_of_readableWhileBusy s rfl, readValue_ctrl s, readValue_of_readableWhileBusy s rfl,
    readValue_of_readableWhileBusy s rfl, fun r hid hctrl hstatus hcmd => readValue_of_undefined ?register,
    fun x => readValue_of_undefined hbusy, fun i => readValue_of_undefined hbusy, fun i => readValue_of_undefined hbusy⟩
  case register => rw [readDefined, hbusy, readableWhileBusy_eq_false hid hctrl hstatus hcmd, Bool.or_false]

end Sys2Proof.Machine
end

section
/-! PROOFS. The hard reset and the soft reset (70_reset_and_hazards.md R250, R252, R253). -/

namespace Sys2Proof.Machine

/-! ## A buffer that lists no byte -/

theorem inByte_of_unwritten {s : State} (h : s.inBuf = []) (a : Nat) : inByte s a = Config.unwrittenIn s.draws a := by
  rw [inByte, h, Memory.read, Option.getD_none]

theorem outByte_of_unwritten {s : State} (h : s.outBuf = []) (a : Nat) :
    outByte s a = Config.unwrittenOut s.draws a := by
  rw [outByte, h, Memory.read, Option.getD_none]

/-! ## The hard reset (R250) -/

/-- What a hard reset keeps, the parameters and the model's own fields, is in no register. -/
theorem regValue_hardReset (s : State) (r : Reg) : regValue (hardReset s) r = regValue State.reset r := by
  cases r <;> rfl

/-- The registers that R250 lists, other than ID. -/
theorem regValue_reset_eq_zero : ∀ r ∈ [Reg.ctrl, .status, .arg0, .res, .cnt, .errinfo, .inLen, .ibp, .obp, .codeSel,
    .totalLo, .totalHi], regValue State.reset r = 0 := by
  decide

theorem freqOf_hardReset (s : State) (x : Symbol) : freqOf (hardReset s) x = 0 := by
  unfold freqOf
  exact Vector.getElem_replicate _

theorem codeOf_hardReset (s : State) (x : Symbol) : codeOf (hardReset s) x = CodeEntry.absent := entryAt_emptyCodes x

/-- The free values' index is no state of the block. -/
theorem tick_hardReset (s : State) : tick (hardReset s) = hardReset (tick s) := rfl

/-- Settles O51: the event lands as `hardReset`, whose state is idle, so a host read of it gives the value in the
state. -/
theorem hardResetValues : Obligations.HardResetValues := by
  unfold Obligations.HardResetValues
  intro s waits rest hl hpend hland
  have hread : ∀ u l, readValue (hardReset u) l = locationValue (hardReset u) l := fun u l => readValue_of_idle l rfl
  have hstep := step_event hl hpend hland
  rw [hostAct, tick_hardReset] at hstep
  refine ⟨_, hstep, rfl, rfl, hread _ _, fun r hr => ?register, rfl, rfl, rfl,
    fun x => (hread _ _).trans (freqOf_hardReset _ x), codeOf_hardReset _, inByte_of_unwritten rfl,
    outByte_of_unwritten rfl⟩
  case register => rw [hread, locationValue, regValue_hardReset, regValue_reset_eq_zero r hr]

/-! ## The soft reset (R252, R253) -/

theorem performedAt_ctrl (c : Params) : performedAt c 0x004 32 = some (.reg .ctrl) := by
  rw [performedAt, if_pos (by decide), locationAt_ctrl]

theorem softReset_outBuf_of_idle {s : State} (hb : s.busy = false) : (softReset s).outBuf = s.outBuf := by
  rw [softReset, hb, if_neg Bool.false_ne_true]

/-- An aborted command may have written any part of its output. -/
theorem softReset_outBuf_of_busy {s : State} (hb : s.busy = true) : (softReset s).outBuf = [] := by
  rw [softReset, hb, if_pos rfl]

/-- Settles O53: the access is performed at CTRL, whatever BUSY is, and there it is the soft reset. -/
theorem softResetPreservesTheBuffers : Obligations.SoftResetPreservesTheBuffers := by
  unfold Obligations.SoftResetPreservesTheBuffers
  intro s waits v rest hl hpend hland hv
  obtain ⟨-, hstep⟩ :=
    performedAccessesActAtTheirLocation s waits 0x004 (.reg .ctrl) v rest hl (performedAt_ctrl s.cfg)
  rw [hostWrite_ctrl, writeCtrl_of_srst_eq_true _ hv] at hstep
  refine ⟨_, hstep hpend hland, rfl, rfl, rfl, rfl, rfl, rfl, fun hb => ?idle, fun hb => ?busy⟩
  case idle => exact softReset_outBuf_of_idle (s := { s with pending := rest }) hb
  case busy => exact outByte_of_unwritten (softReset_outBuf_of_busy (s := { s with pending := rest }) hb)

end Sys2Proof.Machine
end

section
/-! PROOFS. The encoder and the decoder are inverse (30_encoding.md R90 to R92). -/

namespace Sys2Proof.Laws

/-- Settles O1: each of the 18 words is given to the decoder as it stands. -/
theorem specWordsDecodeToTheirCommands : Obligations.SpecWordsDecodeToTheirCommands := by
  unfold Obligations.SpecWordsDecodeToTheirCommands
  decide

/-! ## From the command to its word and back -/

/-- Every command's word meets the arm of its opcode, which reads the operands the encoder put there. -/
theorem decode_encode (i : Instr) : decode (encode i) = .ok i := by
  cases i <;> simp [encode, decode, decodeBare, decodeWithA]

/-! ## From a word to its command and back -/

theorem decodeBare_eq_ok {w : Word} {i j : Instr} (h : decodeBare w i = .ok j) :
    fieldA w = 0 ∧ fieldB w = 0 ∧ i = j := by
  unfold decodeBare at h
  split at h
  · cases h
  · next ha =>
    split at h
    · cases h
    · next hb => exact ⟨not_not.1 ha, not_not.1 hb, Except.ok.inj h⟩

theorem decodeWithA_eq_ok {w : Word} {i j : Instr} (h : decodeWithA w i = .ok j) : fieldB w = 0 ∧ i = j := by
  unfold decodeWithA at h
  split at h
  · cases h
  · next hb => exact ⟨not_not.1 hb, Except.ok.inj h⟩

section
variable {w : Word} {n : Nat} (hr : fieldRSV w = 0) (ho : (fieldOP w).toNat = n)
include hr ho

/-- A legal word is put together from its opcode number, A and B. -/
theorem commandWord_of_fields : commandWord (BitVec.ofNat 8 n) (fieldA w) (fieldB w) = w := by
  have hop : fieldOP w = BitVec.ofNat 8 n := by rw [← ho, BitVec.ofNat_toNat, BitVec.setWidth_eq]
  exact word_eq_of_fields (by simp [hop]) (by simp) (by simp) (by simp [hr])

/-- An arm without operands: the word holds the opcode alone. -/
theorem commandWord_of_decodeBare {i j : Instr} (h : decodeBare w j = .ok i) :
    j = i ∧ commandWord (BitVec.ofNat 8 n) 0 0 = w := by
  obtain ⟨ha, hb, hj⟩ := decodeBare_eq_ok h
  have hw := commandWord_of_fields hr ho
  rw [ha, hb] at hw
  exact ⟨hj, hw⟩

/-- An arm with operand A: the word holds the opcode and A. -/
theorem commandWord_of_decodeWithA {i j : Instr} (h : decodeWithA w j = .ok i) :
    j = i ∧ commandWord (BitVec.ofNat 8 n) (fieldA w) 0 = w := by
  obtain ⟨hb, hj⟩ := decodeWithA_eq_ok h
  have hw := commandWord_of_fields hr ho
  rw [hb] at hw
  exact ⟨hj, hw⟩

end

/-- Each arm of the decoder that answers a command has pinned all four fields of the word. -/
theorem encode_of_decode {w : Word} {i : Instr} (h : decode w = .ok i) : encode i = w := by
  unfold decode at h
  split at h
  · cases h
  next hr =>
  have hr : fieldRSV w = 0 := not_not.1 hr
  split at h
  case h_6 ho =>
    cases h
    exact commandWord_of_fields hr ho
  case h_8 ho =>
    obtain ⟨rfl, hw⟩ := commandWord_of_decodeWithA hr ho h
    exact hw
  case h_9 ho =>
    obtain ⟨rfl, hw⟩ := commandWord_of_decodeWithA hr ho h
    exact hw
  case h_15 => cases h
  all_goals
    next ho =>
    obtain ⟨rfl, hw⟩ := commandWord_of_decodeBare hr ho h
    exact hw

/-- Settles O2: the word of a command meets the command's own arm, and an arm that answers a command has pinned the
whole word. -/
theorem decodeInvertsEncode : Obligations.DecodeInvertsEncode := by
  unfold Obligations.DecodeInvertsEncode
  exact ⟨decode_encode, fun w i => encode_of_decode⟩

end Sys2Proof.Laws
end

section
/-! PROOFS. The step as a whole (00_scope.md R6, 40_control.md R110, R112): it is total on legal parameters, it keeps
them, it runs the latched command, and it ends every accepted command. -/

namespace Sys2Proof.Machine

open Sys2Proof.Claims

/-! ## What every turn keeps -/

@[simp] theorem finish_runOf_cfg (i : Instr) (s : State) : (finish (runOf i s)).cfg = s.cfg := by
  obtain ⟨_, _, _, _, _, _, _, _, _, hframe⟩ := runOf_frame i s
  rw [finish_eq, hframe]

@[simp] theorem runIllegal_cfg (s : State) : (runIllegal s).cfg = s.cfg := rfl

@[simp] theorem writeCtrl_cfg (v : Word) (s : State) : (writeCtrl v s).cfg = s.cfg := by
  unfold writeCtrl
  split <;> rfl

@[simp] theorem writeCtrl_pending (v : Word) (s : State) : (writeCtrl v s).pending = s.pending := by
  unfold writeCtrl
  split <;> rfl

/-- No write of a location moves the parameters or the host's coming actions. -/
theorem writeLocation_cfg_pending (l : Location) (v : Word) (s : State) :
    (writeLocation l v s).cfg = s.cfg ∧ (writeLocation l v s).pending = s.pending := by
  cases l with
  | freq x => exact ⟨rfl, rfl⟩
  | inWord i => exact ⟨rfl, rfl⟩
  | outWord i => exact ⟨rfl, rfl⟩
  | reg r =>
    cases r
    case ctrl => exact ⟨writeCtrl_cfg v s, writeCtrl_pending v s⟩
    all_goals exact ⟨rfl, rfl⟩

theorem hostWrite_cfg_pending (l : Location) (v : Word) (s : State) :
    (hostWrite l v s).cfg = s.cfg ∧ (hostWrite l v s).pending = s.pending := by
  unfold hostWrite
  split
  · exact ⟨rfl, rfl⟩
  · exact writeLocation_cfg_pending l v s

/-- No host action moves the parameters or the host's later actions. -/
theorem hostAct_cfg_pending (a : HostAction) (s : State) :
    (hostAct a s).cfg = s.cfg ∧ (hostAct a s).pending = s.pending := by
  cases a with
  | hardReset => exact ⟨rfl, rfl⟩
  | read addr bits =>
    rw [hostAct, busRead_eq]
    exact ⟨rfl, rfl⟩
  | write addr bits v =>
    rw [hostAct]
    rcases busWrite_cases addr bits v s with ⟨-, heq⟩ | ⟨off, -, -, heq⟩ | ⟨off, l, -, -, heq⟩
    · rw [heq]
      exact ⟨rfl, rfl⟩
    · rw [heq]
      exact ⟨rfl, rfl⟩
    · rw [heq]
      exact hostWrite_cfg_pending l v s

/-- The engine's turn answers a state with BUSY = 0 and the same parameters. -/
theorem engineTurn_next (s : State) : ∃ t, engineTurn s = .next t ∧ t.busy = false ∧ t.cfg = s.cfg := by
  refine ⟨_, engineTurn_eq s, ?_⟩
  cases decode (fetch s) with
  | error r => exact ⟨rfl, rfl⟩
  | ok i => exact ⟨finish_busy _, finish_runOf_cfg i s⟩

/-! ## Totality (00_scope.md R6, 93_implementation_defined.md U7) -/

theorem legalSize_iff (n : Nat) : legalSize n = true ↔ n % 4 = 0 ∧ 4 ≤ n ∧ n ≤ 65536 := by
  rw [legalSize, decide_eq_true_iff]

theorem legal_iff (c : Params) : c.legal = true ↔ c.base % 0x40000 = 0
    ∧ (c.inSize % 4 = 0 ∧ 4 ≤ c.inSize ∧ c.inSize ≤ 65536)
    ∧ (c.outSize % 4 = 0 ∧ 4 ≤ c.outSize ∧ c.outSize ≤ 65536) := by
  rw [Params.legal, Bool.and_eq_true, Bool.and_eq_true, decide_eq_true_iff, legalSize_iff, legalSize_iff, and_assoc]

/-- Whoever has the turn, it ends in a next state. -/
theorem step_total {s : State} (hl : s.cfg.legal = true) : ∃ t, step s = .next t := by
  cases hturn : nextTurn s with
  | engine =>
    obtain ⟨t, ht, -⟩ := engineTurn_next s
    exact ⟨t, (step_engine hl hturn).trans ht⟩
  | host a rest => exact ⟨_, step_host hl hturn⟩
  | idle => exact ⟨s, step_idle hl hturn⟩

theorem step_illegal_parameters {s : State} (hl : s.cfg.legal = false) : step s = .refused .illegalParameters := by
  rw [step, hl, if_neg Bool.false_ne_true]

theorem step_cfg {s t : State} (h : step s = .next t) : t.cfg = s.cfg := by
  obtain ⟨-, ⟨-, hengine⟩ | ⟨a, rest, -, rfl⟩ | ⟨-, rfl⟩⟩ := step_cases h
  · obtain ⟨u, hu, -, hcfg⟩ := engineTurn_next s
    rw [hu] at hengine
    cases hengine
    exact hcfg
  · exact (hostAct_cfg_pending a _).1
  · rfl

/-- Settles O8: R6's parameters are those `legal` tests, each of the three turns answers a next state, and none writes
the parameters. -/
theorem stepIsTotalOnLegalParameters : Obligations.StepIsTotalOnLegalParameters := by
  unfold Obligations.StepIsTotalOnLegalParameters
  exact ⟨legal_iff, fun _ => step_total, fun _ => step_illegal_parameters, fun _ _ => step_cfg⟩

/-! ## The engine's turn (40_control.md R112) -/

/-- Settles O4: a latched command's step is its exec, with the index of free values moved on. -/
theorem stepRunsTheAcceptedCommand : Obligations.StepRunsTheAcceptedCommand := by
  unfold Obligations.StepRunsTheAcceptedCommand
  intro s t i hl hn hd ht
  rw [exec_eq] at ht
  cases ht
  rw [step_of_command hl hn hd, tick]

/-! ## Every accepted command ends (R110, R265) -/

/-- A step of a running block ends the command, or it performs a host action that leaves it running. -/
theorem step_of_busy {s : State} (hl : s.cfg.legal = true) (hb : s.busy = true) :
    ∃ t, step s = .next t ∧ t.cfg.legal = true
      ∧ (t.busy = false ∨ t.busy = true ∧ t.pending.length + 1 = s.pending.length) := by
  obtain ⟨t, hstep⟩ := step_total hl
  refine ⟨t, hstep, (step_cfg hstep).symm ▸ hl, ?_⟩
  obtain ⟨-, ⟨-, hengine⟩ | ⟨a, rest, hturn, rfl⟩ | ⟨hidle, -⟩⟩ := step_cases hstep
  · obtain ⟨u, hu, hbusy, -⟩ := engineTurn_next s
    rw [hu] at hengine
    cases hengine
    exact .inl hbusy
  · obtain ⟨w, hpend, -⟩ := nextTurn_host.1 hturn
    have hrest : (tick (hostTurn a rest s)).pending = rest := (hostAct_cfg_pending a { s with pending := rest }).2
    cases hbusy : (tick (hostTurn a rest s)).busy with
    | false => exact .inl rfl
    | true => exact .inr ⟨rfl, by rw [hrest, hpend, List.length_cons]⟩
  · rw [(nextTurn_idle.1 hidle).1] at hb
    cases hb

/-- By induction on the actions the host has left: each step ends the command or uses one up. -/
theorem run_ends (n : Nat) {s : State} (hl : s.cfg.legal = true) (hb : s.busy = true) (hn : s.pending.length = n) :
    ∃ k t, k ≤ n + 1 ∧ Host.Core.run core k s = .next t ∧ t.busy = false := by
  induction n generalizing s with
  | zero =>
    obtain ⟨t, hstep, -, hends | ⟨-, hlen⟩⟩ := step_of_busy hl hb
    · exact ⟨1, t, le_refl _, run_succ core 0 hstep, hends⟩
    · omega
  | succ n ih =>
    obtain ⟨t, hstep, hlegal, hends | ⟨hbusy, hlen⟩⟩ := step_of_busy hl hb
    · exact ⟨1, t, by omega, run_succ core 0 hstep, hends⟩
    · obtain ⟨k, u, hk, hrun, hidle⟩ := ih hlegal hbusy (by omega)
      exact ⟨k + 1, u, by omega, (run_succ core k hstep).trans hrun, hidle⟩

/-- Settles O9: a step of a running block that does not end the command uses up one host action. -/
theorem everyAcceptedCommandEnds : Obligations.EveryAcceptedCommandEnds := by
  unfold Obligations.EveryAcceptedCommandEnds
  exact fun s hl hb => run_ends _ hl hb rfl

end Sys2Proof.Machine
end

section
/-! PROOFS. What the body of each command can do, and the frame of all 14 (40_control.md to 44_bit_unpacker.md): what
the rule of a command does not name stays as it was. -/

namespace Sys2Proof.Machine

open Sys2Proof.Claims

/-! ## What a body that fails or succeeds leaves, command by command -/

/-- The bits a successful LDCODE reads end inside IN_LEN, or there are none (42_code_table.md R165). -/
theorem runLdcode_inside {x : Symbol} {len : BitVec 8} {s t : State} (h : runLdcode x len s = .ok t) :
    s.ibp.toNat + up8 len.toNat ≤ max s.ibp.toNat (8 * s.inLen.toNat) := by
  unfold runLdcode at h
  split at h
  · cases h
  · split at h
    · cases h
    · split at h
      · cases h
      · simp only [up8, cdiv8] at *
        omega

/-- PUTB raises with nothing written, or writes its byte inside OUT at an aligned OBP (43_bit_packer.md R180). -/
theorem runPutb_cases (b : Byte) (s : State) : (∃ e v, runPutb b s = .raised e v s)
    ∨ s.obp.toNat / 8 < s.cfg.outSize ∧ s.obp.toNat % 8 = 0
      ∧ runPutb b s = .ok (advanceObp 8 (writeOut (s.obp.toNat / 8) b s)) := by
  unfold runPutb
  split
  · exact .inl ⟨_, _, rfl⟩
  · next ha =>
    split
    · exact .inl ⟨_, _, rfl⟩
    · next hroom => exact .inr ⟨Nat.not_le.1 hroom, not_not.1 ha, rfl⟩

/-- PUTCODE raises with nothing written, or appends a code that fits (R184). -/
theorem runPutcode_cases (x : Symbol) (s : State) : (∃ e v, runPutcode x s = .raised e v s)
    ∨ fits s (codeOf s x).cl.toNat = true ∧ runPutcode x s = .ok (appendCode x s) := by
  unfold runPutcode
  split
  · exact .inl ⟨_, _, rfl⟩
  · split
    · exact .inl ⟨_, _, rfl⟩
    · next hf => exact .inr ⟨by simpa using hf, rfl⟩

/-- GETB raises with nothing written, or reads a byte inside IN_LEN at an aligned IBP (44_bit_unpacker.md R200). -/
theorem runGetb_cases (s : State) : (∃ e v, runGetb s = .raised e v s)
    ∨ s.ibp.toNat / 8 < s.inLen.toNat ∧ s.ibp.toNat % 8 = 0
      ∧ runGetb s = .ok (advanceIbp 8 { s with res := inByte s (s.ibp.toNat / 8) }) := by
  unfold runGetb
  split
  · exact .inl ⟨_, _, rfl⟩
  · next ha =>
    split
    · exact .inl ⟨_, _, rfl⟩
    · next hin => exact .inr ⟨Nat.not_le.1 hin, not_not.1 ha, rfl⟩

/-- ENCODE stops at its alignment check or runs its loop, each from CNT = 0 (43_bit_packer.md R190). -/
theorem runEncode_cases (s : State) : runEncode s = .raised .align s.ibp (clearCnt s)
    ∨ s.ibp.toNat % 8 = 0 ∧ runEncode s = encodeLoop s.arg0.toNat (clearCnt s) := by
  unfold runEncode
  split
  · exact .inl rfl
  · next ha => exact .inr ⟨not_not.1 ha, rfl⟩

/-- DECODE stops at one of its first two checks or runs its loop, each from CNT = 0 (44_bit_unpacker.md R210). -/
theorem runDecode_cases (s : State) : (∃ e v, runDecode s = .raised e v (clearCnt s))
    ∨ s.obp.toNat % 8 = 0 ∧ runDecode s = decodeLoop s.arg0.toNat (clearCnt s) := by
  unfold runDecode
  split
  · exact .inl ⟨_, _, rfl⟩
  · split
    · exact .inl ⟨_, _, rfl⟩
    · next ha => exact .inr ⟨not_not.1 ha, rfl⟩

/-- DERIVE raises with nothing written, or writes the table of its tree state (42_code_table.md R150). -/
theorem runDerive_cases (s : State) : (∃ e v, runDerive s = .raised e v s)
    ∨ runDerive s = .ok (setCodes emptyCodes s)
    ∨ ∃ n, s.ts = .root n ∧ runDerive s = .ok (setCodes (walkCodes n 0 0 emptyCodes) s) := by
  cases hts : s.ts with
  | invalid => exact .inl ⟨_, _, runDerive_of_invalid hts⟩
  | empty => exact .inr (.inl (runDerive_of_empty hts))
  | root n => exact .inr (.inr ⟨n, rfl, runDerive_of_root hts⟩)

/-- REBUILD raises PREFIX at the first symbol that conflicts with an earlier one, or makes the trie of all codes
(42_code_table.md R170, R171). -/
theorem runRebuild_cases (s : State) :
    (∃ x l₁ l₂, allSymbols = l₁ ++ x :: l₂ ∧ ¬ ConflictIn s.codes l₁ ∧ ConflictIn s.codes (l₁ ++ [x])
      ∧ runRebuild s = .raised .prefixClash (symbolInfo x) (setTree .invalid 0 s))
    ∨ ∃ n, TrieOf s.codes allSymbols n ∧ ¬ ConflictIn s.codes allSymbols
      ∧ runRebuild s = .ok (setTree (treeOfSlot n) 0 s) := by
  have hnone : ¬ ConflictIn s.codes [] := fun ⟨_, ha, _⟩ => List.not_mem_nil ha
  obtain ⟨hok, herror⟩ := insertCodes_spec (k := allSymbols) (TrieOf.nil s.codes) hnone allSymbols_nodup
  unfold runRebuild
  cases hins : insertCodes s.codes allSymbols .none with
  | ok n =>
    obtain ⟨htrie, hfree⟩ := hok n hins
    exact .inr ⟨n, htrie, hfree, rfl⟩
  | error x =>
    obtain ⟨l₁, l₂, hsplit, hbefore, hat⟩ := herror x hins
    exact .inl ⟨x, l₁, l₂, hsplit, hbefore, hat, rfl⟩

/-! ## The frame -/

/-- The body of a command writes only the fields the command's rule names. -/
theorem runOf_writes (i : Instr) (s : State) : (runOf i s).state = { s with
    freq := bif writesFreq i then (runOf i s).state.freq else s.freq
    res := bif writesRes i then (runOf i s).state.res else s.res
    cnt := bif writesCnt i then (runOf i s).state.cnt else s.cnt
    codes := bif writesCodes i then (runOf i s).state.codes else s.codes
    ts := bif writesTree i then (runOf i s).state.ts else s.ts
    total := bif writesTree i then (runOf i s).state.total else s.total
    ibp := bif writesIbp i then (runOf i s).state.ibp else s.ibp
    obp := bif writesObp i then (runOf i s).state.obp else s.obp
    outBuf := bif writesOut i then (runOf i s).state.outBuf else s.outBuf } := by
  cases i with
  | nop => rfl
  | clrfreq => rfl
  | build => rfl
  | clrcode => rfl
  | flush => rfl
  | align => rfl
  | derive =>
    rw [runOf]
    rcases runDerive_cases s with ⟨e, v, h⟩ | h | ⟨n, -, h⟩ <;> rw [h] <;> rfl
  | ldcode x len =>
    rw [runOf]
    rcases runLdcode_cases x len s with ⟨e, v, h⟩ | h <;> rw [h] <;> rfl
  | rebuild =>
    rw [runOf]
    rcases runRebuild_cases s with ⟨x, l₁, l₂, -, -, -, h⟩ | ⟨n, -, -, h⟩ <;> rw [h] <;> rfl
  | putb b =>
    rw [runOf]
    rcases runPutb_cases b s with ⟨e, v, h⟩ | ⟨-, -, h⟩ <;> rw [h] <;> rfl
  | putcode x =>
    rw [runOf]
    rcases runPutcode_cases x s with ⟨e, v, h⟩ | ⟨-, h⟩ <;> rw [h]
    · rfl
    · exact appendCode_eq x s
  | getb =>
    rw [runOf]
    rcases runGetb_cases s with ⟨e, v, h⟩ | ⟨-, -, h⟩ <;> rw [h] <;> rfl
  | encode =>
    rw [runOf]
    rcases runEncode_cases s with h | ⟨-, h⟩ <;> rw [h]
    · rfl
    · obtain ⟨_, _, _, _, hframe⟩ := encodeLoop_frame s.arg0.toNat (clearCnt s)
      rw [hframe]
      rfl
  | decode =>
    rw [runOf]
    rcases runDecode_cases s with ⟨e, v, h⟩ | ⟨-, h⟩ <;> rw [h]
    · rfl
    · obtain ⟨_, _, _, _, hframe⟩ := decodeLoop_frame s.arg0.toNat (clearCnt s)
      rw [hframe]
      rfl

/-- The packer and DECODE keep OUT outside the bytes between the OBP before and the OBP after. -/
theorem runOf_outKept {i : Instr} {s : State} (hl : s.cfg.legal = true) (hw : writesOut i = true) :
    OutKept s (runOf i s).state := by
  cases i with
  | putb b =>
    rw [runOf]
    rcases runPutb_cases b s with ⟨e, v, h⟩ | ⟨hroom, -, h⟩ <;> rw [h]
    · exact OutKept.refl s
    · exact outKept_byte hl hroom
  | putcode x =>
    rw [runOf]
    rcases runPutcode_cases x s with ⟨e, v, h⟩ | ⟨hf, h⟩ <;> rw [h]
    · exact OutKept.refl s
    · exact outKept_appendCode hl hf
  | encode =>
    rw [runOf]
    rcases runEncode_cases s with h | ⟨-, h⟩ <;> rw [h]
    · exact OutKept.refl (clearCnt s)
    · exact encodeLoop_outKept (s := clearCnt s) hl
  | decode =>
    rw [runOf]
    rcases runDecode_cases s with ⟨e, v, h⟩ | ⟨-, h⟩ <;> rw [h]
    · exact OutKept.refl (clearCnt s)
    · exact decodeLoop_outKept (s := clearCnt s) hl
  | _ => cases hw

/-- A command that cannot fail leaves the error record. -/
theorem finish_record_of_not_mayFail {i : Instr} (s : State) (h : mayFail i = false) :
    (finish (runOf i s)).err = s.err ∧ (finish (runOf i s)).errcode = s.errcode
      ∧ (finish (runOf i s)).errinfo = s.errinfo := by
  cases i with
  | nop => exact ⟨rfl, rfl, rfl⟩
  | clrfreq => exact ⟨rfl, rfl, rfl⟩
  | build => exact ⟨rfl, rfl, rfl⟩
  | clrcode => exact ⟨rfl, rfl, rfl⟩
  | flush => exact ⟨rfl, rfl, rfl⟩
  | align => exact ⟨rfl, rfl, rfl⟩
  | _ => cases h

/-- Settles O10: the end of a command writes BUSY, DONE and the error record alone, and its body the fields of its
rule. -/
theorem eachCommandWritesOnlyItsState : Obligations.EachCommandWritesOnlyItsState := by
  unfold Obligations.EachCommandWritesOnlyItsState
  intro i s t h
  rw [exec_eq] at h
  cases h
  have hout : (finish (runOf i s)).outBuf = (runOf i s).state.outBuf := by rw [finish_eq]
  have hobp : (finish (runOf i s)).obp = (runOf i s).state.obp := by rw [finish_eq]
  have hdraws : (finish (runOf i s)).draws = s.draws := by rw [finish_eq, runOf_writes]
  have hsame : writesOut i = false → ∀ a, outByte (finish (runOf i s)) a = outByte s a := fun hw =>
    outByte_congr (by rw [hout, runOf_writes, hw]; rfl) hdraws
  have hwritten : ∀ a, outByte (finish (runOf i s)) a = outByte (runOf i s).state a :=
    outByte_congr hout (by rw [hdraws, runOf_writes])
  refine ⟨?frame, inByte_congr (by rw [finish_eq, runOf_writes]) hdraws, fun hw => ?freq, fun hw => ?res,
    fun hw => ?cnt, fun hw => ?codes, fun hw => ?tree, fun hw => ?ibp, fun hw => ?obp, hsame, fun hl a ha => ?out,
    finish_record_of_not_mayFail s⟩
  case frame =>
    rw [finish_eq, runOf_writes]
    exact ⟨rfl, rfl, rfl, rfl, rfl, rfl, rfl, rfl, rfl, rfl⟩
  case out =>
    cases hw : writesOut i with
    | false => exact hsame hw a
    | true =>
      obtain ⟨-, -, hkept⟩ := runOf_outKept hl hw
      rw [hobp] at ha
      exact (hwritten a).trans (hkept a ha)
  case tree =>
    rw [finish_eq, runOf_writes, hw]
    exact ⟨rfl, rfl⟩
  all_goals
    rw [finish_eq, runOf_writes, hw]
    rfl

end Sys2Proof.Machine
end

section
/-! PROOFS. The invariants of every step: pointers (20_memory.md R66), buffers (10_state.md R42, R43), tree and Code
Table (R31, R34, R36), error record (R26, R38), and all of them together. -/

namespace Sys2Proof.Machine

open Sys2Proof.Claims

/-! ## From the turns to the step -/

/-- `I` speaks neither of HAZ nor of the model's own fields. -/
def IgnoresHazAndModel (I : State → Prop) : Prop :=
  ∀ s z p r d, I s → I { s with haz := z, pending := p, resp := r, draws := d }

/-- What commands, writes and resets keep, every host write keeps: a dropped one sets HAZ alone. -/
theorem hostWrite_keeps {I : State → Prop} (hmodel : IgnoresHazAndModel I) {l : Location} {v : Word} {s : State}
    (hs : I s) (hwrite : I (writeLocation l v s)) : I (hostWrite l v s) := by
  unfold hostWrite
  split
  · exact hmodel s true s.pending s.resp s.draws hs
  · exact hwrite

/-- What holds before a step and is kept by each command, by an illegal word, by each write of a location and by the
hard reset, holds after the step. -/
theorem step_keeps {I : State → Prop} (hmodel : IgnoresHazAndModel I)
    (hcommand : ∀ s i, s.cfg.legal = true → I s → I (finish (runOf i s)))
    (hillegal : ∀ s, I s → I (runIllegal s))
    (hwrite : ∀ s l v off bits, s.cfg.legal = true → performedAt s.cfg off bits = some l → I s →
      I (writeLocation l v s))
    (hreset : ∀ s, I s → I (hardReset s)) {s t : State} (hs : I s) (h : step s = .next t) : I t := by
  have htick : ∀ u, I u → I (tick u) := fun u => hmodel u u.haz u.pending u.resp (u.draws + 1)
  obtain ⟨hl, ⟨-, hengine⟩ | ⟨a, rest, -, rfl⟩ | ⟨-, rfl⟩⟩ := step_cases h
  · rw [engineTurn_eq] at hengine
    cases hengine
    refine htick _ ?_
    cases decode (fetch s) with
    | error r => exact hillegal s hs
    | ok i => exact hcommand s i hl hs
  · have hrest : I { s with pending := rest } := hmodel s s.haz rest s.resp s.draws hs
    have hresp : ∀ u r, I u → I { u with resp := r } := fun u r => hmodel u u.haz u.pending r u.draws
    refine htick _ ?_
    rw [hostTurn]
    cases a with
    | hardReset => exact hreset _ hrest
    | read addr bits =>
      rw [hostAct, busRead_eq]
      exact hresp _ _ hrest
    | write addr bits v =>
      rw [hostAct]
      rcases busWrite_cases addr bits v { s with pending := rest } with ⟨-, heq⟩ | ⟨off, -, -, heq⟩
        | ⟨off, l, -, hperf, heq⟩
      · exact heq ▸ hresp _ _ hrest
      · exact heq ▸ hresp _ _ hrest
      · exact heq ▸ hresp _ _ (hostWrite_keeps hmodel hrest (hwrite _ l v off bits hl hperf hrest))
  · exact hs

/-! ## The pointers (R66) -/

theorem pointersOk_ignores : IgnoresHazAndModel pointersOk := fun _ _ _ _ _ h => h

/-- The end of a command moves no pointer. -/
@[simp] theorem pointersOk_finish (r : Run) : pointersOk (finish r) ↔ pointersOk r.state := by cases r <;> exact Iff.rfl

theorem fits_le {s : State} {len : Nat} (h : fits s len = true) (hobp : s.obp.toNat ≤ 8 * s.cfg.outSize) :
    s.obp.toNat + len ≤ 8 * s.cfg.outSize := by
  rw [fits, decide_eq_true_iff] at h
  omega

theorem pointersOk_appendCode {x : Symbol} {s : State} (hl : s.cfg.legal = true) (hp : pointersOk s)
    (hf : fits s (codeOf s x).cl.toNat = true) : pointersOk (appendCode x s) := by
  obtain ⟨hlen, hibp, hobp⟩ := hp
  have hle := fits_le hf hobp
  have hadv := appendBits_obp_toNat (obp_add_codeBits_lt hl hf)
  rw [appendCode_eq]
  refine ⟨hlen, hibp, ?_⟩
  show (appendCode x s).obp.toNat ≤ _
  rw [appendCode, hadv, codeBits_length]
  exact hle

theorem pointersOk_advanceIbp {n : Nat} {s : State} (hl : s.cfg.legal = true) (hp : pointersOk s)
    (h : s.ibp.toNat + n ≤ 8 * s.cfg.inSize) : pointersOk (advanceIbp n s) := by
  obtain ⟨hlen, -, hobp⟩ := hp
  have hsizes := legal_sizes hl
  have hadv : (s.ibp + BitVec.ofNat 32 n).toNat = s.ibp.toNat + n := toNat_add_ofNat (by omega)
  exact ⟨hlen, hadv.trans_le h, hobp⟩

theorem pointersOk_advanceObp {n : Nat} {s : State} (hl : s.cfg.legal = true) (hp : pointersOk s)
    (h : s.obp.toNat + n ≤ 8 * s.cfg.outSize) : pointersOk (advanceObp n s) := by
  obtain ⟨hlen, hibp, -⟩ := hp
  have hsizes := legal_sizes hl
  have hadv : (s.obp + BitVec.ofNat 32 n).toNat = s.obp.toNat + n := toNat_add_ofNat (by omega)
  exact ⟨hlen, hibp, hadv.trans_le h⟩

/-- One symbol of ENCODE moves IBP past one byte inside IN_LEN, so an aligned IBP stays aligned and within its bound. -/
theorem pointersOk_encodeOne {x : Symbol} {s : State} (hl : s.cfg.legal = true) (hp : pointersOk s)
    (ha : s.ibp.toNat % 8 = 0) (hin : s.ibp.toNat / 8 < s.inLen.toNat)
    (hf : fits s (codeOf s x).cl.toNat = true) :
    pointersOk (encodeOne x s) ∧ (encodeOne x s).ibp.toNat % 8 = 0 := by
  have hcode := pointersOk_appendCode hl hp hf
  obtain ⟨hlen, hibp, -⟩ := hp
  have hsizes := legal_sizes hl
  have happ : (appendCode x s).cfg = s.cfg ∧ (appendCode x s).ibp = s.ibp := by rw [appendCode_eq]; exact ⟨rfl, rfl⟩
  obtain ⟨hcfg, hsame⟩ := happ
  have hadv : pointersOk (advanceIbp 8 (appendCode x s)) :=
    pointersOk_advanceIbp (hcfg ▸ hl) hcode (by rw [hcfg, hsame]; omega)
  refine ⟨hadv, ?_⟩
  have hmove : (s.ibp + BitVec.ofNat 32 8).toNat = s.ibp.toNat + 8 := toNat_add_ofNat (by omega)
  show ((appendCode x s).ibp + BitVec.ofNat 32 8).toNat % 8 = 0
  rw [hsame, hmove]
  omega

theorem pointersOk_encodeLoop {n : Nat} {s : State} (hl : s.cfg.legal = true) (hp : pointersOk s)
    (ha : s.ibp.toNat % 8 = 0) : pointersOk (encodeLoop n s).state := by
  refine (encodeLoop_invariant (fun s => s.cfg.legal = true ∧ pointersOk s ∧ s.ibp.toNat % 8 = 0) ?_
    ⟨hl, hp, ha⟩).2.1
  rintro s x ⟨hl, hp, ha⟩ hin hf
  refine ⟨?_, pointersOk_encodeOne hl hp ha hin hf⟩
  rw [encodeOne_frame]
  exact hl

theorem pointersOk_decodeOne {x : Symbol} {p : Nat} {s : State} (hl : s.cfg.legal = true) (hp : pointersOk s)
    (ha : s.obp.toNat % 8 = 0) (hroom : s.obp.toNat / 8 < s.cfg.outSize)
    (hbit : p ≤ max s.ibp.toNat (8 * s.inLen.toNat)) :
    pointersOk (decodeOne x p s) ∧ (decodeOne x p s).obp.toNat % 8 = 0 := by
  have hsizes := legal_sizes hl
  obtain ⟨hlen, hibp, hobp⟩ := hp
  have hadv : (s.obp + BitVec.ofNat 32 8).toNat = s.obp.toNat + 8 := obp_add_byte_toNat hl hroom
  have hmod : (BitVec.ofNat 32 p).toNat ≤ p := by
    rw [BitVec.toNat_ofNat]
    exact Nat.mod_le _ _
  refine ⟨⟨hlen, ?_, ?_⟩, ?_⟩
  · show (BitVec.ofNat 32 p).toNat ≤ 8 * s.cfg.inSize
    omega
  · show (s.obp + BitVec.ofNat 32 8).toNat ≤ 8 * s.cfg.outSize
    omega
  · show (s.obp + BitVec.ofNat 32 8).toNat % 8 = 0
    omega

theorem pointersOk_decodeLoop {n : Nat} {s : State} (hl : s.cfg.legal = true) (hp : pointersOk s)
    (ha : s.obp.toNat % 8 = 0) : pointersOk (decodeLoop n s).state :=
  (decodeLoop_invariant (fun s => s.cfg.legal = true ∧ pointersOk s ∧ s.obp.toNat % 8 = 0)
    (fun _ _ _ ⟨hl, hp, ha⟩ hroom hbit => ⟨hl, pointersOk_decodeOne hl hp ha hroom hbit⟩) ⟨hl, hp, ha⟩).2.1

/-- Every command that writes IBP or OBP keeps the pointers within their bounds; the others leave them. -/
theorem pointersOk_runOf {i : Instr} {s : State} (hl : s.cfg.legal = true) (hp : pointersOk s) :
    pointersOk (runOf i s).state := by
  cases hw : writesIbp i || writesObp i with
  | false =>
    obtain ⟨hi, ho⟩ := Bool.or_eq_false_iff.1 hw
    rw [runOf_writes, hi, ho]
    exact hp
  | true =>
    obtain ⟨-, hinSize, -, -, houtSize, -⟩ := legal_sizes hl
    obtain ⟨hlen, hibp, hobp⟩ := id hp
    cases i with
    | ldcode x len =>
      rcases runLdcode_cases x len s with ⟨e, v, h⟩ | h
      · rw [runOf, h]
        exact hp
      · have hin := runLdcode_inside h
        rw [runOf, h]
        exact pointersOk_advanceIbp (s := setCodes _ s) hl hp (by rw [setCodes_ibp, setCodes_cfg]; omega)
    | putb b =>
      rcases runPutb_cases b s with ⟨e, v, h⟩ | ⟨hroom, ha, h⟩ <;> rw [runOf, h]
      · exact hp
      · exact pointersOk_advanceObp (s := writeOut _ b s) hl hp (by rw [writeOut_obp, writeOut_cfg]; omega)
    | putcode x =>
      rcases runPutcode_cases x s with ⟨e, v, h⟩ | ⟨hf, h⟩ <;> rw [runOf, h]
      · exact hp
      · exact pointersOk_appendCode hl hp hf
    | flush => exact ⟨hlen, hibp, (ofNat_up8_toNat houtSize hobp).trans_le (up8_le hobp)⟩
    | align => exact ⟨hlen, (ofNat_up8_toNat hinSize hibp).trans_le (up8_le hibp), hobp⟩
    | getb =>
      rcases runGetb_cases s with ⟨e, v, h⟩ | ⟨hin, ha, h⟩ <;> rw [runOf, h]
      · exact hp
      · have hbound : s.ibp.toNat + 8 ≤ 8 * s.cfg.inSize := by omega
        exact pointersOk_advanceIbp (s := { s with res := _ }) hl hp hbound
    | encode =>
      rcases runEncode_cases s with h | ⟨ha, h⟩ <;> rw [runOf, h]
      · exact hp
      · exact pointersOk_encodeLoop (s := clearCnt s) hl hp ha
    | decode =>
      rcases runDecode_cases s with ⟨e, v, h⟩ | ⟨ha, h⟩ <;> rw [runOf, h]
      · exact hp
      · exact pointersOk_decodeLoop (s := clearCnt s) hl hp ha
    | _ => cases hw

/-- A reset leaves the three pointers 0. -/
theorem pointersOk_of_zero {s : State} (hlen : s.inLen = 0) (hibp : s.ibp = 0) (hobp : s.obp = 0) : pointersOk s := by
  unfold pointersOk
  rw [hlen, hibp, hobp]
  exact ⟨Nat.zero_le _, Nat.zero_le _, Nat.zero_le _⟩

/-- A write of CTRL is a soft reset or writes IE alone. -/
theorem writeCtrl_keeps {I : State → Prop} {v : Word} {s : State} (henable : I { s with ie := v.getLsbD 1 })
    (hreset : I (softReset s)) : I (writeCtrl v s) := by
  cases hv : v.getLsbD 0 with
  | false => exact writeCtrl_of_srst_eq_false s hv ▸ henable
  | true => exact writeCtrl_of_srst_eq_true s hv ▸ hreset

theorem warl_le (v : Word) (n : Nat) : (warl v n).toNat ≤ n := by
  rw [warl, BitVec.toNat_ofNat]
  exact (Nat.mod_le _ _).trans (min_le_right _ _)

/-- Host writes of the pointers are clamped, and no other write but a soft reset moves them. -/
theorem pointersOk_writeLocation (l : Location) (v : Word) {s : State} (hp : pointersOk s) :
    pointersOk (writeLocation l v s) := by
  obtain ⟨hlen, hibp, hobp⟩ := id hp
  cases l with
  | freq x => exact hp
  | inWord i => exact hp
  | outWord i => exact hp
  | reg r =>
    cases r
    case ctrl => exact writeCtrl_keeps hp (pointersOk_of_zero rfl rfl rfl)
    case inLen => exact ⟨warl_le v _, hibp, hobp⟩
    case ibp => exact ⟨hlen, warl_le v _, hobp⟩
    case obp => exact ⟨hlen, hibp, warl_le v _⟩
    all_goals exact hp

theorem step_pointersOk {s t : State} (hp : pointersOk s) (h : step s = .next t) : pointersOk t :=
  step_keeps pointersOk_ignores (fun _ _ hl hp => (pointersOk_finish _).2 (pointersOk_runOf hl hp)) (fun _ hp => hp)
    (fun _ l v _ _ _ _ hp => pointersOk_writeLocation l v hp) (fun _ _ => pointersOk_of_zero rfl rfl rfl) hp h

/-- Settles O55: the three bounds are kept by every step, and with sizes of at most 65536 bytes they are below 2^20. -/
theorem pointersStayInRange : Obligations.PointersStayInRange := by
  unfold Obligations.PointersStayInRange
  intro s t hl hp h
  have hpt := step_pointersOk hp h
  have hsizes := legal_sizes hl
  obtain ⟨-, hibp, hobp⟩ := id hpt
  rw [step_cfg h] at hibp hobp
  exact ⟨hpt, by omega, by omega⟩

/-! ## The buffers (R42, R43) -/

theorem memoryOk_ignores : IgnoresHazAndModel memoryOk := fun _ _ _ _ _ h => h

@[simp] theorem memoryOk_finish (r : Run) : memoryOk (finish r) ↔ memoryOk r.state := by cases r <;> exact Iff.rfl

theorem memoryOk_writeOut {i : Nat} {v : Byte} {s : State} (hm : memoryOk s) (hi : i < s.cfg.outSize) :
    memoryOk (writeOut i v s) := by
  obtain ⟨hinWf, houtWf, hin, hout⟩ := hm
  refine ⟨hinWf, Memory.wf_write houtWf i v, hin, fun c hc => ?_⟩
  rcases Memory.mem_write hc with rfl | hc
  · exact hi
  · exact hout c hc

/-- A code that fits ends inside OUT, or has no bit. -/
theorem memoryOk_appendCode {x : Symbol} {s : State} (hl : s.cfg.legal = true) (hm : memoryOk s)
    (hf : fits s (codeOf s x).cl.toNat = true) : memoryOk (appendCode x s) := by
  obtain ⟨hinWf, houtWf, hin, hout⟩ := id hm
  have hsizes := legal_sizes hl
  rw [fits, decide_eq_true_iff] at hf
  rw [appendCode_eq]
  refine ⟨hinWf, wf_appendBits houtWf, hin, ?_⟩
  rcases hf with h0 | hlast
  · have hempty : codeBits (codeOf s x) = [] := List.eq_nil_of_length_eq_zero ((codeBits_length _).trans h0)
    show ∀ c ∈ (appendCode x s).outBuf, c.1 < s.cfg.outSize
    rw [appendCode, hempty]
    exact hout
  · exact lt_appendBits (n := s.cfg.outSize) hout (by omega) (by rw [codeBits_length]; omega)

theorem memoryOk_encodeLoop {n : Nat} {s : State} (hl : s.cfg.legal = true) (hm : memoryOk s) :
    memoryOk (encodeLoop n s).state := by
  refine (encodeLoop_invariant (fun s => s.cfg.legal = true ∧ memoryOk s) ?_ ⟨hl, hm⟩).2
  rintro s x ⟨hl, hm⟩ - hf
  refine ⟨?_, memoryOk_appendCode hl hm hf⟩
  rw [encodeOne_frame]
  exact hl

theorem memoryOk_decodeLoop {n : Nat} {s : State} (hm : memoryOk s) : memoryOk (decodeLoop n s).state :=
  decodeLoop_invariant memoryOk (fun _ x _ hm hroom _ => memoryOk_writeOut (v := x) hm hroom) hm

/-- Every command keeps the buffers: IN is never written, OUT only inside its size. -/
theorem memoryOk_runOf {i : Instr} {s : State} (hl : s.cfg.legal = true) (hm : memoryOk s) :
    memoryOk (runOf i s).state := by
  cases hw : writesOut i with
  | false =>
    rw [runOf_writes, hw]
    exact hm
  | true =>
    cases i with
    | putb b =>
      rcases runPutb_cases b s with ⟨e, v, h⟩ | ⟨hroom, -, h⟩ <;> rw [runOf, h]
      · exact hm
      · exact memoryOk_writeOut (v := b) hm hroom
    | putcode x =>
      rcases runPutcode_cases x s with ⟨e, v, h⟩ | ⟨hf, h⟩ <;> rw [runOf, h]
      · exact hm
      · exact memoryOk_appendCode hl hm hf
    | encode =>
      rcases runEncode_cases s with h | ⟨-, h⟩ <;> rw [runOf, h]
      · exact hm
      · exact memoryOk_encodeLoop (s := clearCnt s) hl hm
    | decode =>
      rcases runDecode_cases s with ⟨e, v, h⟩ | ⟨-, h⟩ <;> rw [runOf, h]
      · exact hm
      · exact memoryOk_decodeLoop (s := clearCnt s) hm
    | _ => cases hw

theorem memoryOk_hardReset (s : State) : memoryOk (hardReset s) :=
  ⟨List.Pairwise.nil, List.Pairwise.nil, fun _ hc => absurd hc List.not_mem_nil, fun _ hc => absurd hc List.not_mem_nil⟩

theorem memoryOk_softReset {s : State} (hm : memoryOk s) : memoryOk (softReset s) := by
  obtain ⟨hinWf, houtWf, hin, hout⟩ := hm
  cases hb : s.busy with
  | false =>
    have hkept := softReset_outBuf_of_idle hb
    exact ⟨hinWf, hkept.symm ▸ houtWf, hin, hkept.symm ▸ hout⟩
  | true =>
    have hlost := softReset_outBuf_of_busy hb
    exact ⟨hinWf, hlost.symm ▸ List.Pairwise.nil, hin, hlost.symm ▸ fun _ hc => absurd hc List.not_mem_nil⟩

/-- A word write puts four bytes inside the buffer; no other write but a soft reset touches a buffer. -/
theorem memoryOk_writeLocation {l : Location} {v : Word} {s : State} {off bits : Nat} (hl : s.cfg.legal = true)
    (hperf : performedAt s.cfg off bits = some l) (hm : memoryOk s) : memoryOk (writeLocation l v s) := by
  obtain ⟨hinside, houtside⟩ := performedAt_inside hl hperf
  obtain ⟨hinWf, houtWf, hin, hout⟩ := id hm
  cases l with
  | freq x => exact hm
  | inWord i =>
    exact ⟨Memory.wf_writeWord hinWf i v, houtWf, Memory.lt_writeWord v hin (hinside i rfl), hout⟩
  | outWord i =>
    exact ⟨hinWf, Memory.wf_writeWord houtWf i v, hin, Memory.lt_writeWord v hout (houtside i rfl)⟩
  | reg r =>
    cases r
    case ctrl => exact writeCtrl_keeps hm (memoryOk_softReset hm)
    all_goals exact hm

theorem step_memoryOk {s t : State} (hm : memoryOk s) (h : step s = .next t) : memoryOk t :=
  step_keeps memoryOk_ignores (fun _ _ hl hm => (memoryOk_finish _).2 (memoryOk_runOf hl hm)) (fun _ hm => hm)
    (fun _ _ _ _ _ hl hperf hm => memoryOk_writeLocation hl hperf hm) (fun s _ => memoryOk_hardReset s) hm h

/-- Settles O56: each write of a buffer keeps the canonical form and stands inside the buffer's size. -/
theorem buffersStayCanonical : Obligations.BuffersStayCanonical := by
  unfold Obligations.BuffersStayCanonical
  exact fun s t _ hm h => step_memoryOk hm h

/-! ## The tree and the Code Table (R31, R34, R36) -/

/-- The tree is legal with TOTAL its weight, and every entry is legal. -/
def TreeAndTableOk (s : State) : Prop := treeStateOk s ∧ codesOk s

theorem treeAndTableOk_ignores : IgnoresHazAndModel TreeAndTableOk := fun _ _ _ _ _ h => h

@[simp] theorem treeAndTableOk_finish (r : Run) : TreeAndTableOk (finish r) ↔ TreeAndTableOk r.state := by
  cases r <;> exact Iff.rfl

theorem treeStateOk_invalid (s : State) : treeStateOk (setTree .invalid 0 s) := ⟨trivial, rfl⟩

theorem codesOk_emptyCodes {s : State} (h : s.codes = emptyCodes) : codesOk s := fun x => by
  rw [codeOf_eq, h, entryAt_emptyCodes]
  exact entryOk_absent

/-- LDCODE puts one legal entry in the table. -/
theorem codesOk_setEntry {x : Symbol} {e : CodeEntry} {s : State} (h : codesOk s) (he : entryOk e) :
    ∀ y, entryOk (entryAt (setEntry s.codes x e) y) := fun y => by
  rw [entryAt_setEntry]
  split
  · exact he
  · exact h y

/-- The tree of a trie: `Empty` for no code, else one the commands can make, of weight 0 (42_code_table.md R170). -/
theorem treeStateOk_rebuilt {s : State} {n : Slot} (h : TrieOf s.codes allSymbols n) :
    treeStateOk (setTree (treeOfSlot n) 0 s) := by
  cases n with
  | none => exact ⟨trivial, rfl⟩
  | leaf w x => exact ⟨⟨by simp, h.live, h.nodup, h.depth⟩, h.weight.symm⟩
  | internal w l r => exact ⟨⟨by simp, h.live, h.nodup, h.depth⟩, h.weight.symm⟩

/-- Every command that writes the tree or the Code Table keeps both legal; the others leave them. -/
theorem treeAndTableOk_runOf {i : Instr} {s : State} (hs : TreeAndTableOk s) : TreeAndTableOk (runOf i s).state := by
  cases hw : writesCodes i || writesTree i with
  | false =>
    obtain ⟨hc, ht⟩ := Bool.or_eq_false_iff.1 hw
    rw [runOf_writes, hc, ht]
    exact hs
  | true =>
    obtain ⟨htree, htable⟩ := id hs
    cases i with
    | build => exact ⟨⟨treeOk_builtTree s, rfl⟩, codesOk_emptyCodes rfl⟩
    | clrcode => exact ⟨treeStateOk_invalid _, codesOk_emptyCodes rfl⟩
    | derive =>
      rcases runDerive_cases s with ⟨e, v, h⟩ | h | ⟨n, hts, h⟩ <;> rw [runOf, h]
      · exact hs
      · exact ⟨htree, codesOk_emptyCodes rfl⟩
      · obtain ⟨hok, -⟩ := id htree
        rw [hts] at hok
        obtain ⟨-, -, hnodup, hdepth⟩ := hok
        exact ⟨htree, fun x => (derived_entry hnodup hdepth x).1⟩
    | ldcode x len =>
      rcases runLdcode_cases x len s with ⟨e, v, h⟩ | h <;> rw [runOf, h]
      · exact hs
      · exact ⟨treeStateOk_invalid _, codesOk_setEntry htable (loadedEntry_spec len s).1⟩
    | rebuild =>
      rcases runRebuild_cases s with ⟨x, l₁, l₂, -, -, -, h⟩ | ⟨n, htrie, -, h⟩ <;> rw [runOf, h]
      · exact ⟨treeStateOk_invalid _, htable⟩
      · exact ⟨treeStateOk_rebuilt htrie, htable⟩
    | _ => cases hw

theorem treeAndTableOk_hardReset (s : State) : TreeAndTableOk (hardReset s) := ⟨⟨trivial, rfl⟩, codesOk_emptyCodes rfl⟩

/-- No host write but a soft reset touches the tree or the Code Table. -/
theorem treeAndTableOk_writeLocation (l : Location) (v : Word) {s : State} (hs : TreeAndTableOk s) :
    TreeAndTableOk (writeLocation l v s) := by
  cases l with
  | freq x => exact hs
  | inWord i => exact hs
  | outWord i => exact hs
  | reg r =>
    cases r
    case ctrl => exact writeCtrl_keeps hs (treeAndTableOk_hardReset s)
    all_goals exact hs

theorem step_treeAndTableOk {s t : State} (hs : TreeAndTableOk s) (h : step s = .next t) : TreeAndTableOk t :=
  step_keeps treeAndTableOk_ignores (fun _ _ _ hs => (treeAndTableOk_finish _).2 (treeAndTableOk_runOf hs))
    (fun _ hs => hs) (fun _ l v _ _ _ _ hs => treeAndTableOk_writeLocation l v hs)
    (fun s _ => treeAndTableOk_hardReset s) hs h

/-- Settles O57: BUILD, REBUILD and DERIVE make legal trees and tables, LDCODE a legal entry, and the resets clear
both. -/
theorem treeAndTableStayLegal : Obligations.TreeAndTableStayLegal := by
  unfold Obligations.TreeAndTableStayLegal
  exact fun s t htree htable h => step_treeAndTableOk ⟨htree, htable⟩ h

/-! ## The error record (R26, R38, R111, R114) -/

theorem recordOk_ignores : IgnoresHazAndModel recordOk := fun _ _ _ _ _ h => h

/-- A command ends with BUSY = 0 and with the record it began with, or that of the error it raised. -/
theorem recordOk_finish {i : Instr} {s : State} (hs : recordOk s) : recordOk (finish (runOf i s)) := by
  obtain ⟨hcode, hinfo, -⟩ := hs
  obtain ⟨_, _, _, _, _, _, _, _, _, hframe⟩ := runOf_frame i s
  rcases finish_cases i s with hok | ⟨e, v, hne, hraised⟩
  · rw [hok, hframe]
    exact ⟨hcode, hinfo, fun hbusy => absurd hbusy Bool.false_ne_true⟩
  · rw [hraised]
    exact ⟨iff_of_true rfl hne, fun herr => absurd herr.symm Bool.false_ne_true,
      fun hbusy => absurd hbusy Bool.false_ne_true⟩

theorem recordOk_runIllegal (s : State) : recordOk (runIllegal s) :=
  ⟨iff_of_true rfl (show ErrorCode.illegal ≠ .none by decide), fun herr => absurd herr.symm Bool.false_ne_true,
    fun hbusy => absurd hbusy Bool.false_ne_true⟩

theorem recordOk_hardReset (s : State) : recordOk (hardReset s) :=
  ⟨iff_of_false Bool.false_ne_true (not_not_intro rfl), fun _ => rfl, fun hbusy => absurd hbusy Bool.false_ne_true⟩

/-- An acceptance clears DONE and the record; a write of STATUS can only lower DONE. -/
theorem recordOk_writeLocation (l : Location) (v : Word) {s : State} (hs : recordOk s) :
    recordOk (writeLocation l v s) := by
  obtain ⟨hcode, hinfo, hbusy⟩ := id hs
  cases l with
  | freq x => exact hs
  | inWord i => exact hs
  | outWord i => exact hs
  | reg r =>
    cases r
    case ctrl => exact writeCtrl_keeps hs (recordOk_hardReset s)
    case cmd =>
      exact ⟨iff_of_false Bool.false_ne_true (not_not_intro rfl), fun _ => rfl, fun _ => ⟨rfl, rfl⟩⟩
    case status =>
      refine ⟨hcode, hinfo, fun hb => ?_⟩
      obtain ⟨hdone, herr⟩ := hbusy hb
      refine ⟨?_, herr⟩
      show (s.done && !v.getLsbD 1) = false
      rw [hdone, Bool.false_and]
    all_goals exact hs

theorem step_recordOk {s t : State} (hs : recordOk s) (h : step s = .next t) : recordOk t :=
  step_keeps recordOk_ignores (fun _ _ _ hs => recordOk_finish hs) (fun s _ => recordOk_runIllegal s)
    (fun _ l v _ _ _ _ hs => recordOk_writeLocation l v hs) (fun s _ => recordOk_hardReset s) hs h

/-- Settles O58: the record is written by an acceptance, by the end of a command and by a reset, each time whole. -/
theorem errorRecordStaysConsistent : Obligations.ErrorRecordStaysConsistent := by
  unfold Obligations.ErrorRecordStaysConsistent
  exact fun s t => step_recordOk

/-! ## The whole invariant -/

/-- Settles O54: the state after reset is the hard reset of itself. -/
theorem resetMeetsTheInvariant : Obligations.ResetMeetsTheInvariant := by
  unfold Obligations.ResetMeetsTheInvariant
  obtain ⟨htree, htable⟩ := treeAndTableOk_hardReset State.reset
  exact ⟨by decide, memoryOk_hardReset State.reset, pointersOk_of_zero rfl rfl rfl, htable, htree,
    recordOk_hardReset State.reset⟩

/-- Settles O59: each part of the invariant is kept by itself, and the parameters do not change. -/
theorem everyStepKeepsTheInvariant : Obligations.EveryStepKeepsTheInvariant := by
  unfold Obligations.EveryStepKeepsTheInvariant
  rintro s t ⟨hl, hmem, hptr, htable, htree, hrec⟩ h
  obtain ⟨htree', htable'⟩ := step_treeAndTableOk ⟨htree, htable⟩ h
  exact ⟨(step_cfg h).symm ▸ hl, step_memoryOk hmem h, step_pointersOk hptr h, htable', htree', step_recordOk hrec h⟩

end Sys2Proof.Machine
end

section
/-! PROOFS. BUILD's queue, the shape of BUILD's tree, and why its codes are best (41_tree_builder.md R131, R134 to
R136). -/

namespace Sys2Proof.Machine

open Sys2Proof.Claims

/-! ## The queue (R131) -/

/-- Elements inserted into a sorted queue, all seq numbers distinct: the queue holds them too and is sorted. -/
theorem foldl_insertItem {items q : List QueueItem} (hq : KeySorted q) (hseq : (items.map (·.seq)).Nodup)
    (hnew : ∀ x ∈ items, ∀ y ∈ q, y.seq ≠ x.seq) :
    (items.foldl (fun q x => insertItem x q) q).Perm (items ++ q)
      ∧ KeySorted (items.foldl (fun q x => insertItem x q) q) := by
  induction items generalizing q with
  | nil => exact ⟨List.Perm.refl q, hq⟩
  | cons x items ih =>
    rw [List.map_cons, List.nodup_cons] at hseq
    obtain ⟨hx, hseq⟩ := hseq
    have hperm := insertItem_perm x q
    have hnew' : ∀ z ∈ items, ∀ y ∈ insertItem x q, y.seq ≠ z.seq := fun z hz y hy => by
      rcases List.mem_cons.1 (hperm.mem_iff.1 hy) with rfl | hy
      · exact fun he => hx (List.mem_map.2 ⟨z, hz, he.symm⟩)
      · exact hnew z (List.mem_cons_of_mem x hz) y hy
    obtain ⟨hall, hsorted⟩ := ih (insertItem_sorted hq (hnew x List.mem_cons_self)) hseq hnew'
    exact ⟨hall.trans ((hperm.append_left items).trans List.perm_middle), hsorted⟩

/-- Settles O16: every insertion into the sorted queue keeps it sorted, its seq number being new. -/
theorem queueHeadHasTheLeastKey : Obligations.QueueHeadHasTheLeastKey := by
  unfold Obligations.QueueHeadHasTheLeastKey
  intro items hseq
  have hfold := foldl_insertItem List.Pairwise.nil hseq fun _ _ _ hy => absurd hy List.not_mem_nil
  rwa [List.append_nil] at hfold

/-! ## The shape of the tree (R134) and what BUILD reads (R136) -/

/-- Settles O14: the tree is grown over the present symbols, so it is full, and a full tree has these counts. -/
theorem builtTreeShape : Obligations.BuiltTreeShape := by
  unfold Obligations.BuiltTreeShape
  intro s t n hbuild hts
  rw [exec_eq] at hbuild
  cases hbuild
  rw [finish_build_ts] at hts
  rcases builtTree_spec s with ⟨hempty, -⟩ | ⟨m, hroot, ⟨hfull, hsums, -⟩, hnodup, hmem, -, hcount⟩
  · rw [hempty] at hts
    cases hts
  · rw [hroot] at hts
    cases hts
    have hinner := full_internalCount hfull
    exact ⟨hinner, by omega, hfull, hnodup, hmem, hsums, full_depth hfull, hcount⟩

/-- Settles O15: the tree depends on FREQ alone, TOTAL is its weight, and the Code Table is cleared. -/
theorem buildReadsOnlyFreq : Obligations.BuildReadsOnlyFreq := by
  unfold Obligations.BuildReadsOnlyFreq
  intro s s' t t' hfreq hbuild hbuild'
  rw [exec_eq, finish_build_eq] at hbuild hbuild'
  cases hbuild
  cases hbuild'
  have htree := builtTree_congr hfreq
  exact ⟨htree, congrArg treeWeight htree, rfl⟩

/-! ## Optimal codes (R135) -/

/-- Absent symbols have no part in a weighted length. -/
theorem sum_presentIn (s : State) (len : Symbol → Nat) (l : List Symbol) :
    ((presentIn s l).map (fun x => (freqOf s x).toNat * len x)).sum
      = (l.map (fun x => (freqOf s x).toNat * len x)).sum := by
  induction l with
  | nil => rfl
  | cons x l ih =>
    by_cases hx : freqOf s x = 0
    · simpa [presentIn, hx] using ih
    · rw [presentIn_cons hx, List.map_cons, List.map_cons, List.sum_cons, List.sum_cons, ih]

theorem weightedLength_eq_presentIn (s : State) (len : Symbol → Nat) :
    weightedLength s len = ((presentIn s allSymbols).map (fun x => (freqOf s x).toNat * len x)).sum :=
  (sum_presentIn s len allSymbols).symm

/-- DERIVE gives the symbol of a leaf a code as long as the path to it (42_code_table.md R150). -/
theorem walkCodes_cl {n : Slot} (hn : (leafSyms n).Nodup) (hd : slotDepth n ≤ 255) {x : Symbol} {c : List Bool}
    {w : Weight} (hc : followPath n c = .leaf w x) : (entryAt (walkCodes n 0 0 emptyCodes) x).cl.toNat = c.length := by
  obtain ⟨-, hbits⟩ := ((derived_entry hn hd x).2 c).1 ⟨w, hc⟩
  rw [← hbits, codeBits_length]

/-- The weighted length of DERIVE's codes is the sum of the internal weights of the tree. -/
theorem weightedLength_walkCodes {s : State} {n : Slot} (hok : treeOk (.root n)) (hsums : weightsAreSums s n)
    (hleaves : (leafSyms n).Perm (presentIn s allSymbols)) :
    weightedLength s (fun x => (entryAt (walkCodes n 0 0 emptyCodes) x).cl.toNat) = innerWeight n := by
  obtain ⟨-, -, hnodup, hdepth⟩ := hok
  have hpaths := innerWeight_eq_paths hsums (d := 0) fun c x w hc => walkCodes_cl hnodup hdepth hc
  rw [weightedLength_eq_presentIn, ← (hleaves.map _).sum_eq, hpaths, Nat.zero_mul, Nat.add_zero]

/-- Settles O17: the codes of a BUILD tree have the internal weights as their weighted length, and these are at most
that of every code of which no word begins another; without present symbols all weighted lengths are 0. -/
theorem derivedCodesAreOptimal : Obligations.DerivedCodesAreOptimal := by
  unfold Obligations.DerivedCodesAreOptimal
  intro s t u hbuild hderive code hfree
  rw [exec_eq] at hbuild
  cases hbuild
  rcases builtQueue_spec s with ⟨hnone, -⟩ | ⟨i, hqueue, ⟨-, hsums, -⟩, hleaves⟩
  · rw [weightedLength_eq_presentIn, hnone]
    exact Nat.zero_le _
  · have hroot : builtTree s = .root i.node := by rw [builtTree, hqueue]
    have hok := treeOk_builtTree s
    rw [hroot] at hok
    rw [exec_of_ok (i := .derive) (runDerive_of_root ((finish_build_ts s).trans hroot))] at hderive
    cases hderive
    refine (weightedLength_walkCodes hok hsums hleaves).trans_le ?_
    rw [weightedLength_eq_presentIn]
    exact built_inner_le hqueue hfree

end Sys2Proof.Machine
end

section
/-! PROOFS. DERIVE and REBUILD between the tree and the Code Table (42_code_table.md R151, R152, R170, R171). -/

namespace Sys2Proof.Machine

open Sys2Proof.Claims

/-! ## A tree whose leaves are the codes of a table -/

section
variable {s : State} {n : Slot} (h : leavesAreCodes s n)
include h

/-- A present symbol has its leaf at the path of its code. -/
theorem leaf_of_present {x : Symbol} (hx : (codeOf s x).present = true) :
    ∃ w, followPath n (codeBits (codeOf s x)) = .leaf w x :=
  (h _ x).2 ⟨hx, rfl⟩

/-- No leaf lies on the path to another, so no code begins another (R151). -/
theorem not_prefix_of_leavesAreCodes {x y : Symbol} (hxy : x ≠ y) (hx : (codeOf s x).present = true)
    (hy : (codeOf s y).present = true) : ¬ codeBits (codeOf s x) <+: codeBits (codeOf s y) := by
  intro hprefix
  obtain ⟨v, hv⟩ := leaf_of_present h hx
  obtain ⟨w, hw⟩ := leaf_of_present h hy
  rw [path_prefix_eq hv hw hprefix, hw] at hv
  cases hv
  exact hxy rfl

/-- Below two or more leaves no leaf is the root. -/
theorem codeBits_ne_nil_of_leavesAreCodes (hn : 2 ≤ leafCount n) {x : Symbol} (hx : (codeOf s x).present = true) :
    codeBits (codeOf s x) ≠ [] := by
  intro hnil
  obtain ⟨w, hw⟩ := leaf_of_present h hx
  rw [hnil, followPath_nil] at hw
  rw [hw, leafCount] at hn
  omega

/-- One tree holds the codes of one legal table only. -/
theorem codes_eq_of_leavesAreCodes {u : State} (hu : leavesAreCodes u n) (hs : codesOk s) (hok : codesOk u) :
    u.codes = s.codes := by
  have hpaths : ∀ x c, ((codeOf u x).present = true ∧ codeBits (codeOf u x) = c)
      ↔ ((codeOf s x).present = true ∧ codeBits (codeOf s x) = c) := fun x c => (hu c x).symm.trans (h c x)
  refine codes_ext fun x => entry_eq_of_codeBits (hok x) (hs x) ?_ fun hp => ?_
  · rw [Bool.eq_iff_iff]
    exact ⟨fun hp => ((hpaths x _).1 ⟨hp, rfl⟩).1, fun hp => ((hpaths x _).2 ⟨hp, rfl⟩).1⟩
  · exact ((hpaths x _).1 ⟨hp, rfl⟩).2.symm

end

/-! ## DERIVE (R150, R151) -/

/-- DERIVE from a legal root: a legal table whose codes are the paths of the leaves; all else is kept. -/
theorem exec_derive_root {s t : State} {n : Slot} (hts : s.ts = .root n) (hok : treeOk s.ts)
    (h : exec .derive s = .next t) :
    t = { s with codes := t.codes, busy := false, done := true } ∧ codesOk t ∧ leavesAreCodes t n := by
  obtain ⟨-, -, -, -, hroot⟩ := deriveWritesTheLeafPaths
  obtain ⟨u, hu, hframe, htable, hleaves⟩ := hroot s n hts hok
  rw [h] at hu
  cases hu
  exact ⟨hframe, htable, hleaves⟩

/-- Settles O19: after DERIVE the leaves are at the paths of the codes. -/
theorem derivedCodesArePrefixFree : Obligations.DerivedCodesArePrefixFree := by
  unfold Obligations.DerivedCodesArePrefixFree
  intro s t n hts hok htwo h x y hxy hx hy
  obtain ⟨-, -, hleaves⟩ := exec_derive_root hts hok h
  exact ⟨not_prefix_of_leavesAreCodes hleaves hxy hx hy, codeBits_ne_nil_of_leavesAreCodes hleaves htwo hx⟩

/-! ## The symbols up to one of them -/

/-- In ascending order the symbols before `x` are the smaller ones. -/
theorem mem_before_iff {l₁ l₂ : List Symbol} {x : Symbol} (h : allSymbols = l₁ ++ x :: l₂) (a : Symbol) :
    a ∈ l₁ ↔ a.toNat < x.toNat := by
  have hsorted := allSymbols_sorted
  rw [h, List.pairwise_append, List.pairwise_cons] at hsorted
  obtain ⟨-, ⟨hafter, -⟩, hbefore⟩ := hsorted
  refine ⟨fun ha => hbefore a ha x List.mem_cons_self, fun hlt => ?_⟩
  have hmem := mem_allSymbols a
  rw [h, List.mem_append, List.mem_cons] at hmem
  rcases hmem with ha | rfl | ha
  · exact ha
  · exact absurd hlt (Nat.lt_irrefl _)
  · exact absurd hlt (Nat.lt_asymm (hafter a ha))

theorem mem_upTo_iff {l₁ l₂ : List Symbol} {x : Symbol} (h : allSymbols = l₁ ++ x :: l₂) (a : Symbol) :
    a ∈ l₁ ++ [x] ↔ a.toNat ≤ x.toNat := by
  rw [List.mem_append, List.mem_singleton, mem_before_iff h, Nat.le_iff_lt_or_eq, BitVec.toNat_inj]

/-- A conflict up to a symbol is one in any list that holds the symbols up to it. -/
theorem conflictIn_of_conflictUpTo {s : State} {x : Symbol} {l : List Symbol} (h : conflictUpTo s x)
    (hl : ∀ a : Symbol, a.toNat ≤ x.toNat → a ∈ l) : ConflictIn s.codes l := by
  obtain ⟨a, b, ha, hb, hab, hpa, hpb, hprefix⟩ := h
  exact ⟨a, hl a ha, b, hl b hb, hab, hpa, hpb, hprefix⟩

theorem conflictUpTo_of_conflictIn {s : State} {x : Symbol} {l : List Symbol} (h : ConflictIn s.codes l)
    (hl : ∀ a ∈ l, a.toNat ≤ x.toNat) : conflictUpTo s x := by
  obtain ⟨a, ha, b, hb, hab, hpa, hpb, hprefix⟩ := h
  exact ⟨a, b, hl a ha, hl b hb, hab, hpa, hpb, hprefix⟩

/-! ## The tree REBUILD makes (R170) -/

theorem treeOfSlot_of_ne_none {n : Slot} (h : n ≠ .none) : treeOfSlot n = .root n := by
  cases n with
  | none => exact absurd rfl h
  | leaf w x => rfl
  | internal w l r => rfl

section
variable {s : State} {n : Slot} (h : TrieOf s.codes allSymbols n)
include h

theorem TrieOf.leavesAreCodes : leavesAreCodes s n := fun c x => by
  refine ⟨fun ⟨w, hw⟩ => ?_, fun ⟨hp, hc⟩ => ⟨0, (h.leaves c 0 x).2 ⟨rfl, mem_allSymbols x, hp, hc⟩⟩⟩
  obtain ⟨-, -, hp, hc⟩ := (h.leaves c w x).1 hw
  exact ⟨hp, hc⟩

/-- The trie is empty exactly for a table without codes. -/
theorem TrieOf.eq_none_iff : n = .none ↔ ∀ x, (codeOf s x).present = false := by
  constructor
  · rintro rfl x
    by_contra hp
    obtain ⟨w, hw⟩ := leaf_of_present h.leavesAreCodes (Bool.eq_true_of_not_eq_false hp)
    rw [followPath_none] at hw
    cases hw
  · intro habsent
    by_contra hn
    obtain ⟨c, w, x, hleaf⟩ := exists_leaf_of_live h.live hn
    obtain ⟨hp, -⟩ := (h.leavesAreCodes c x).1 ⟨w, hleaf⟩
    rw [habsent x] at hp
    cases hp

end

/-- REBUILD that ends without error has made the trie of the table. -/
theorem exec_rebuild_success {s t : State} (h : exec .rebuild s = .next t) (herr : t.err = false) :
    ∃ n, TrieOf s.codes allSymbols n
      ∧ t = { s with ts := treeOfSlot n, total := 0, busy := false, done := true } := by
  rcases runRebuild_cases s with ⟨x, l₁, l₂, -, -, -, hraised⟩ | ⟨n, htrie, -, hok⟩
  · rw [exec_of_raised (i := .rebuild) hraised] at h
    cases h
    cases herr
  · rw [exec_of_ok (i := .rebuild) hok] at h
    cases h
    exact ⟨n, htrie, rfl⟩

/-- Settles O22: the insertions stop at the first symbol up to which there is a conflict, or make the trie. -/
theorem rebuildFailsExactlyOnPrefixConflicts : Obligations.RebuildFailsExactlyOnPrefixConflicts := by
  unfold Obligations.RebuildFailsExactlyOnPrefixConflicts
  refine ⟨fun s x hx hleast => ?conflict, fun s hnone => ?free⟩
  case conflict =>
    rcases runRebuild_cases s with ⟨z, l₁, l₂, hsplit, hbefore, hat, hraised⟩ | ⟨n, -, hfree, -⟩
    · have hz : conflictUpTo s z := conflictUpTo_of_conflictIn hat fun a => (mem_upTo_iff hsplit a).1
      have hxz : ¬ x.toNat < z.toNat := fun hlt => hbefore
        (conflictIn_of_conflictUpTo hx fun a ha => (mem_before_iff hsplit a).2 (Nat.lt_of_le_of_lt ha hlt))
      have hzx : ¬ z.toNat < x.toNat := fun hlt => hleast z hlt hz
      obtain rfl : z = x := BitVec.eq_of_toNat_eq (by omega)
      exact exec_of_raised (i := .rebuild) hraised
    · exact absurd (conflictIn_of_conflictUpTo hx fun a _ => mem_allSymbols a) hfree
  case free =>
    rcases runRebuild_cases s with ⟨z, l₁, l₂, -, -, hat, -⟩ | ⟨n, htrie, -, hok⟩
    · exact absurd (conflictUpTo_of_conflictIn (x := 0xFF) hat fun a _ => Nat.le_of_lt_succ a.isLt) hnone
    · refine ⟨_, exec_of_ok (i := .rebuild) hok, rfl, fun habsent => ?_, fun ⟨x, hx⟩ => ?_⟩
      · rw [htrie.eq_none_iff.2 habsent]
        rfl
      · have hn : n ≠ .none := fun he => by
          rw [htrie.eq_none_iff.1 he x] at hx
          cases hx
        exact ⟨n, treeOfSlot_of_ne_none hn, (treeStateOk_rebuilt htrie).1, htrie.leavesAreCodes⟩

/-! ## DERIVE after REBUILD (R152) -/

/-- A legal table without codes is the empty one. -/
theorem codes_eq_emptyCodes {s : State} (hs : codesOk s) (habsent : ∀ x, (codeOf s x).present = false) :
    s.codes = emptyCodes := codes_ext fun x => by
  rw [entryAt_emptyCodes]
  exact entry_eq_of_codeBits (hs x) entryOk_absent (habsent x) fun hp => by
    rw [← codeOf_eq, habsent x] at hp
    cases hp

/-- Settles O23: the trie and the table read off it hold the same codes, and a legal table is given by its codes. -/
theorem deriveInvertsRebuild : Obligations.DeriveInvertsRebuild := by
  unfold Obligations.DeriveInvertsRebuild
  intro s t u hs _ hrebuild herr hderive
  obtain ⟨n, htrie, ht⟩ := exec_rebuild_success hrebuild herr
  by_cases hn : n = .none
  · have hempty : t.ts = .empty := by rw [ht, hn, treeOfSlot]
    rw [exec_of_ok (i := .derive) (runDerive_of_empty hempty)] at hderive
    cases hderive
    exact (codes_eq_emptyCodes hs (htrie.eq_none_iff.1 hn)).symm
  · have hroot : t.ts = .root n := by rw [ht, treeOfSlot_of_ne_none hn]
    have hok : treeOk t.ts := by
      rw [ht]
      exact (treeStateOk_rebuilt htrie).1
    obtain ⟨-, htable, hleaves⟩ := exec_derive_root hroot hok hderive
    exact codes_eq_of_leavesAreCodes htrie.leavesAreCodes hleaves hs htable

end Sys2Proof.Machine
end

section
/-! PROOFS. ENCODE (43_bit_packer.md R190, R191; 70_reset_and_hazards.md R264): over a run of good bytes, at the first
bad one, and with FLUSH after it. -/

namespace Sys2Proof.Machine

open Sys2Proof.Claims

/-! ## What ENCODE does not read: ARG0 and CNT -/

/-- An append neither reads nor writes ARG0 and CNT. -/
theorem appendBits_counts (c : List Bool) (s : State) (a n : Word) :
    appendBits c { s with arg0 := a, cnt := n } = { appendBits c s with arg0 := a, cnt := n } := by
  induction c generalizing s with
  | nil => rfl
  | cons b c ih =>
    rw [appendBits, appendBits, ← ih]
    unfold putBit
    split <;> rfl

theorem payload_counts (s : State) (a c : Word) (n : Nat) : payload { s with arg0 := a, cnt := c } n = payload s n := by
  induction n with
  | zero => rfl
  | succ n ih =>
    rw [payload, payload, ih]
    rfl

theorem encodable_counts {s : State} {n : Nat} (h : encodable s n) (a c : Word) :
    encodable { s with arg0 := a, cnt := c } n := by
  obtain ⟨ha, hbytes, hroom⟩ := h
  refine ⟨ha, hbytes, ?_⟩
  rw [payload_counts]
  exact hroom

/-- What an append puts in OUT is seen in every state with the same OUT. -/
theorem appended_congr {s t u : State} {p : Nat} {c : List Bool} (h : appended s t p c) (hbuf : u.outBuf = t.outBuf)
    (hdraws : u.draws = t.draws) : appended s u p c := by
  obtain ⟨hbits, hbytes⟩ := h
  have hsame := outByte_congr hbuf hdraws
  exact ⟨fun j => by rw [← hbits j, outBit, outBit, hsame], fun a ha => (hsame a).trans (hbytes a ha)⟩

/-! ## ENCODE of good bytes -/

/-- The state in which ENCODE has done its first `n` bytes. -/
def encodedUpTo (s : State) (n : Nat) : State :=
  { s with ibp := s.ibp + BitVec.ofNat 32 (8 * n)
           obp := s.obp + BitVec.ofNat 32 (payload s n).length
           cnt := BitVec.ofNat 32 n
           outBuf := (appendBits (payload s n) s).outBuf }

theorem encoded_clearCnt (s : State) (n : Nat) : encoded (clearCnt s) n = encodedUpTo s n := by
  have hpayload : payload (clearCnt s) n = payload s n := payload_counts s s.arg0 0 n
  have happend : appendBits (payload s n) (clearCnt s) = { appendBits (payload s n) s with arg0 := s.arg0, cnt := 0 } :=
    appendBits_counts _ s s.arg0 0
  rw [encoded, hpayload, happend, appendBits_eq]
  simp only [clearCnt_ibp, clearCnt_cnt, encodedUpTo, BitVec.ofNat_eq_ofNat, BitVec.zero_add]

/-- ARG0 counts the symbols and has no other part in ENCODE. -/
theorem encodedUpTo_arg0 (s : State) (a : Word) (n : Nat) :
    encodedUpTo { s with arg0 := a } n = { encodedUpTo s n with arg0 := a } := by
  have hpayload : payload { s with arg0 := a } n = payload s n := payload_counts s a s.cnt n
  have happend : appendBits (payload s n) { s with arg0 := a }
      = { appendBits (payload s n) s with arg0 := a, cnt := s.cnt } := appendBits_counts _ s a s.cnt
  simp only [encodedUpTo, hpayload, happend]

section
variable {s : State} {n : Nat} (hl : s.cfg.legal = true) (h : encodable s n)
include hl h

/-- OBP moves past a payload that fits without wrapping. -/
theorem obp_add_payload_lt : s.obp.toNat + (payload s n).length < 2 ^ 32 := by
  have hsizes := legal_sizes hl
  obtain ⟨-, -, hroom⟩ := h
  omega

theorem encodedUpTo_obp : (encodedUpTo s n).obp.toNat = s.obp.toNat + (payload s n).length :=
  toNat_add_ofNat (obp_add_payload_lt hl h)

theorem appended_encodedUpTo : appended s (encodedUpTo s n) s.obp.toNat (payload s n) :=
  appended_congr (appended_appendBits (obp_add_payload_lt hl h)) rfl (appendBits_draws (payload s n) s).symm

variable (hp : pointersOk s)
include hp

/-- After `n` good bytes ENCODE goes on from `encodedUpTo s n`. -/
theorem runEncode_of_encodable {m : Nat} (hcount : s.arg0.toNat = n + m) :
    runEncode s = encodeLoop m (encodedUpTo s n) := by
  have hstart : encodable (clearCnt s) n := encodable_counts h s.arg0 0
  obtain ⟨ha, -⟩ := h
  rw [runEncode, if_neg (not_not_intro ha), hcount, encodeLoop_encoded (s := clearCnt s) hl hp hstart, encoded_clearCnt]

/-- IBP inside its bound moves past `n` bytes inside IN_LEN without wrapping. -/
theorem encodedUpTo_ibp : (encodedUpTo s n).ibp.toNat = s.ibp.toNat + 8 * n := by
  have hsizes := legal_sizes hl
  obtain ⟨hlen, hibp, -⟩ := hp
  obtain ⟨-, hbytes, -⟩ := h
  refine toNat_add_ofNat ?_
  rcases n with _ | k
  · omega
  · obtain ⟨hlast, -⟩ := hbytes k (Nat.lt_succ_self k)
    omega

end

/-- ENCODE of ARG0 good bytes completes in the state that has done all of them. -/
theorem exec_encode_of_encodable {s : State} {n : Nat} (hl : s.cfg.legal = true) (h : encodable s n)
    (hp : pointersOk s) (hcount : s.arg0.toNat = n) :
    exec .encode s = .next { encodedUpTo s n with busy := false, done := true } :=
  exec_of_ok (i := .encode) (runEncode_of_encodable hl h hp (m := 0) hcount)

/-- Settles O27: the loop reaches its end with all bytes done. -/
theorem encodeAppendsEveryCode : Obligations.EncodeAppendsEveryCode := by
  unfold Obligations.EncodeAppendsEveryCode
  intro s hl hp h
  refine ⟨_, exec_encode_of_encodable hl h hp rfl, ?frame, encodedUpTo_ibp hl h hp, encodedUpTo_obp hl h,
    appended_congr (appended_encodedUpTo hl h) rfl rfl⟩
  case frame => simp only [encodedUpTo, BitVec.ofNat_toNat, BitVec.setWidth_eq]

/-! ## ENCODE at its first bad byte (R264) -/

section
variable {s : State} {m : Nat}

theorem encodeLoop_of_truncated (h : s.ibp.toNat / 8 ≥ s.inLen.toNat) :
    encodeLoop (m + 1) s = .raised .trunc s.ibp s := by
  rw [encodeLoop, if_pos h]

variable (hin : s.ibp.toNat / 8 < s.inLen.toNat)
include hin

theorem encodeLoop_of_absent (h : (codeOf s (inByte s (s.ibp.toNat / 8))).present = false) :
    encodeLoop (m + 1) s = .raised .nocode (symbolInfo (inByte s (s.ibp.toNat / 8))) s := by
  rw [encodeLoop, if_neg (Nat.not_le.2 hin)]
  exact if_pos h

theorem encodeLoop_of_overflow (hpres : (codeOf s (inByte s (s.ibp.toNat / 8))).present = true)
    (h : fits s (codeOf s (inByte s (s.ibp.toNat / 8))).cl.toNat = false) :
    encodeLoop (m + 1) s = .raised .outovf s.obp s := by
  rw [encodeLoop, if_neg (Nat.not_le.2 hin)]
  exact (if_neg (by simp [hpres])).trans (if_pos h)

end

theorem fits_eq_false_iff {s : State} {len : Nat} :
    fits s len = false ↔ len ≠ 0 ∧ 8 * s.cfg.outSize < s.obp.toNat + len := by
  rw [fits, decide_eq_false_iff_not]
  omega

/-- Settles O28: ENCODE of `k` bytes and ENCODE of more have the same state after `k` bytes, and there the first failing
check ends the loop. -/
theorem encodeErrorsKeepTheSymbolsBefore : Obligations.EncodeErrorsKeepTheSymbolsBefore := by
  unfold Obligations.EncodeErrorsKeepTheSymbolsBefore
  refine ⟨fun s ha => ?align, fun s t k hl hp hk h ht => ?_⟩
  case align => exact exec_of_raised (i := .encode) (if_pos ha)
  have hshort : (BitVec.ofNat 32 k).toNat = k := by
    have hlt := s.arg0.isLt
    rw [BitVec.toNat_ofNat, Nat.mod_eq_of_lt (by omega)]
  have hprefix : encodable { s with arg0 := BitVec.ofNat 32 k } k := encodable_counts h _ s.cnt
  rw [exec_encode_of_encodable (s := { s with arg0 := BitVec.ofNat 32 k }) hl hprefix hp hshort, encodedUpTo_arg0] at ht
  cases ht
  have hrun : runEncode s = encodeLoop (s.arg0.toNat - k - 1 + 1) (encodedUpTo s k) :=
    runEncode_of_encodable hl h hp (by omega)
  have hfail : ∀ {e v}, encodeLoop (s.arg0.toNat - k - 1 + 1) (encodedUpTo s k) = .raised e v (encodedUpTo s k) →
      exec .encode s = .next (failed e v (encodedUpTo s k)) := fun hloop =>
    exec_of_raised (i := .encode) (hrun.trans hloop)
  have hibp := encodedUpTo_ibp hl h hp
  have hindex : (encodedUpTo s k).ibp.toNat / 8 = s.ibp.toNat / 8 + k := by rw [hibp]; omega
  have hbyte : inByte (encodedUpTo s k) ((encodedUpTo s k).ibp.toNat / 8) = inputAt s k := by rw [hindex]; rfl
  have hin : s.ibp.toNat / 8 + k < s.inLen.toNat →
      (encodedUpTo s k).ibp.toNat / 8 < (encodedUpTo s k).inLen.toNat := fun hlt => hindex.trans_lt hlt
  refine ⟨fun hpast => ?trunc, fun hlt habsent => ?nocode, fun hlt hpres hlen hover => ?outovf⟩
  case trunc => exact hfail (encodeLoop_of_truncated (by rw [hindex]; exact hpast))
  case nocode =>
    have hraised := encodeLoop_of_absent (m := s.arg0.toNat - k - 1) (hin hlt) (by rw [hbyte]; exact habsent)
    rw [hbyte] at hraised
    exact hfail hraised
  case outovf =>
    have hfull : fits (encodedUpTo s k) (codeOf s (inputAt s k)).cl.toNat = false :=
      fits_eq_false_iff.2 ⟨fun h0 => hlen (BitVec.eq_of_toNat_eq h0), hover⟩
    exact hfail (encodeLoop_of_overflow (hin hlt) (by rw [hbyte]; exact hpres) (by rw [hbyte]; exact hfull))

/-! ## FLUSH after an append (R191) -/

/-- The appended bits themselves. -/
theorem appendedBit_inside (s : State) {p j : Nat} {c : List Bool} (hj : j < c.length) :
    appendedBit s p c (p + j) = c.getD j false := by
  rw [appendedBit, if_pos (by omega), Nat.add_sub_cancel_left]

/-- From an aligned position an append fills whole bytes with its bits and then zeros. -/
theorem appendedBit_padded (s : State) {p j : Nat} {c : List Bool} (ha : p % 8 = 0)
    (hj : j < 8 * ((c.length + 7) / 8)) : appendedBit s p c (p + j) = c.getD j false := by
  by_cases hbit : j < c.length
  · exact appendedBit_inside s hbit
  · rw [appendedBit, if_neg (by omega), if_pos (by omega), List.getD_eq_default _ _ (by omega)]

/-- FLUSH after an append at an aligned OBP: OBP past the whole bytes, which hold the bits and then zeros. -/
theorem flush_of_appended {s t u : State} {c : List Bool} (hl : t.cfg.legal = true) (ha : s.obp.toNat % 8 = 0)
    (hbound : t.obp.toNat ≤ 8 * t.cfg.outSize) (hobp : t.obp.toNat = s.obp.toNat + c.length)
    (happ : appended s t s.obp.toNat c) (h : exec .flush t = .next u) :
    u.obp.toNat = s.obp.toNat + 8 * ((c.length + 7) / 8)
      ∧ ∀ j, j < 8 * ((c.length + 7) / 8) → outBit u (s.obp.toNat + j) = c.getD j false := by
  obtain ⟨-, -, hflush⟩ := flushRoundsObpUp
  obtain ⟨v, hv, hframe, hround, -, -⟩ := hflush t hl hbound
  rw [h] at hv
  cases hv
  refine ⟨by rw [hround, hobp]; omega, fun j hj => ?_⟩
  obtain ⟨hbits, -⟩ := appended_congr (u := u) happ (by rw [hframe]) (by rw [hframe])
  rw [hbits, appendedBit_padded s ha hj]

/-- Settles O29: ENCODE appends its payload and PUTCODE its code, and FLUSH rounds OBP up. -/
theorem flushedPayloadIsZeroPadded : Obligations.FlushedPayloadIsZeroPadded := by
  unfold Obligations.FlushedPayloadIsZeroPadded
  refine ⟨fun s t u hl hp ha h hencode hflush => ?encode, fun s t u x hl hp ha hpres hroom hputcode hflush => ?putcode⟩
  case encode =>
    rw [exec_encode_of_encodable hl h hp rfl] at hencode
    cases hencode
    have hobp := encodedUpTo_obp hl h
    have happ := appended_encodedUpTo hl h
    obtain ⟨-, -, hroom⟩ := h
    exact flush_of_appended (t := { encodedUpTo s _ with busy := false, done := true }) hl ha (hobp.trans_le hroom) hobp
      (appended_congr happ rfl rfl) hflush
  case putcode =>
    have hf : fits s (codeOf s x).cl.toNat = true := by
      rw [fits, decide_eq_true_iff]
      omega
    have hlt := obp_add_codeBits_lt hl hf
    have hobp := appendBits_obp_toNat hlt
    rw [exec_of_ok (i := .putcode x) (runPutcode_of_fits hpres hf)] at hputcode
    cases hputcode
    rw [← codeBits_length] at hroom ⊢
    refine flush_of_appended (t := { appendCode x s with busy := false, done := true })
      (by rw [appendCode_eq]; exact hl) ha ?_ hobp (appended_congr (appended_appendBits hlt) rfl rfl) hflush
    rw [appendCode_eq]
    exact hobp.trans_le hroom

end Sys2Proof.Machine
end

section
/-! PROOFS. DECODE (44_bit_unpacker.md R210 to R212; 70_reset_and_hazards.md R264): its first checks, a run of good
symbols, the first bad one, and the payload read back. -/

namespace Sys2Proof.Machine

open Sys2Proof.Claims

/-! ## Before the first symbol -/

theorem treeValid_iff {s : State} : treeValid s = true ↔ s.ts ≠ .invalid := by
  cases h : s.ts <;> simp [treeValid, h]

section
variable {s : State} (hvalid : s.ts ≠ .invalid)
include hvalid

theorem runDecode_of_unaligned (h : s.obp.toNat % 8 ≠ 0) : runDecode s = .raised .align s.obp (clearCnt s) := by
  rw [runDecode, treeValid_iff.2 hvalid, Bool.not_true, if_neg Bool.false_ne_true, if_pos h]

theorem runDecode_of_aligned (h : s.obp.toNat % 8 = 0) :
    runDecode s = decodeLoop s.arg0.toNat (clearCnt s) := by
  rw [runDecode, treeValid_iff.2 hvalid, Bool.not_true, if_neg Bool.false_ne_true, if_neg (not_not_intro h)]

end

/-! ## The loop at a symbol it cannot finish -/

section
variable {s : State} {m : Nat}

theorem decodeLoop_of_full (h : s.obp.toNat / 8 ≥ s.cfg.outSize) :
    decodeLoop (m + 1) s = .raised .outovf s.obp s := by
  rw [decodeLoop, if_pos h]

variable (hroom : s.obp.toNat / 8 < s.cfg.outSize)
include hroom

theorem decodeLoop_of_empty (hts : s.ts = .empty) : decodeLoop (m + 1) s = .raised .badcode s.ibp s := by
  rw [decodeLoop, if_neg (Nat.not_le.2 hroom), hts]

variable {n : Slot} (hts : s.ts = .root n)
include hts

theorem decodeLoop_of_trunc {p : Nat} (h : walkBits s n s.ibp.toNat = .trunc p) :
    decodeLoop (m + 1) s = .raised .trunc (BitVec.ofNat 32 p) s := by
  rw [decodeLoop, if_neg (Nat.not_le.2 hroom), hts]
  simp only [h]

theorem decodeLoop_of_missing {p : Nat} (h : walkBits s n s.ibp.toNat = .missing p) :
    decodeLoop (m + 1) s = .raised .badcode (BitVec.ofNat 32 p) s := by
  rw [decodeLoop, if_neg (Nat.not_le.2 hroom), hts]
  simp only [h]

end

/-- Settles O33: one case of the body of DECODE for each check; with the empty tree the loop ends at once. -/
theorem decodeChecksBeforeTheFirstSymbol : Obligations.DecodeChecksBeforeTheFirstSymbol := by
  unfold Obligations.DecodeChecksBeforeTheFirstSymbol
  intro s
  have hsome : s.arg0 ≠ 0 → ∃ m, s.arg0.toNat = m + 1 := fun h =>
    Nat.exists_eq_succ_of_ne_zero fun h0 => h (BitVec.eq_of_toNat_eq h0)
  have hempty : s.ts = .empty → s.ts ≠ .invalid := fun he hi => by
    rw [he] at hi
    cases hi
  refine ⟨fun hts => ?seq, fun hts ha => ?align, fun hts ha h0 => ?nothing, fun hts ha h0 hfull => ?outovf,
    fun hts ha h0 hroom => ?badcode⟩
  case seq => exact exec_of_raised (i := .decode) (runDecode_of_invalid hts)
  case align => exact exec_of_raised (i := .decode) (runDecode_of_unaligned hts ha)
  case nothing =>
    have hrun := runDecode_of_aligned hts ha
    rw [h0] at hrun
    exact exec_of_ok (i := .decode) hrun
  case outovf =>
    obtain ⟨m, hm⟩ := hsome h0
    have hrun := runDecode_of_aligned (hempty hts) ha
    rw [hm] at hrun
    exact exec_of_raised (i := .decode) (hrun.trans (decodeLoop_of_full (s := clearCnt s) hfull))
  case badcode =>
    obtain ⟨m, hm⟩ := hsome h0
    have hrun := runDecode_of_aligned (hempty hts) ha
    rw [hm] at hrun
    exact exec_of_raised (i := .decode) (hrun.trans (decodeLoop_of_empty (s := clearCnt s) hroom hts))

/-! ## A run of good symbols (R210, R211) -/

/-- The state in which DECODE has done the symbols `ys`, whose codes are `cs`. -/
def decodedUpTo (ys : List Symbol) (cs : List (List Bool)) (s : State) : State := decoded ys cs (clearCnt s)

theorem decoded_arg0 (ys : List Symbol) (cs : List (List Bool)) (s : State) (a : Word) :
    decoded ys cs { s with arg0 := a } = { decoded ys cs s with arg0 := a } := by
  induction ys generalizing cs s with
  | nil => rfl
  | cons y ys ih =>
    cases cs with
    | nil => rfl
    | cons c cs => exact ih cs (decodeOne y (s.ibp.toNat + c.length) s)

/-- ARG0 counts the symbols and has no other part in DECODE. -/
theorem decodedUpTo_arg0 (ys : List Symbol) (cs : List (List Bool)) (s : State) (a : Word) :
    decodedUpTo ys cs { s with arg0 := a } = { decodedUpTo ys cs s with arg0 := a } :=
  decoded_arg0 ys cs (clearCnt s) a

/-- The tree and the streams of a DECODE that does the symbols `ys`, whose codes are `cs`, without error. -/
structure Decodable (s : State) (n : Slot) (ys : List Symbol) (cs : List (List Bool)) : Prop where
  legal : s.cfg.legal = true
  pointers : pointersOk s
  tree : s.ts = .root n
  aligned : s.obp.toNat % 8 = 0
  room : s.obp.toNat / 8 + ys.length ≤ s.cfg.outSize
  paths : pathsOf n ys cs
  input : inputBits s s.ibp.toNat cs.flatten

section
variable {s : State} {n : Slot} {ys : List Symbol} {cs : List (List Bool)} (h : Decodable s n ys cs)
include h

/-- After the symbols `ys` DECODE goes on from `decodedUpTo ys cs s`. -/
theorem runDecode_of_decodable {m : Nat} (hcount : s.arg0.toNat = ys.length + m) :
    runDecode s = decodeLoop m (decodedUpTo ys cs s) := by
  obtain ⟨hlen, hibp, -⟩ := h.pointers
  obtain ⟨hloop, -⟩ := decodeLoop_decoded (s := clearCnt s) h.paths h.legal hlen hibp h.tree h.aligned h.room h.input
  have hvalid : s.ts ≠ .invalid := by
    rw [h.tree]
    exact TreeState.noConfusion
  rw [runDecode_of_aligned hvalid h.aligned, hcount, hloop, decodedUpTo]

/-- DECODE writes IBP, OBP, CNT and OUT alone. -/
theorem decodedUpTo_frame : decodedUpTo ys cs s = { s with
    ibp := (decodedUpTo ys cs s).ibp, obp := (decodedUpTo ys cs s).obp, cnt := BitVec.ofNat 32 ys.length,
    outBuf := (decodedUpTo ys cs s).outBuf } := by
  obtain ⟨hlen, hibp, -⟩ := h.pointers
  obtain ⟨-, hframe, -⟩ :=
    decodeLoop_decoded (s := clearCnt s) h.paths h.legal hlen hibp h.tree h.aligned h.room h.input
  rw [clearCnt_cnt, BitVec.ofNat_eq_ofNat, BitVec.zero_add] at hframe
  exact hframe

/-- IBP stands after the last code bit, OBP after the last byte, and the bytes between are the symbols. -/
theorem decodedUpTo_streams : (decodedUpTo ys cs s).ibp.toNat = s.ibp.toNat + cs.flatten.length
    ∧ (decodedUpTo ys cs s).obp.toNat = s.obp.toNat + 8 * ys.length
    ∧ (∀ k, k < ys.length → outByte (decodedUpTo ys cs s) (s.obp.toNat / 8 + k) = ys.getD k 0)
    ∧ ∀ a, (a < s.obp.toNat / 8 ∨ s.obp.toNat / 8 + ys.length ≤ a) →
        outByte (decodedUpTo ys cs s) a = outByte s a := by
  obtain ⟨hlen, hibp, -⟩ := h.pointers
  obtain ⟨-, -, hstreams⟩ :=
    decodeLoop_decoded (s := clearCnt s) h.paths h.legal hlen hibp h.tree h.aligned h.room h.input
  exact hstreams

/-- DECODE of ARG0 good symbols completes in the state that has done all of them. -/
theorem exec_decode_of_decodable (hcount : s.arg0.toNat = ys.length) :
    exec .decode s = .next { decodedUpTo ys cs s with busy := false, done := true } :=
  exec_of_ok (i := .decode) (runDecode_of_decodable h (m := 0) hcount)

end

/-- Settles O32: the loop reaches its end with all symbols done. -/
theorem decodeWalksTheTree : Obligations.DecodeWalksTheTree := by
  unfold Obligations.DecodeWalksTheTree
  intro s n ys cs hl hp hts ha hcount hroom hpaths hbits
  have h : Decodable s n ys cs := ⟨hl, hp, hts, ha, hroom, hpaths, hbits⟩
  refine ⟨_, exec_decode_of_decodable h hcount, ?frame, decodedUpTo_streams h⟩
  case frame =>
    have hcnt : BitVec.ofNat 32 ys.length = s.arg0 := by rw [← hcount, BitVec.ofNat_toNat, BitVec.setWidth_eq]
    rw [decodedUpTo_frame h, hcnt]

/-! ## The first bad symbol (R264) -/

/-- Settles O34: DECODE of the good symbols and DECODE of more have the same state after them, and there the loop ends
with a full OUT or where the walk of the next symbol ends. -/
theorem decodeErrorsKeepTheSymbolsBefore : Obligations.DecodeErrorsKeepTheSymbolsBefore := by
  unfold Obligations.DecodeErrorsKeepTheSymbolsBefore
  intro s t n ys cs hl hp hts ha hcount hroom hpaths hbits ht
  have h : Decodable s n ys cs := ⟨hl, hp, hts, ha, hroom, hpaths, hbits⟩
  have hshort : (BitVec.ofNat 32 ys.length).toNat = ys.length := by
    have hlt := s.arg0.isLt
    rw [BitVec.toNat_ofNat, Nat.mod_eq_of_lt (by omega)]
  have hprefix : Decodable { s with arg0 := BitVec.ofNat 32 ys.length } n ys cs :=
    ⟨hl, hp, hts, ha, hroom, hpaths, hbits⟩
  rw [exec_decode_of_decodable hprefix hshort, decodedUpTo_arg0] at ht
  cases ht
  have hrun : runDecode s = decodeLoop (s.arg0.toNat - ys.length - 1 + 1) (decodedUpTo ys cs s) :=
    runDecode_of_decodable h (by omega)
  have harg : decodedUpTo ys cs s = { decodedUpTo ys cs s with arg0 := s.arg0 } := decodedUpTo_arg0 ys cs s s.arg0
  have hfail : ∀ {e v}, decodeLoop (s.arg0.toNat - ys.length - 1 + 1) (decodedUpTo ys cs s)
      = .raised e v (decodedUpTo ys cs s) →
      exec .decode s = .next (failed e v { decodedUpTo ys cs s with arg0 := s.arg0 }) := fun {e v} hloop =>
    (exec_of_raised (i := .decode) (hrun.trans hloop)).trans (congrArg (fun u => Host.Outcome.next (failed e v u)) harg)
  have hframe := decodedUpTo_frame h
  have hcfg : (decodedUpTo ys cs s).cfg = s.cfg := by rw [hframe]
  have htree : (decodedUpTo ys cs s).ts = .root n := by rw [hframe, hts]
  have hlen : (decodedUpTo ys cs s).inLen = s.inLen := by rw [hframe]
  have hinput : ∀ {p c}, inputBits s p c → inputBits (decodedUpTo ys cs s) p c :=
    inputBits_congr (by rw [hframe]) (by rw [hframe]) hlen
  refine ⟨fun hfull => ?outovf, fun hspace c w l r hnode hcode hpast => ?trunc,
    fun hspace c b w l r hnode hnone hcode => ?badcode⟩
  case outovf => exact hfail (decodeLoop_of_full (by rw [hcfg]; exact hfull))
  case trunc =>
    exact hfail (decodeLoop_of_trunc (by rw [hcfg]; exact hspace) htree
      (walkBits_trunc hnode (hinput hcode) (by rw [hlen]; exact hpast)))
  case badcode =>
    exact hfail (decodeLoop_of_missing (by rw [hcfg]; exact hspace) htree
      (walkBits_missing hnode hnone (hinput hcode)))

/-! ## The payload read back (R212) -/

/-- BUILD and then DERIVE leave the input, the pointers and ARG0. -/
theorem build_derive_frame {s s₁ s₂ : State} (hbuild : exec .build s = .next s₁)
    (hderive : exec .derive s₁ = .next s₂) : s₂.cfg = s.cfg ∧ s₂.arg0 = s.arg0 ∧ s₂.inLen = s.inLen
      ∧ s₂.ibp = s.ibp ∧ s₂.obp = s.obp ∧ ∀ a, inByte s₂ a = inByte s a := by
  have hframe := eachCommandWritesOnlyItsState
  obtain ⟨⟨hcfg₁, -, -, -, harg₁, hlen₁, -⟩, hin₁, -, -, -, -, -, hibp₁, hobp₁, -⟩ := hframe _ _ _ hbuild
  obtain ⟨⟨hcfg₂, -, -, -, harg₂, hlen₂, -⟩, hin₂, -, -, -, -, -, hibp₂, hobp₂, -⟩ := hframe _ _ _ hderive
  exact ⟨hcfg₂.trans hcfg₁, harg₂.trans harg₁, hlen₂.trans hlen₁, (hibp₂ rfl).trans (hibp₁ rfl),
    (hobp₂ rfl).trans (hobp₁ rfl), fun a => (hin₂ a).trans (hin₁ a)⟩

/-- No code of a BUILD tree begins another. -/
theorem not_conflict_of_build_derive {s s₁ s₂ : State} (hbuild : exec .build s = .next s₁)
    (hderive : exec .derive s₁ = .next s₂) (x : Symbol) : ¬ conflictUpTo s₂ x := by
  rintro ⟨a, b, -, -, hab, hpa, hpb, hprefix⟩
  rw [exec_eq] at hbuild
  cases hbuild
  have hts := finish_build_ts s
  have hok := treeOk_builtTree s
  rcases builtTree_spec s with ⟨hempty, -⟩ | ⟨n, hroot, -⟩
  · rw [exec_of_ok (i := .derive) (runDerive_of_empty (hts.trans hempty))] at hderive
    cases hderive
    rw [codeOf_eq, setCodes_codes, entryAt_emptyCodes] at hpa
    cases hpa
  · obtain ⟨-, -, hleaves⟩ := exec_derive_root (hts.trans hroot) (by rw [hts]; exact hok) hderive
    exact not_prefix_of_leavesAreCodes hleaves hab hpa hpb hprefix

/-- The first `m` input bytes. -/
def inputSyms (s : State) (m : Nat) : List Symbol := (List.range m).map (inputAt s)

@[simp] theorem inputSyms_length (s : State) (m : Nat) : (inputSyms s m).length = m := by simp [inputSyms]

theorem inputSyms_getD {s : State} {m k : Nat} (h : k < m) : (inputSyms s m).getD k 0 = inputAt s k := by
  simp [inputSyms, h]

theorem payload_eq_flatten (s : State) (m : Nat) :
    payload s m = ((inputSyms s m).map (fun x => codeBits (codeOf s x))).flatten := by
  induction m with
  | zero => rfl
  | succ m ih => simp [payload, ih, inputSyms, List.range_succ]

/-- The payload of `s` in the input of `d`, whose tree holds the codes of `s`, is there to be decoded. -/
theorem decodable_of_payload {s d : State} {n : Slot} {m : Nat} (hl : d.cfg.legal = true) (hp : pointersOk d)
    (hts : d.ts = .root n) (ha : d.obp.toNat % 8 = 0) (hroom : d.obp.toNat / 8 + m ≤ d.cfg.outSize)
    (hleaves : leavesAreCodes s n) (hpresent : ∀ k, k < m → (codeOf s (inputAt s k)).present = true)
    (hbits : inputBits d d.ibp.toNat (payload s m)) :
    Decodable d n (inputSyms s m) ((inputSyms s m).map (fun x => codeBits (codeOf s x))) where
  legal := hl
  pointers := hp
  tree := hts
  aligned := ha
  room := by rwa [inputSyms_length]
  paths := by
    rw [pathsOf, List.forall₂_map_right_iff, List.forall₂_same]
    intro x hx
    obtain ⟨k, hk, rfl⟩ := List.mem_map.1 hx
    exact leaf_of_present hleaves (hpresent k (List.mem_range.1 hk))
  input := by rwa [← payload_eq_flatten]

/-- DECODE of the payload of `s` gives its input bytes back and stops after the payload. -/
theorem exec_decode_payload {s d : State} {n : Slot} {m : Nat}
    (h : Decodable d n (inputSyms s m) ((inputSyms s m).map (fun x => codeBits (codeOf s x))))
    (hcount : d.arg0.toNat = m) : ∃ d₂, exec .decode d = .next d₂ ∧ d₂.err = d.err ∧ d₂.cnt = d.arg0
      ∧ d₂.ibp.toNat = d.ibp.toNat + (payload s m).length
      ∧ ∀ k, k < m → outByte d₂ (d.obp.toNat / 8 + k) = inputAt s k := by
  have hframe := decodedUpTo_frame h
  obtain ⟨hibp, -, hout, -⟩ := decodedUpTo_streams h
  rw [inputSyms_length] at hframe hout
  refine ⟨_, exec_decode_of_decodable h (by rw [hcount, inputSyms_length]), ?err, ?cnt, ?ibp,
    fun k hk => (hout k hk).trans (inputSyms_getD hk)⟩
  case err => exact (congrArg State.err hframe :)
  case cnt => exact (congrArg State.cnt hframe).trans (by rw [← hcount, BitVec.ofNat_toNat, BitVec.setWidth_eq])
  case ibp => rw [payload_eq_flatten, ← hibp]

/-- DECODE of no symbol, with any tree, moves no pointer. -/
theorem exec_decode_nothing {d : State} (hts : d.ts ≠ .invalid) (ha : d.obp.toNat % 8 = 0)
    (hcount : d.arg0.toNat = 0) :
    ∃ d₂, exec .decode d = .next d₂ ∧ d₂.err = d.err ∧ d₂.cnt = d.arg0 ∧ d₂.ibp = d.ibp := by
  have h0 : d.arg0 = 0 := BitVec.eq_of_toNat_eq hcount
  obtain ⟨-, -, hnothing, -⟩ := decodeChecksBeforeTheFirstSymbol d
  exact ⟨_, hnothing hts ha h0, rfl, h0.symm, rfl⟩

/-- What REBUILD without an error leaves of a block: its streams and ARG0, and the tree of its codes or, without a code,
the empty tree. -/
theorem exec_rebuild_of_not_conflict {d d₁ : State} (hfree : ¬ conflictUpTo d 0xFF) (h : exec .rebuild d = .next d₁) :
    (∃ t, d₁ = { d with ts := t, total := 0, busy := false, done := true })
      ∧ ((∀ x, (codeOf d x).present = false) ∧ d₁.ts = .empty ∨ ∃ n, d₁.ts = .root n ∧ leavesAreCodes d n) := by
  obtain ⟨-, hrebuilt⟩ := rebuildFailsExactlyOnPrefixConflicts
  obtain ⟨t, ht, hframe, hempty, hroot⟩ := hrebuilt d hfree
  rw [h] at ht
  cases ht
  refine ⟨⟨_, hframe⟩, ?_⟩
  by_cases hsome : ∃ x, (codeOf d x).present = true
  · obtain ⟨n, hts, -, hleaves⟩ := hroot hsome
    exact .inr ⟨n, hts, hleaves⟩
  · have hnone : ∀ x, (codeOf d x).present = false := fun x => Bool.eq_false_of_not_eq_true fun hx => hsome ⟨x, hx⟩
    exact .inl ⟨hnone, hempty hnone⟩

/-- What ENCODE has appended, read back from OUT bit by bit. -/
theorem outBit_encodedUpTo {s : State} {n j : Nat} (hl : s.cfg.legal = true) (h : encodable s n)
    (hj : j < (payload s n).length) : outBit (encodedUpTo s n) (s.obp.toNat + j) = (payload s n).getD j false := by
  obtain ⟨hbits, -⟩ := appended_encodedUpTo hl h
  rw [hbits, appendedBit_inside s hj]

/-- Settles O35: the codes make the trie that REBUILD walks, and the payload is the paths of the input bytes' leaves. -/
theorem decodeInvertsEncodeOfThePayload : Obligations.DecodeInvertsEncodeOfThePayload := by
  unfold Obligations.DecodeInvertsEncodeOfThePayload
  intro s s₁ s₂ s₃ d d₁ hl hp hbuild hderive henc hencode hld hpd hcodes harg herr ha hroom hbits hrebuild
  obtain ⟨hcfg₂, harg₂, hlen₂, hibp₂, hobp₂, hin₂⟩ := build_derive_frame hbuild hderive
  have hl₂ : s₂.cfg.legal = true := hcfg₂ ▸ hl
  have hp₂ : pointersOk s₂ := by rw [pointersOk, hcfg₂, hlen₂, hibp₂, hobp₂]; exact hp
  have hat : ∀ k, inputAt s₂ k = inputAt s k := fun k => by rw [inputAt, hibp₂, hin₂, inputAt]
  rw [exec_encode_of_encodable hl₂ henc hp₂ (by rw [harg₂])] at hencode
  cases hencode
  have hinput : inputBits d d.ibp.toNat (payload s₂ s.arg0.toNat) := fun j hj => by
    obtain ⟨hin, hbit⟩ := hbits j hj
    rw [← hobp₂] at hbit
    exact ⟨hin, hbit.trans (outBit_encodedUpTo hl₂ henc hj)⟩
  have hcode : ∀ x, codeOf d x = codeOf s₂ x := fun x => by rw [codeOf_eq, codeOf_eq, hcodes]
  have hfree : ¬ conflictUpTo d 0xFF := by
    simpa only [conflictUpTo, hcode] using not_conflict_of_build_derive hbuild hderive 0xFF
  obtain ⟨-, hbytes, -⟩ := henc
  obtain ⟨⟨t, rfl⟩, ⟨habsent, hts⟩ | ⟨n, hts, hleaves⟩⟩ := exec_rebuild_of_not_conflict hfree hrebuild
  · have hzero : s.arg0.toNat = 0 := by
      by_contra hpos
      obtain ⟨-, hpresent⟩ := hbytes 0 (Nat.pos_of_ne_zero hpos)
      rw [← hcode, habsent] at hpresent
      cases hpresent
    have hvalid : t ≠ .invalid := by
      rw [show t = .empty from hts]
      exact TreeState.noConfusion
    obtain ⟨d₂, hdecode, herr₂, hcnt, hibp⟩ := exec_decode_nothing
      (d := { d with ts := t, total := 0, busy := false, done := true }) hvalid ha (by rw [← hzero, ← harg])
    rw [hzero]
    exact ⟨d₂, hdecode, herr₂.trans herr, hcnt.trans harg, congrArg BitVec.toNat hibp,
      fun k hk => absurd hk (Nat.not_lt_zero k)⟩
  · have h : Decodable { d with ts := t, total := 0, busy := false, done := true } n _ _ :=
      decodable_of_payload (s := s₂) (m := s.arg0.toNat) hld hpd hts ha hroom
        (by simpa only [leavesAreCodes, hcode] using hleaves) (fun k hk => (hbytes k hk).2) hinput
    obtain ⟨d₂, hdecode, herr₂, hcnt, hibp, hout⟩ := exec_decode_payload h (congrArg BitVec.toNat harg)
    exact ⟨d₂, hdecode, herr₂.trans herr, hcnt.trans harg, hibp, fun k hk => (hout k hk).trans (hat k)⟩

end Sys2Proof.Machine
end

section
/-! PROOFS. The registers of the host (10_state.md R23 to R41): STATUS, the plain registers, the counts, the read-back
window, the clamped pointers, and what they read after a hard reset. -/

namespace Sys2Proof.Machine

open Sys2Proof.Claims

/-- A concatenation as a number. -/
theorem toNat_append_eq {m n : Nat} (x : BitVec m) (y : BitVec n) : (x ++ y).toNat = x.toNat * 2 ^ n + y.toNat := by
  rw [BitVec.toNat_append, ← Nat.shiftLeft_add_eq_or_of_lt y.isLt, Nat.shiftLeft_eq]

/-! ## STATUS (R26) -/

theorem treeValid_eq_decide (s : State) : treeValid s = decide (s.ts ≠ .invalid) := by
  rw [Bool.eq_iff_iff, treeValid_iff, decide_eq_true_iff]

/-- STATUS as a number, field by field; the reserved bits add nothing. -/
theorem statusWord_toNat (s : State) : (statusWord s).toNat = s.busy.toNat + 2 * s.done.toNat + 4 * s.err.toNat
    + 8 * (decide (s.ts ≠ .invalid)).toNat + 16 * s.haz.toNat + 0x100 * (errorNumber s.errcode).toNat := by
  simp only [statusWord, toNat_append_eq, BitVec.toNat_ofBool, treeValid_eq_decide, BitVec.toNat_ofNat]
  omega

/-- Settles O39: STATUS is read whatever BUSY is, and a write of it is `writeStatus`. -/
theorem statusFieldsAndWriteOneToClear : Obligations.StatusFieldsAndWriteOneToClear := by
  unfold Obligations.StatusFieldsAndWriteOneToClear
  refine ⟨fun s => ⟨readValue_of_readableWhileBusy s rfl, statusWord_toNat s⟩,
    ⟨rfl, rfl, rfl, rfl, rfl, rfl, rfl, rfl, rfl, rfl⟩, fun s v => ⟨_, hostWrite_status v s, rfl, ?done, ?haz⟩⟩
  case done => rw [writeStatus, Bool.and_eq_true, Bool.not_eq_true']
  case haz => rw [writeStatus, Bool.and_eq_true, Bool.not_eq_true']

/-! ## The plain registers (R23, R24, R27 to R30, R36 to R38) -/

/-- With BUSY = 0 a register reads its value. -/
theorem readValue_reg_of_idle {s : State} (r : Reg) (hb : s.busy = false) : readValue s (.reg r) = regValue s r :=
  readValue_of_idle _ hb

theorem readValue_freq_of_idle {s : State} (x : Symbol) (hb : s.busy = false) : readValue s (.freq x) = freqOf s x :=
  readValue_of_idle _ hb

/-- The two TOTAL registers together hold the 40 bits of TOTAL (R36). -/
theorem total_of_halves (s : State) : (totalHi s).toNat * 2 ^ 32 + (totalLo s).toNat = s.total.toNat := by
  have hlt := s.total.isLt
  simp only [totalHi, totalLo, toNat_append_eq, BitVec.extractLsb'_toNat, Nat.shiftRight_eq_div_pow,
    BitVec.toNat_ofNat]
  omega

/-- A write of an RO register has no effect while BUSY = 0 (R23). -/
theorem writeReg_of_readOnly {r : Reg} (v : Word) (s : State) (h : readOnly r) : writeReg r v s = s := by
  cases r
  case ctrl => simp [readOnly] at h
  case status => simp [readOnly] at h
  case cmd => simp [readOnly] at h
  case arg0 => simp [readOnly] at h
  case inLen => simp [readOnly] at h
  case ibp => simp [readOnly] at h
  case obp => simp [readOnly] at h
  case codeSel => simp [readOnly] at h
  all_goals rfl

/-- Settles O41: with BUSY = 0 a read gives the location's value and a write is that of its location. -/
theorem plainRegistersReadBack : Obligations.PlainRegistersReadBack := by
  unfold Obligations.PlainRegistersReadBack
  refine ⟨fun s v hb => ?arg0, fun s x v hb => ?freq, fun s x hb => readValue_freq_of_idle x hb, fun s hb => ?res,
    fun s hb => ?total, fun s hb => ?fields, fun s v hb r hro => ?readOnly⟩
  case arg0 =>
    rw [hostWrite_of_idle _ v hb]
    exact ⟨rfl, readValue_reg_of_idle .arg0 hb⟩
  case freq =>
    have hread : ∀ y, readValue (setFreq x v s) (.freq y) = if y = x then v else freqOf s y := fun y =>
      (readValue_freq_of_idle (s := setFreq x v s) y hb).trans (freqOf_setFreq s x y v)
    refine ⟨_, hostWrite_of_idle _ v hb, rfl, (hread x).trans (if_pos rfl), fun y hy => ?_⟩
    exact (hread y).trans ((if_neg hy).trans (readValue_freq_of_idle y hb).symm)
  case res =>
    have hlt := s.res.isLt
    rw [readValue_reg_of_idle _ hb, regValue, BitVec.toNat_setWidth, Nat.mod_eq_of_lt (by omega)]
  case total =>
    rw [readValue_reg_of_idle _ hb, readValue_reg_of_idle _ hb]
    exact total_of_halves s
  case fields =>
    exact ⟨readValue_reg_of_idle _ hb, readValue_reg_of_idle _ hb, readValue_reg_of_idle _ hb,
      readValue_reg_of_idle _ hb⟩
  case readOnly => exact (hostWrite_of_idle _ v hb).trans (writeReg_of_readOnly v s hro)

/-! ## The counts (R32, R35) -/

theorem allSymbols_eq_finRange : allSymbols = (List.finRange 256).map (fun k => (⟨k⟩ : Symbol)) := by
  rw [allSymbols, ← List.map_coe_finRange_eq_range, List.map_map]
  refine List.map_congr_left fun k _ => BitVec.eq_of_toNat_eq ?_
  simp

/-- NCODE counts each present entry once. -/
theorem ncode_eq_card (s : State) :
    ncode s = (Finset.univ.filter (fun k : Fin 256 => (codeOf s ⟨k⟩).present = true)).card := by
  rw [ncode, allSymbols_eq_finRange, List.filter_map, List.length_map,
    ← List.toFinset_card_of_nodup ((List.nodup_finRange 256).filter _)]
  congr 1
  ext k
  simp

theorem ncode_le (s : State) : ncode s ≤ 256 := (List.length_filter_le _ _).trans_eq allSymbols_length

/-- MAXLEN's fold over the symbols, entry by entry. -/
def maxClStep (s : State) (m : Nat) (x : Symbol) : Nat :=
  if (codeOf s x).present then max m (codeOf s x).cl.toNat else m

theorem le_maxClStep (s : State) (m : Nat) (x : Symbol) : m ≤ maxClStep s m x := by
  unfold maxClStep
  split
  · exact le_max_left _ _
  · exact le_refl m

/-- The fold is at least its start and each present CL of the list, and it is one of them. -/
theorem foldl_maxClStep (s : State) (l : List Symbol) (m : Nat) :
    m ≤ l.foldl (maxClStep s) m
      ∧ (∀ x ∈ l, (codeOf s x).present = true → (codeOf s x).cl.toNat ≤ l.foldl (maxClStep s) m)
      ∧ (l.foldl (maxClStep s) m = m
        ∨ ∃ x ∈ l, (codeOf s x).present = true ∧ (codeOf s x).cl.toNat = l.foldl (maxClStep s) m) := by
  induction l generalizing m with
  | nil => exact ⟨le_refl m, fun x hx => absurd hx List.not_mem_nil, .inl rfl⟩
  | cons y l ih =>
    obtain ⟨hstart, hall, hone⟩ := ih (maxClStep s m y)
    refine ⟨(le_maxClStep s m y).trans hstart, fun x hx hp => ?_, ?_⟩
    · rcases List.mem_cons.1 hx with rfl | hx
      · refine le_trans ?_ hstart
        rw [maxClStep, if_pos hp]
        exact le_max_right _ _
      · exact hall x hx hp
    · rcases hone with hsame | ⟨x, hx, hxp⟩
      · rw [List.foldl_cons, hsame]
        by_cases hp : (codeOf s y).present = true
        · rcases max_choice m (codeOf s y).cl.toNat with hmax | hmax
          · exact .inl (by rw [maxClStep, if_pos hp, hmax])
          · exact .inr ⟨y, List.mem_cons_self, hp, by rw [maxClStep, if_pos hp, hmax]⟩
        · exact .inl (by rw [maxClStep, if_neg hp])
      · exact .inr ⟨x, List.mem_cons_of_mem y hx, hxp⟩

/-- MAXLEN is at least every present CL, and 0 or one of them. -/
theorem maxlen_spec (s : State) : (∀ x, (codeOf s x).present = true → (codeOf s x).cl.toNat ≤ maxlen s)
    ∧ (maxlen s = 0 ∨ ∃ x, (codeOf s x).present = true ∧ (codeOf s x).cl.toNat = maxlen s) := by
  obtain ⟨-, hall, hone⟩ := foldl_maxClStep s allSymbols 0
  exact ⟨fun x => hall x (mem_allSymbols x), hone.imp_right fun ⟨x, _, hx⟩ => ⟨x, hx⟩⟩

theorem maxlen_lt (s : State) : maxlen s < 256 := by
  rcases (maxlen_spec s).2 with hzero | ⟨x, -, hx⟩
  · omega
  · rw [← hx]
    exact (codeOf s x).cl.isLt

/-- A number of at most 256 fits a register. -/
theorem toNat_ofNat_of_le {n : Nat} (h : n ≤ 256) : (BitVec.ofNat 32 n).toNat = n := by
  rw [BitVec.toNat_ofNat, Nat.mod_eq_of_lt (by omega)]

/-- A legal tree has 1 to 256 leaves. -/
theorem leafSyms_length_of_treeOk {n : Slot} (h : treeOk (.root n)) :
    1 ≤ (leafSyms n).length ∧ (leafSyms n).length ≤ 256 := by
  obtain ⟨hn, hlive, hnodup, -⟩ := h
  obtain ⟨c, w, x, hleaf⟩ := exists_leaf_of_live hlive hn
  exact ⟨List.length_pos_of_mem (mem_leafSyms.2 ⟨c, w, hleaf⟩), length_le_of_nodup hnodup⟩

/-- Settles O42: each count is at most 256, so its register holds it whole. -/
theorem countRegistersCountTheTables : Obligations.CountRegistersCountTheTables := by
  unfold Obligations.CountRegistersCountTheTables
  refine ⟨fun s => ⟨ncode_eq_card s, ncode_le s⟩, maxlen_spec, fun s hb => ⟨?ncode, ?maxlen⟩, fun s hb hts => ?noRoot,
    fun s n hts hok => ?root⟩
  case ncode => rw [readValue_reg_of_idle _ hb, regValue, toNat_ofNat_of_le (ncode_le s)]
  case maxlen => rw [readValue_reg_of_idle _ hb, regValue, toNat_ofNat_of_le (maxlen_lt s).le]
  case noRoot =>
    have hzero : nleaf s = 0 := by rcases hts with hts | hts <;> rw [nleaf, hts]
    rw [readValue_reg_of_idle _ hb, regValue, hzero]
    rfl
  case root =>
    have hleaves : nleaf s = (leafSyms n).length := by rw [nleaf, hts, leafSyms_length]
    rw [hts] at hok
    obtain ⟨hpos, hmost⟩ := leafSyms_length_of_treeOk hok
    refine ⟨hleaves, hleaves.symm ▸ hpos, hleaves.symm ▸ hmost, fun hb => ?_⟩
    rw [readValue_reg_of_idle _ hb, regValue, hleaves, toNat_ofNat_of_le hmost]

/-! ## The code read-back window (R33) -/

theorem codeInfo_toNat (s : State) : (codeInfo s).toNat
    = 0x100 * (codeOf s s.codeSel).present.toNat + (codeOf s s.codeSel).cl.toNat := by
  simp only [codeInfo, toNat_append_eq, BitVec.toNat_ofBool, BitVec.toNat_ofNat]
  omega

/-- Bit `j` of CODE_WORDk is bit `32k + j` of CW, which has no bit 255. -/
theorem codeWordReg_getLsbD (s : State) {k j : Nat} (hk : k < 8) (hj : j < 32) :
    (codeWordReg s k).getLsbD j = (codeOf s s.codeSel).cw.getLsbD (32 * k + j) := by
  rw [codeWordReg, BitVec.getLsbD_extractLsb', BitVec.getLsbD_setWidth, decide_eq_true hj,
    decide_eq_true (show 32 * k + j < 256 by omega), Bool.true_and, Bool.true_and]

/-- Settles O43: a write of CODE_SEL keeps its low 8 bits, and the window reads the fields of that entry. -/
theorem readBackWindowShowsTheEntry : Obligations.ReadBackWindowShowsTheEntry := by
  unfold Obligations.ReadBackWindowShowsTheEntry
  have hlow : ∀ v : Word, (v.extractLsb' 0 8).toNat = v.toNat % 0x100 := fun v => by
    rw [BitVec.extractLsb'_toNat, Nat.shiftRight_zero]
  refine ⟨fun s v hb => ?select, fun s v hb => hostWrite_of_busy v hb rfl, fun s hb => ?info, fun s k hb j hj => ?word,
    fun s hb => ?top⟩
  case select =>
    rw [hostWrite_of_idle _ v hb]
    refine ⟨⟨_, rfl, rfl, hlow v⟩, ?_⟩
    rw [readValue_reg_of_idle .codeSel (by exact hb), regValue, BitVec.toNat_setWidth]
    show (v.extractLsb' 0 8).toNat % 2 ^ 32 = v.toNat % 0x100
    rw [hlow]
    omega
  case info =>
    rw [readValue_reg_of_idle _ hb]
    exact codeInfo_toNat s
  case word =>
    rw [readValue_reg_of_idle _ hb]
    exact codeWordReg_getLsbD s k.isLt hj
  case top =>
    rw [readValue_reg_of_idle _ hb]
    exact (codeWordReg_getLsbD s (k := 7) (by omega) (by omega)).trans (BitVec.getLsbD_of_ge _ _ (by omega))

/-! ## The clamped pointers (R39 to R41) -/

theorem warl_toNat (v : Word) {n : Nat} (h : n < 2 ^ 32) : (warl v n).toNat = min v.toNat n := by
  rw [warl, BitVec.toNat_ofNat, Nat.mod_eq_of_lt (Nat.lt_of_le_of_lt (min_le_right _ _) h)]

/-- Settles O44: the bounds of legal parameters fit a register, so the clamped value is stored whole. -/
theorem pointerWritesAreClamped : Obligations.PointerWritesAreClamped := by
  unfold Obligations.PointerWritesAreClamped
  refine ⟨fun s v hl hb => ?write, fun s hb => ?read⟩
  case write =>
    have hsizes := legal_sizes hl
    exact ⟨⟨_, hostWrite_of_idle _ v hb, rfl, warl_toNat v (by omega)⟩,
      ⟨_, hostWrite_of_idle _ v hb, rfl, warl_toNat v (by omega)⟩,
      ⟨_, hostWrite_of_idle _ v hb, rfl, warl_toNat v (by omega)⟩⟩
  case read => exact ⟨readValue_reg_of_idle _ hb, readValue_reg_of_idle _ hb, readValue_reg_of_idle _ hb⟩

/-! ## After a hard reset (70_reset_and_hazards.md R250) -/

/-- Settles O52: a hard reset leaves no tree and only absent entries, whose counts and fields are 0. -/
theorem computedRegistersReadZeroAfterReset : Obligations.ComputedRegistersReadZeroAfterReset := by
  unfold Obligations.ComputedRegistersReadZeroAfterReset
  intro s
  have hread : ∀ r, readValue (hardReset s) (.reg r) = regValue (hardReset s) r := fun r => readValue_reg_of_idle r rfl
  have habsent : ∀ x, (codeOf (hardReset s) x).present = false := fun x => by rw [codeOf_hardReset]; rfl
  refine ⟨hread _, ?ncode, ?maxlen, ?info, fun k => ?word, rfl⟩
  case ncode => rw [hread, regValue, ncode_of_absent habsent]; rfl
  case maxlen => rw [hread, regValue, maxlen_of_absent habsent]; rfl
  case info => rw [hread, regValue, codeInfo, codeOf_hardReset]; rfl
  case word =>
    rw [hread, regValue, codeWordReg, codeOf_hardReset]
    simp [CodeEntry.absent]

end Sys2Proof.Machine
end

section
/-! PROOFS. The address map and the side effects of host accesses (20_memory.md R60, R61, R65). -/

namespace Sys2Proof.Machine

open Sys2Proof.Claims

/-! ## What stands at each offset (R60) -/

/-- Every 4-aligned offset below 0x68 is a register's (10_state.md R23). -/
theorem regMap_total : ∀ k : Fin 26, (regMap.lookup (4 * k.val)).isSome = true := by decide

theorem locationAt_freq (c : Params) (x : Symbol) : locationAt c (0x400 + 4 * x.toNat) = some (.freq x) := by
  have hx := x.isLt
  have hindex : (0x400 + 4 * x.toNat - 0x400) / 4 = x.toNat := by omega
  rw [locationAt, if_neg (by omega), if_pos (by omega), hindex, BitVec.ofNat_toNat, BitVec.setWidth_eq]

theorem locationAt_inWord {c : Params} {i : Nat} (hi : i < c.inSize) :
    locationAt c (0x10000 + i) = some (.inWord i) := by
  rw [locationAt, if_neg (by omega), if_neg (by omega), if_pos (by omega), Nat.add_sub_cancel_left]

theorem locationAt_outWord {c : Params} (hc : c.legal = true) {i : Nat} (hi : i < c.outSize) :
    locationAt c (0x20000 + i) = some (.outWord i) := by
  have hsizes := legal_sizes hc
  rw [locationAt, if_neg (by omega), if_neg (by omega), if_neg (by omega), if_pos (by omega), Nat.add_sub_cancel_left]

/-- An aligned 32-bit access is performed at its location. -/
theorem performedAt_of_aligned {c : Params} {off : Nat} (h : off % 4 = 0) :
    performedAt c off 32 = locationAt c off := by
  rw [performedAt, if_pos ⟨rfl, h⟩]

/-- The register map gives each of its offsets one register, at a 4-aligned offset below 0x68. -/
theorem performedAt_of_mem_regMap (c : Params) {off : Nat} {r : Reg} (h : (off, r) ∈ regMap) :
    performedAt c off 32 = some (.reg r) := by
  have hmap : ∀ e ∈ regMap, e.1 < 0x68 ∧ e.1 % 4 = 0 ∧ regMap.lookup e.1 = some e.2 := by decide
  obtain ⟨hlt, ha, hlookup⟩ := hmap _ h
  exact (performedAt_of_aligned ha).trans (locationAt_reg hlt hlookup)

/-- What is not reserved is a register, a FREQ entry, or a word of IN or OUT. -/
theorem locationAt_ne_none {c : Params} {off : Nat} (hc : c.legal = true) (hoff : off < 0x30000) (ha : off % 4 = 0)
    (h : ¬ reservedOffset c off) : locationAt c off ≠ none := by
  unfold reservedOffset at h
  rcases Nat.lt_or_ge off 0x68 with hreg | hreg
  · obtain ⟨r, hr⟩ := Option.isSome_iff_exists.1 (regMap_total ⟨off / 4, by omega⟩)
    have hoff4 : 4 * (off / 4) = off := by omega
    rw [hoff4] at hr
    rw [locationAt_reg hreg hr]
    exact Option.some_ne_none _
  rcases Nat.lt_or_ge off 0x800 with hfreq | hfreq
  · rw [locationAt, if_neg (by omega), if_pos (by omega)]
    exact Option.some_ne_none _
  rcases Nat.lt_or_ge off 0x20000 with hin | hin
  · rw [locationAt, if_neg (by omega), if_neg (by omega), if_pos (by omega)]
    exact Option.some_ne_none _
  · rw [locationAt, if_neg (by omega), if_neg (by omega), if_neg (by have := legal_sizes hc; omega), if_pos (by omega)]
    exact Option.some_ne_none _

/-- R61: the access is performed exactly when nothing of R61 is against it. -/
theorem performedAt_eq_none_iff {c : Params} {off bits : Nat} (hc : c.legal = true) (hoff : off < 0x30000) :
    performedAt c off bits = none ↔ notPerformed c off bits := by
  refine ⟨fun h => ?_, performedAt_notPerformed hc⟩
  by_contra hperf
  simp only [notPerformed, not_or, not_not] at hperf
  obtain ⟨rfl, ha, hres⟩ := hperf
  rw [performedAt_of_aligned ha] at h
  exact locationAt_ne_none hc hoff ha hres h

/-- Settles O45: the map of the registers is a finite table; the other ranges are read off `locationAt`. -/
theorem addressMapIsExact : Obligations.AddressMapIsExact := by
  unfold Obligations.AddressMapIsExact
  refine ⟨fun c off bits hc hoff => performedAt_eq_none_iff hc hoff, fun c hc => ?_⟩
  have hreg : ∀ {off r}, (off, r) ∈ regMap → performedAt c off 32 = some (.reg r) := performedAt_of_mem_regMap c
  have hword : ∀ k : Fin 8, (0x048 + 4 * k.val, Reg.codeWord k) ∈ regMap := by decide
  exact ⟨hreg (by decide), hreg (by decide), hreg (by decide), hreg (by decide), hreg (by decide), hreg (by decide),
    hreg (by decide), hreg (by decide), hreg (by decide), hreg (by decide), hreg (by decide), hreg (by decide),
    hreg (by decide), hreg (by decide), hreg (by decide), hreg (by decide), hreg (by decide), hreg (by decide),
    fun k => hreg (hword k), fun x => (performedAt_of_aligned (by omega)).trans (locationAt_freq c x),
    fun i ha hi => (performedAt_of_aligned (by omega)).trans (locationAt_inWord hi),
    fun i ha hi => (performedAt_of_aligned (by omega)).trans (locationAt_outWord hc hi)⟩

/-! ## Side effects (R65) -/

/-- With BUSY = 0 a write of a location other than CMD, CTRL and STATUS leaves BUSY 0, and a second one finds its own
value. -/
theorem writeLocation_idem {l : Location} (v : Word) (s : State) (hcmd : l ≠ .reg .cmd) (hctrl : l ≠ .reg .ctrl)
    (hstatus : l ≠ .reg .status) :
    (writeLocation l v s).busy = s.busy ∧ writeLocation l v (writeLocation l v s) = writeLocation l v s := by
  cases l with
  | freq x =>
    refine ⟨rfl, ?_⟩
    simp only [writeLocation, setFreq, Vector.set_set]
  | inWord i =>
    refine ⟨rfl, ?_⟩
    simp only [writeLocation, Memory.writeWord_idem]
  | outWord i =>
    refine ⟨rfl, ?_⟩
    simp only [writeLocation, Memory.writeWord_idem]
  | reg r =>
    cases r
    case cmd => exact absurd rfl hcmd
    case ctrl => exact absurd rfl hctrl
    case status => exact absurd rfl hstatus
    all_goals exact ⟨rfl, rfl⟩

theorem droppedWhileBusy_of_ne {l : Location} (hctrl : l ≠ .reg .ctrl) (hstatus : l ≠ .reg .status) :
    droppedWhileBusy l = true := by
  cases l with
  | freq x => rfl
  | inWord i => rfl
  | outWord i => rfl
  | reg r =>
    cases r
    case ctrl => exact absurd rfl hctrl
    case status => exact absurd rfl hstatus
    all_goals rfl

/-- Settles O48: a dropped write sets HAZ each time, a performed one stores the same value each time. -/
theorem readsAreSilentAndWritesIdempotent : Obligations.ReadsAreSilentAndWritesIdempotent := by
  unfold Obligations.ReadsAreSilentAndWritesIdempotent
  refine ⟨fun s addr bits => ⟨_, busRead_eq addr bits s⟩, fun l v s hcmd hctrl hstatus => ?_⟩
  cases hb : s.busy with
  | true =>
    have hdropped := droppedWhileBusy_of_ne hctrl hstatus
    rw [hostWrite_of_busy v hb hdropped, hostWrite_of_busy v (by exact hb) hdropped]
  | false =>
    obtain ⟨hbusy, hidem⟩ := writeLocation_idem v s hcmd hctrl hstatus
    rw [hostWrite_of_idle l v hb, hostWrite_of_idle l v (hbusy.trans hb), hidem]

end Sys2Proof.Machine
end
